-- ==== Sys2Proof/Word.lean ====
section
/-! DEFINITION. The word types of the blitter: bytes of MEM, 16-bit pixel-words, 32-bit registers,
and the 37-bit REG transaction of 30_encoding.md R80. -/

namespace Sys2Proof

/-- One byte of MEM (R50). -/
abbrev Byte := BitVec 8

/-- The 16-bit value of a pixel-word (R59). -/
abbrev PixelWord := BitVec 16

/-- A register of the REG interface (R7: REG_WIDTH = 32). -/
abbrev Word := BitVec 32

/-- A REG transaction as one value: kind at bit 36, index at bits 35:32, data at bits 31:0 (R80). -/
abbrev Txn := BitVec 37

end Sys2Proof
end

