-- ==== Sys2Proof/Config.lean ====
section
/-! DEFINITION. What is fixed for the machine: the parameters of 00_scope.md R6 and R7, and the values
the spec leaves open. A constant with a value is one the spec fixes; an opaque one is a parameter of
the platform or a free value, and nothing can be proved of which value it has. -/

namespace Sys2Proof

/-- Which byte of a pixel-word lies at its even address (R13). -/
inductive ByteOrder where
  | little
  | big
  deriving DecidableEq, Repr

namespace Config

/-! ## Geometry and depth (R6), taken as the spec states them -/

/-- BUF_WIDTH, the visible width in pixels. -/
abbrev bufWidth : Nat := 1404
/-- BUF_HEIGHT, the visible height in pixels. -/
abbrev bufHeight : Nat := 1872
/-- TOP_MARGIN, the rows reserved before the visible area. -/
abbrev topMargin : Nat := 8
/-- LEFT_MARGIN, the columns reserved before the visible area. -/
abbrev leftMargin : Nat := 8
/-- STRIDE, the bytes of one physical row. -/
abbrev stride : Nat := 1408
/-- PACKED_PIXELS, the pixels of one pixel-word. -/
abbrev packedPixels : Nat := 8
/-- WORD_BYTES, the bytes of one pixel-word. -/
abbrev wordBytes : Nat := 2
/-- BITS_PER_PIXEL, the width of a phase. -/
abbrev bitsPerPixel : Nat := 2
/-- ADDR_WIDTH = 32 (R7): MEM has 2^32 byte addresses. -/
abbrev memSize : Nat := 2 ^ 32

/-- WORD_BYTE_ORDER (R7): little for this hardware (log entry 16). -/
abbrev wordByteOrder : ByteOrder := .little

/-! ## The platform's parameters, left OPEN by R7 (log entry 15) -/

/-- HAS_FAST_PATH: visible in GEOM_PACK bit 26 only (R41). -/
opaque hasFastPath : Bool

/-- Bits [31:6] of BLIT_BASE: the window is aligned to 64 bytes (R66). -/
opaque blitBlock : BitVec 26

/-- BLIT_BASE, the platform's base address of the REG window (R7, R66). -/
def blitBase : Word := blitBlock ++ 0#6

/-- BUS_COHERENT: whether host caches see MEM traffic without maintenance by software (R78). -/
opaque busCoherent : Bool

/-! ## Free values, each applied to the counter `State.draws` (log entry 5) -/

/-- What DROP_COUNT reads while BUSY = 1: any 32-bit value (R98, R183). -/
opaque dropCountWhileBusy : Nat → Word

/-- Which of the admissible accesses the engine performs when no grant names one: any order that keeps
the constraints of R71. -/
opaque engineOrder : Nat → Nat

/-- A byte subject to the race of R75: any 8-bit value. -/
opaque raceByte : Nat → Byte

/-- A byte subject to the same race of which only that it is not 0 is left open: any of the 255 others, less
one (log entry 24). -/
opaque raceOpaqueByte : Nat → Fin 255

/-- A word subject to the race of R75: any 16-bit value. -/
opaque raceWord : Nat → PixelWord

/-- Whether a host read of a frame byte during a command sees the byte after the command (true) or
before it (false): R75 (c). -/
opaque hostReadsAfter : Nat → Bool

/-- How many moves the engine still makes, in a free order, before an assertion of RST stops it: with the
order it makes the draw of R169, which words an abandoned command has written (log entry 9). -/
opaque movesAtReset : Nat → Nat

end Config

end Sys2Proof
end

