-- ==== Sys2Proof/Syntax.lean ====
section
/-! DEFINITION. The instructions: one constructor for each row of spec/opcode_table.json. An instruction
is a REG transaction (30_encoding.md R80), its index and command code already turned into names. -/

namespace Sys2Proof

/-- The sixteen slots of the REG window, in index order (R79). -/
inductive RegName where
  | ctrl | status | fbBase | fbLen | bmBase | bmSize | xOffset | yOffset
  | phase | dropCount | geomSize | geomMargin | geomStride | geomPack | rsvd38 | rsvd3C
  deriving DecidableEq, Repr

/-- The fields of a CTRL write besides CMD (R81); the reserved bits [31:7] are carried and ignored. -/
structure CtrlFields where
  reserved : BitVec 25
  byteClip : Bool
  fast : Bool
  irqEn : Bool
  deriving DecidableEq, Repr

/-- The fields of a STATUS write (R83); the ignored bits [31:4] and [0] are carried. -/
structure StatusFields where
  ignoredHigh : BitVec 28
  clrWign : Bool
  clrErr : Bool
  clrDone : Bool
  ignoredBit0 : Bool
  deriving DecidableEq, Repr

inductive Instr where
  /-- NOP: a CTRL write with CMD = 0x0. -/
  | nop (f : CtrlFields)
  /-- DRAW_CHAR: a CTRL write with CMD = 0x1. -/
  | drawChar (f : CtrlFields)
  /-- RESERVED_CMD_2_3: a CTRL write with CMD 0x2 or 0x3. -/
  | reservedCmd23 (f : CtrlFields) (cmd : BitVec 4)
  /-- RESERVED_CMD_4_7: a CTRL write with CMD 0x4 to 0x7. -/
  | reservedCmd47 (f : CtrlFields) (cmd : BitVec 4)
  /-- RESERVED_CMD_8_F: a CTRL write with CMD 0x8 to 0xF. -/
  | reservedCmd8F (f : CtrlFields) (cmd : BitVec 4)
  /-- WR_STATUS: the acknowledge. -/
  | wrStatus (f : StatusFields)
  | wrFbBase (value : Word)
  | wrFbLen (value : Word)
  | wrBmBase (value : Word)
  /-- WR_BM_SIZE: HEIGHT is bits [31:16] of the data, WIDTH bits [15:0]. -/
  | wrBmSize (height width : BitVec 16)
  | wrXOffset (value : Word)
  | wrYOffset (value : Word)
  /-- WR_PHASE: bits [31:2] of the data are discarded. -/
  | wrPhase (discarded : BitVec 30) (phase : BitVec 2)
  /-- WR_RO_9: a write to DROP_COUNT. -/
  | wrRo9 (ignored : Word)
  /-- WR_RO_A_B: a write to GEOM_SIZE or GEOM_MARGIN. -/
  | wrRoAB (slot : RegName) (ignored : Word)
  /-- WR_RO_C_F: a write to GEOM_STRIDE, GEOM_PACK or a reserved slot. -/
  | wrRoCF (slot : RegName) (ignored : Word)
  /-- RD: a read of any slot; its data bits are what the block returns and are not decoded (R80). -/
  | rd (slot : RegName)
  deriving DecidableEq, Repr

end Sys2Proof
end

