-- ==== Sys2Proof/WellFormed.lean ====
section
/-! DEFINITION. Which terms of `Instr` are transactions of their row: the command code of a reserved
command and the slot of a read-only write lie in the range the row covers (30_encoding.md R82). -/

namespace Sys2Proof

/-- The term is one of its row's transactions. -/
def Instr.wellFormed : Instr → Bool
  | .reservedCmd23 _ cmd => cmd == 0x2#4 || cmd == 0x3#4
  | .reservedCmd47 _ cmd => decide (0x4#4 ≤ cmd) && decide (cmd ≤ 0x7#4)
  | .reservedCmd8F _ cmd => decide (0x8#4 ≤ cmd)
  | .wrRoAB slot _ => slot == .geomSize || slot == .geomMargin
  | .wrRoCF slot _ => slot == .geomStride || slot == .geomPack || slot == .rsvd38 || slot == .rsvd3C
  | .nop _ | .drawChar _ | .wrStatus _ | .wrFbBase _ | .wrFbLen _ | .wrBmBase _ | .wrBmSize _ _
  | .wrXOffset _ | .wrYOffset _ | .wrPhase _ _ | .wrRo9 _ | .rd _ => true

end Sys2Proof
end

