-- ==== Sys2Proof/Decode.lean ====
section
/-! DEFINITION. From the bits of a REG transaction to an instruction, and back (30_encoding.md).
Every 37-bit value is a transaction (R82, R92: the table's rows are disjoint and complete), so decoding
refuses only bytes that are no 37-bit value. A transaction is laid out as five bytes, least significant
first, with bits 39:37 zero (log entry 3). -/

namespace Sys2Proof

/-- Why bytes are no transaction. -/
inductive DecodeError where
  /-- Not exactly five bytes. -/
  | badLength
  /-- One of the bits 39:37, above the 37-bit value of R80, is set. -/
  | strayBits
  deriving DecidableEq, Repr

/-- REGNAME of R96: the slot at an index (R79). -/
def regNameOf (index : BitVec 4) : RegName :=
  match index.toNat with
  | 0 => .ctrl
  | 1 => .status
  | 2 => .fbBase
  | 3 => .fbLen
  | 4 => .bmBase
  | 5 => .bmSize
  | 6 => .xOffset
  | 7 => .yOffset
  | 8 => .phase
  | 9 => .dropCount
  | 10 => .geomSize
  | 11 => .geomMargin
  | 12 => .geomStride
  | 13 => .geomPack
  | 14 => .rsvd38
  | _ => .rsvd3C

/-- The index of a slot, offset[5:2] (R79). -/
def regIndexOf : RegName → BitVec 4
  | .ctrl => 0
  | .status => 1
  | .fbBase => 2
  | .fbLen => 3
  | .bmBase => 4
  | .bmSize => 5
  | .xOffset => 6
  | .yOffset => 7
  | .phase => 8
  | .dropCount => 9
  | .geomSize => 10
  | .geomMargin => 11
  | .geomStride => 12
  | .geomPack => 13
  | .rsvd38 => 14
  | .rsvd3C => 15

/-- The fields of a CTRL data word (R81). -/
def ctrlFieldsOf (data : Word) : CtrlFields :=
  { reserved := data.extractLsb' 7 25
    byteClip := data.getLsbD 6
    fast := data.getLsbD 5
    irqEn := data.getLsbD 4 }

/-- A CTRL write by its command code, bits [3:0] (R82). -/
def decodeCtrl (data : Word) : Instr :=
  let f := ctrlFieldsOf data
  let cmd := data.extractLsb' 0 4
  if cmd = 0x0 then .nop f
  else if cmd = 0x1 then .drawChar f
  else if cmd < 0x4 then .reservedCmd23 f cmd
  else if cmd < 0x8 then .reservedCmd47 f cmd
  else .reservedCmd8F f cmd

/-- The fields of a STATUS data word (R83). -/
def statusFieldsOf (data : Word) : StatusFields :=
  { ignoredHigh := data.extractLsb' 4 28
    clrWign := data.getLsbD 3
    clrErr := data.getLsbD 2
    clrDone := data.getLsbD 1
    ignoredBit0 := data.getLsbD 0 }

/-- A write by its slot (R79, R82). -/
def decodeWrite (slot : RegName) (data : Word) : Instr :=
  match slot with
  | .ctrl => decodeCtrl data
  | .status => .wrStatus (statusFieldsOf data)
  | .fbBase => .wrFbBase data
  | .fbLen => .wrFbLen data
  | .bmBase => .wrBmBase data
  | .bmSize => .wrBmSize (data.extractLsb' 16 16) (data.extractLsb' 0 16)
  | .xOffset => .wrXOffset data
  | .yOffset => .wrYOffset data
  | .phase => .wrPhase (data.extractLsb' 2 30) (data.extractLsb' 0 2)
  | .dropCount => .wrRo9 data
  | .geomSize => .wrRoAB .geomSize data
  | .geomMargin => .wrRoAB .geomMargin data
  | .geomStride => .wrRoCF .geomStride data
  | .geomPack => .wrRoCF .geomPack data
  | .rsvd38 => .wrRoCF .rsvd38 data
  | .rsvd3C => .wrRoCF .rsvd3C data

/-- The instruction of a 37-bit transaction (R80). -/
def decodeTxn (t : Txn) : Instr :=
  let slot := regNameOf (t.extractLsb' 32 4)
  if t.getLsbD 36 then decodeWrite slot (t.extractLsb' 0 32) else .rd slot

/-- The instruction in the bytes of a transaction. -/
def decode : List Byte → Except DecodeError Instr
  | [b0, b1, b2, b3, b4] =>
    let v : BitVec 40 := b4 ++ b3 ++ b2 ++ b1 ++ b0
    if v.extractLsb' 37 3 = 0 then .ok (decodeTxn (v.extractLsb' 0 37)) else .error .strayBits
  | _ => .error .badLength

/-! ## The encoder -/

/-- The data word of a CTRL write (R81). -/
def ctrlData (f : CtrlFields) (cmd : BitVec 4) : Word :=
  f.reserved ++ BitVec.ofBool f.byteClip ++ BitVec.ofBool f.fast ++ BitVec.ofBool f.irqEn ++ cmd

/-- The data word of a STATUS write (R83). -/
def statusData (f : StatusFields) : Word :=
  f.ignoredHigh ++ BitVec.ofBool f.clrWign ++ BitVec.ofBool f.clrErr ++ BitVec.ofBool f.clrDone
    ++ BitVec.ofBool f.ignoredBit0

/-- A write transaction: kind 1, index, data (R80). -/
def writeTxn (slot : RegName) (data : Word) : Txn := 1#1 ++ regIndexOf slot ++ data

/-- A read transaction: kind 0, index, and data bits the host does not drive (R80). -/
def readTxn (slot : RegName) : Txn := 0#1 ++ regIndexOf slot ++ 0#32

/-- The 37-bit transaction of an instruction. -/
def encodeTxn : Instr → Txn
  | .nop f => writeTxn .ctrl (ctrlData f 0x0)
  | .drawChar f => writeTxn .ctrl (ctrlData f 0x1)
  | .reservedCmd23 f cmd => writeTxn .ctrl (ctrlData f cmd)
  | .reservedCmd47 f cmd => writeTxn .ctrl (ctrlData f cmd)
  | .reservedCmd8F f cmd => writeTxn .ctrl (ctrlData f cmd)
  | .wrStatus f => writeTxn .status (statusData f)
  | .wrFbBase v => writeTxn .fbBase v
  | .wrFbLen v => writeTxn .fbLen v
  | .wrBmBase v => writeTxn .bmBase v
  | .wrBmSize h w => writeTxn .bmSize (h ++ w)
  | .wrXOffset v => writeTxn .xOffset v
  | .wrYOffset v => writeTxn .yOffset v
  | .wrPhase d p => writeTxn .phase (d ++ p)
  | .wrRo9 d => writeTxn .dropCount d
  | .wrRoAB slot d => writeTxn slot d
  | .wrRoCF slot d => writeTxn slot d
  | .rd slot => readTxn slot

/-- The five bytes of a transaction, least significant first. -/
def txnBytes (t : Txn) : List Byte :=
  let v := t.setWidth 40
  [v.extractLsb' 0 8, v.extractLsb' 8 8, v.extractLsb' 16 8, v.extractLsb' 24 8, v.extractLsb' 32 8]

/-- The bytes of an instruction. -/
def encode (i : Instr) : List Byte := txnBytes (encodeTxn i)

/-! ## The table's numbering -/

/-- `count` bytes of a number, least significant first. -/
def bytesOf (count w : Nat) : List Byte :=
  match count with
  | 0 => []
  | n + 1 => BitVec.ofNat 8 w :: bytesOf n (w / 256)

/-- The bytes of an instruction the opcode table gives as `nbits` bits of the number `w`: five for a
transaction, more only where the number needs them (the decoder then refuses). -/
def tableBytes (nbits w : Nat) : List Byte := bytesOf (max 5 ((nbits + 7) / 8)) w

/-- The instruction the decoder reads from bits numbered as spec/opcode_table.json numbers them. -/
def decodeTableWord (nbits w : Nat) : Option Instr :=
  match decode (tableBytes nbits w) with
  | .ok i => some i
  | .error _ => none

end Sys2Proof
end

