-- ==== Sys2Proof/Machine/State.lean ====
section
/-! DEFINITION. The state of the machine as plain data: every register, flag and engine field the spec
names (10_state.md), the memory the platform backs, and the moves still to come. -/

namespace Sys2Proof.Machine

/-- The error codes of R148; codes 6 to 15 are never produced (R34). -/
inductive ErrCode where
  | none | illegalCmd | fbMisaligned | fbRange | bmRange | overlap
  deriving DecidableEq, Repr

/-- ENG_STATE (R45). -/
inductive EngState where
  | idle
  | busy
  deriving DecidableEq, Repr

/-- A bitmap pixel (x, y), y counting rows from the top (R18). -/
structure Pixel where
  x : Nat
  y : Nat
  deriving DecidableEq, Repr

/-- A holding register: the value of the pixel-word at a frame offset between the word's read and its
write (R47; log entry 12). -/
structure HeldWord where
  off : Nat
  value : PixelWord
  deriving DecidableEq, Repr

/-- The engine's hidden position in its work (R46 to R48): the bitmap bytes still to be read, the
column-clipped pixels whose bytes it may still read (R121), the holding registers, and the offsets of the
words already written. The words still to update and their lanes are fixed by the operands and the bitmap
bytes (R46) and are computed from them: `pendingWords`. -/
structure Work where
  toRead : List Pixel
  mayRead : List Pixel
  held : List HeldWord
  updated : List Nat
  deriving DecidableEq, Repr

/-- No work: the engine's hidden state while idle (R168). -/
def Work.empty : Work := { toRead := [], mayRead := [], held := [], updated := [] }

/-- The bytes the platform backs, by address, strictly rising. An unlisted address is one the platform
does not back and has no value (R57, R170; log entry 1). -/
abbrev Memory := List Host.Cell

/-- An address range [base, base + len). -/
structure Region where
  base : Nat
  len : Nat
  deriving DecidableEq, Repr

/-- Who made a MEM access. -/
inductive Agent where
  | engine
  | host
  deriving DecidableEq, Repr

inductive AccessKind where
  | read
  | write
  deriving DecidableEq, Repr

/-- One event of the access history: (kind, address, size, value) and its agent (R69). A byte's value is
zero-extended. -/
structure MemEvent where
  agent : Agent
  kind : AccessKind
  addr : Nat
  size : Nat
  value : PixelWord
  deriving DecidableEq, Repr

/-- An access that has reached the REG interface: its size in bytes, offset bits [1:0], and the bytes of
its transaction (R64, R80). -/
structure RegAccess where
  size : Nat
  low : BitVec 2
  txn : List Byte
  deriving DecidableEq, Repr

/-- An access on the host's bus, before the window is decoded (R44, R66). -/
structure BusAccess where
  addr : Word
  size : Nat
  write : Bool
  data : Word
  deriving DecidableEq, Repr

/-- What happens next, in the order the platform lets it happen (R19, R67; log entry 4). -/
inductive Move where
  /-- A REG access. -/
  | reg (a : RegAccess)
  /-- An access at a bus address, which reaches the block when it lies in the window at BLIT_BASE. -/
  | bus (b : BusAccess)
  /-- Another agent writes one byte of memory. -/
  | memWrite (addr : Word) (value : Byte)
  /-- Another agent reads one byte of memory. -/
  | memRead (addr : Word)
  /-- The RST input is asserted (true) or released (false). -/
  | rst (asserted : Bool)
  /-- The engine moves, performing the admissible access that `choice` names. -/
  | grant (choice : Nat)
  deriving DecidableEq, Repr

/-- A byte that another agent has written while BUSY = 1 (R75): its address, whether the engine had already
read it as a byte of the bitmap, the free byte the engine reads there if not, and the free value that the
frame word there then holds (log entries 8, 21 and 24). -/
structure Race where
  addr : Nat
  late : Bool
  byte : Byte
  word : PixelWord
  deriving DecidableEq, Repr

structure State where
  /-- CTRL.IRQ_EN (R26). -/
  irqEn : Bool
  /-- CTRL.FAST (R27), a hint that no rule reads. -/
  fast : Bool
  /-- CTRL.BYTE_CLIP (R28). -/
  byteClip : Bool
  /-- STATUS.DONE (R31). -/
  done : Bool
  /-- STATUS.ERR (R32). -/
  err : Bool
  /-- STATUS.WIGN (R33). -/
  wign : Bool
  /-- STATUS.ERR_CODE (R34). -/
  errCode : ErrCode
  /-- FB_BASE (R36). -/
  fbBase : Word
  /-- FB_LEN (R37). -/
  fbLen : Word
  /-- BM_BASE (R38). -/
  bmBase : Word
  /-- BM_SIZE (R39). -/
  bmSize : Word
  /-- X_OFFSET (R40). -/
  xOffset : Word
  /-- Y_OFFSET (R40). -/
  yOffset : Word
  /-- PHASE bits [1:0] (R42). -/
  phase : BitVec 2
  /-- DROP_COUNT (R43). -/
  dropCount : Word
  /-- ENG_STATE, which is also STATUS.BUSY (R30, R45). -/
  eng : EngState
  /-- The engine's hidden work list, holding registers and position (R46 to R48). -/
  work : Work
  /-- Whether RST is asserted (R167). -/
  rst : Bool
  /-- The data the last REG read returned; the model's own (log entry 6). -/
  regData : Word
  /-- Memory (R50, R54). -/
  mem : Memory
  /-- The platform's ranges whose reads or writes have side effects (R63); the model's own (log entry 11). -/
  devices : List Region
  /-- What happens next; the model's own (log entries 3 and 4). -/
  moves : List Move
  /-- The access history, newest event first (R69; log entry 17). -/
  history : List MemEvent
  /-- What other agents have written while BUSY = 1, oldest first (R75); the model's own (log entries 8 and
  21). -/
  raced : List Race
  /-- The frame bytes that host reads have returned during the command with another value than at acceptance:
  the value after the command (R75 (c)); the model's own (log entry 24). -/
  shown : List Host.Cell
  /-- Memory at the acceptance of the running command (R145): its bitmap bytes fix the work (R46), and a host
  read may see its frame bytes (R75 (c)); the model's own (log entry 8). -/
  atStart : Memory
  /-- How many free values have been drawn; the model's own (log entry 5). -/
  draws : Nat
  deriving DecidableEq, Repr

/-- The machine right after reset (R168). Memory lists nothing, because it is not part of the block
(R170), and no move is pending. -/
def State.reset : State :=
  { irqEn := false, fast := false, byteClip := false
    done := false, err := false, wign := false, errCode := .none
    fbBase := 0, fbLen := 0, bmBase := 0, bmSize := 0, xOffset := 0, yOffset := 0, phase := 0
    dropCount := 0
    eng := .idle, work := Work.empty
    rst := false, regData := 0
    mem := [], devices := []
    moves := [], history := [], raced := [], shown := [], atStart := [], draws := 0 }

/-- Why the machine stops. -/
inductive Fault where
  /-- Raised by a step that has no move pending while the engine is at an address the platform does not
  back: the engine has no step there (R57, R182), and nothing else is left to happen. Safe. -/
  | engineStuck (addr : Nat)
  /-- Raised by a host read of an address the platform does not back, which has no value to return (R57).
  Safe. -/
  | hostReadUnbacked (addr : Nat)
  deriving DecidableEq, Repr

/-- Why an input has no meaning. -/
inductive Refusal where
  /-- Raised by an arm of `exec` whose instruction has no meaning in the model. None is left. Safe. -/
  | notModelled (mnemonic : String)
  /-- Raised by a REG access that is not 32 bits wide or not 4-aligned: R64 refuses it. Safe. -/
  | regAccessUnsupported
  /-- Raised by bytes on the REG interface that are no 37-bit transaction (R80). Safe. -/
  | notATransaction
  /-- Raised by a DRAW_CHAR that would be accepted with a range on memory with side effects: R63 refuses
  such a launch. Safe. -/
  | rangeOnDevice
  deriving DecidableEq, Repr

end Sys2Proof.Machine
end

