-- ==== Sys2Proof/Machine/Ops.lean ====
section
/-! DEFINITION. The named operations over memory and registers: MEM reads and writes with their byte
order, the access history, the stores of a CTRL write, taking a command error (the block's trap entry,
60_exceptions.md R154) and the return from one (R157). -/

namespace Sys2Proof.Machine

/-! ## Memory -/

/-- The byte at an address; none where the platform backs nothing (R57). -/
def Memory.read : Memory → Nat → Option Byte
  | [], _ => none
  | (k, v) :: m, a => if k = a then some v else Memory.read m a

/-- The list with the byte at `a` set, in its place by address. -/
def Memory.insert : Memory → Nat → Byte → Memory
  | [], a, v => [(a, v)]
  | (k, w) :: m, a, v =>
    if a < k then (a, v) :: (k, w) :: m
    else if a = k then (a, v) :: m
    else (k, w) :: Memory.insert m a v

/-- A byte written. MEM has 2^32 addresses (R50); beyond them there is nothing to write. -/
def Memory.write (m : Memory) (a : Nat) (v : Byte) : Memory :=
  if a < Config.memSize then Memory.insert m a v else m

/-- Addresses rise strictly. -/
def Memory.rising : Memory → Bool
  | [] => true
  | [_] => true
  | (k, _) :: (l, w) :: m => decide (k < l) && Memory.rising ((l, w) :: m)

/-- The canonical form: addresses rise strictly and lie in the address space. An unlisted address has no
value, so no entry can equal what it reads as. -/
def Memory.wf (m : Memory) : Bool := Memory.rising m && m.all (fun c => decide (c.1 < Config.memSize))

/-- The word whose bytes at the even and the odd address are given (R13). -/
def assembleWord (order : ByteOrder) (even odd : Byte) : PixelWord :=
  match order with
  | .little => odd ++ even
  | .big => even ++ odd

/-- The byte of a word that lies `k` bytes after its address (R13). -/
def wordByte (order : ByteOrder) (v : PixelWord) (k : Nat) : Byte :=
  match order, k with
  | .little, 0 | .big, _ + 1 => v.extractLsb' 0 8
  | .little, _ + 1 | .big, 0 => v.extractLsb' 8 8

/-- MemRead(a, 2) (R12, R13). -/
def Memory.readWord (m : Memory) (a : Nat) : Option PixelWord :=
  match m.read a, m.read (a + 1) with
  | some b0, some b1 => some (assembleWord Config.wordByteOrder b0 b1)
  | _, _ => none

/-- MemWrite(a, 2, v) (R12, R13). -/
def Memory.writeWord (m : Memory) (a : Nat) (v : PixelWord) : Memory :=
  (m.write a (wordByte Config.wordByteOrder v 0)).write (a + 1) (wordByte Config.wordByteOrder v 1)

/-- An access enters the history (R69). -/
def logEvent (e : MemEvent) (s : State) : State := { s with history := e :: s.history }

/-! ## Registers -/

/-- A write lost because the engine is busy (R97). -/
def setWign (s : State) : State := { s with wign := true }

/-- The field stores of a CTRL write (R99); the reserved bits are ignored (R29). -/
def storeCtrl (f : CtrlFields) (s : State) : State :=
  { s with irqEn := f.irqEn, fast := f.fast, byteClip := f.byteClip }

/-- CommandStart (R103): the record of the previous command is cleared, WIGN is not touched. -/
def commandStart (s : State) : State :=
  { s with done := false, err := false, errCode := .none, dropCount := 0 }

/-- A write to an operand register: `stored` while idle, lost with WIGN while busy (R96, R97). -/
def operandWrite (stored s : State) : Host.Outcome State Fault Refusal :=
  match s.eng with
  | .busy => .next (setWign s)
  | .idle => .next stored

/-- A write to CTRL: lost with WIGN while busy; else the fields are stored and the command acts (R96, R99). -/
def ctrlWrite (f : CtrlFields) (command : State → Host.Outcome State Fault Refusal) (s : State) :
    Host.Outcome State Fault Refusal :=
  match s.eng with
  | .busy => .next (setWign s)
  | .idle => command (storeCtrl f s)

/-! ## Command errors -/

/-- raise CmdError(code): the trap entry (R154). Nothing but STATUS changes and no state is saved. -/
def raiseCmdError (code : ErrCode) (s : State) : State :=
  { s with err := true, errCode := code, done := true }

/-- StatusWrite: the acknowledge, the only return from a command's end (R104, R157). BUSY is read-only. -/
def acknowledge (f : StatusFields) (s : State) : State :=
  { s with
    done := s.done && !f.clrDone
    err := s.err && !f.clrErr
    errCode := if f.clrErr then .none else s.errCode
    wign := s.wign && !f.clrWign }

end Sys2Proof.Machine
end

