-- ==== Sys2Proof/Machine/Flags.lean ====
section
/-! DEFINITION. The words the registers read as (40_control.md R98), the STATUS flags (10_state.md R30 to
R35), the interrupt line (60_exceptions.md R158) and the hardwired GEOM registers (R41, R89). -/

namespace Sys2Proof.Machine

/-- The four bits of ERR_CODE (R148). -/
def errCodeBits : ErrCode → BitVec 4
  | .none => 0
  | .illegalCmd => 1
  | .fbMisaligned => 2
  | .fbRange => 3
  | .bmRange => 4
  | .overlap => 5

/-- STATUS.BUSY, which equals ENG_STATE = BUSY (R30, R45). -/
def State.busy (s : State) : Bool := s.eng == .busy

/-- The IRQ line at every moment (R53, R158). -/
def State.irq (s : State) : Bool := s.done && s.irqEn

/-- What CTRL reads: CMD and the reserved bits read 0 (R25, R29, R98). -/
def ctrlWord (s : State) : Word :=
  0#25 ++ BitVec.ofBool s.byteClip ++ BitVec.ofBool s.fast ++ BitVec.ofBool s.irqEn ++ 0#4

/-- What STATUS reads (R84). -/
def statusWord (s : State) : Word :=
  0#24 ++ errCodeBits s.errCode ++ BitVec.ofBool s.wign ++ BitVec.ofBool s.err ++ BitVec.ofBool s.done
    ++ BitVec.ofBool s.busy

/-- GEOM_SIZE: BUF_HEIGHT [31:16], BUF_WIDTH [15:0]. -/
def geomSizeWord : Word := BitVec.ofNat 16 Config.bufHeight ++ BitVec.ofNat 16 Config.bufWidth

/-- GEOM_MARGIN: LEFT_MARGIN [31:16], TOP_MARGIN [15:0]. -/
def geomMarginWord : Word := BitVec.ofNat 16 Config.leftMargin ++ BitVec.ofNat 16 Config.topMargin

/-- GEOM_STRIDE. -/
def geomStrideWord : Word := BitVec.ofNat 32 Config.stride

/-- GEOM_PACK: the packing constants, PIXEL_ORDER = 1 at bit 24, WORD_BYTE_ORDER at bit 25 and
HAS_FAST_PATH at bit 26. -/
def geomPackWord : Word :=
  0#5 ++ BitVec.ofBool Config.hasFastPath ++ BitVec.ofBool (Config.wordByteOrder == .big) ++ 1#1
    ++ BitVec.ofNat 8 Config.bitsPerPixel ++ BitVec.ofNat 8 Config.wordBytes
    ++ BitVec.ofNat 8 Config.packedPixels

/-- RegRead: the word a slot returns (R98). DROP_COUNT is a free value while busy (R183; log entry 7). -/
def regRead (slot : RegName) (s : State) : Word :=
  match slot with
  | .ctrl => ctrlWord s
  | .status => statusWord s
  | .fbBase => s.fbBase
  | .fbLen => s.fbLen
  | .bmBase => s.bmBase
  | .bmSize => s.bmSize
  | .xOffset => s.xOffset
  | .yOffset => s.yOffset
  | .phase => s.phase.setWidth 32
  | .dropCount =>
    match s.eng with
    | .idle => s.dropCount
    | .busy => Config.dropCountWhileBusy s.draws
  | .geomSize => geomSizeWord
  | .geomMargin => geomMarginWord
  | .geomStride => geomStrideWord
  | .geomPack => geomPackWord
  | .rsvd38 => 0
  | .rsvd3C => 0

/-- Whether a read of the slot draws a free value. -/
def readDraws (slot : RegName) (s : State) : Bool := slot == .dropCount && s.busy

/-- A register read: the host gets the slot's word, and no register changes (R65). -/
def readRegister (slot : RegName) (s : State) : State :=
  { s with
    regData := regRead slot s
    draws := if readDraws slot s then s.draws + 1 else s.draws }

end Sys2Proof.Machine
end

