-- ==== Sys2Proof/Machine/Control.lean ====
section
/-! DEFINITION. The meanings of the CTRL writes that start no work: NOP and the reserved commands
(40_control.md R99, R100, R102). -/

namespace Sys2Proof.Machine

/-- A reserved command: CommandStart, then ILLEGAL_CMD whatever the operands are (R102, R155). -/
def reservedCommand (s : State) : Host.Outcome State Fault Refusal :=
  .next (raiseCmdError .illegalCmd (commandStart s))

/-- NOP: the field stores of R99 and nothing else (R100). -/
def execNop (f : CtrlFields) (s : State) : Host.Outcome State Fault Refusal := ctrlWrite f .next s

/-- RESERVED_CMD_2_3 (R102). -/
def execReservedCmd23 (f : CtrlFields) (_cmd : BitVec 4) (s : State) : Host.Outcome State Fault Refusal :=
  ctrlWrite f reservedCommand s

/-- RESERVED_CMD_4_7 (R102). -/
def execReservedCmd47 (f : CtrlFields) (_cmd : BitVec 4) (s : State) : Host.Outcome State Fault Refusal :=
  ctrlWrite f reservedCommand s

/-- RESERVED_CMD_8_F (R102). -/
def execReservedCmd8F (f : CtrlFields) (_cmd : BitVec 4) (s : State) : Host.Outcome State Fault Refusal :=
  ctrlWrite f reservedCommand s

end Sys2Proof.Machine
end

