-- ==== Sys2Proof/Machine/Operands.lean ====
section
/-! DEFINITION. The operands of DRAW_CHAR as the registers give them (30_encoding.md R85 to R88,
41_draw_char.md R109), the address ranges they name, and the start checks (R111, R150 to R155). -/

namespace Sys2Proof.Machine

/-- The operands of R109. Counts and addresses are exact numbers, never wrapping (R10). -/
structure Operands where
  fbBase : Nat
  fbLen : Nat
  bmBase : Nat
  w : Nat
  h : Nat
  xo : Int
  yo : Int
  phase : BitVec 2
  byteClip : Bool
  deriving DecidableEq, Repr

/-- The operands, read from the registers; while busy they cannot change (R56). -/
def operands (s : State) : Operands :=
  { fbBase := s.fbBase.toNat
    fbLen := s.fbLen.toNat
    bmBase := s.bmBase.toNat
    w := (s.bmSize.extractLsb' 0 16).toNat
    h := (s.bmSize.extractLsb' 16 16).toNat
    xo := s.xOffset.toInt
    yo := s.yOffset.toInt
    phase := s.phase
    byteClip := s.byteClip }

/-- The frame range (R51). -/
def frameRange (o : Operands) : Region := { base := o.fbBase, len := o.fbLen }

/-- The bitmap range (R52). -/
def bitmapRange (o : Operands) : Region := { base := o.bmBase, len := o.w * o.h }

/-- The address lies in the range. -/
def Region.covers (r : Region) (a : Nat) : Bool := decide (r.base ≤ a) && decide (a < r.base + r.len)

/-- The ranges share a byte; ranges that only touch do not (R153). -/
def Region.overlaps (r q : Region) : Bool :=
  decide (0 < r.len) && decide (0 < q.len) && decide (r.base < q.base + q.len) && decide (q.base < r.base + r.len)

/-- The range ends past the top of the address space (R151, R152). -/
def Region.wraps (r : Region) : Bool := decide (Config.memSize < r.base + r.len)

/-- The checks of DrawCharStart in their order; the first that fails names the error (R111, R155). -/
def startError (o : Operands) : Option ErrCode :=
  if o.fbBase % 2 = 1 then some .fbMisaligned
  else if (frameRange o).wraps then some .fbRange
  else if (bitmapRange o).wraps then some .bmRange
  else if (frameRange o).overlaps (bitmapRange o) then some .overlap
  else none

/-- A range of the command lies on memory with side effects: a launch the model refuses (R63). -/
def onDevice (devices : List Region) (o : Operands) : Bool :=
  devices.any (fun d => (frameRange o).overlaps d || (bitmapRange o).overlaps d)

end Sys2Proof.Machine
end

