-- ==== Sys2Proof/Machine/Pixels.lean ====
section
/-! DEFINITION. The per-pixel arithmetic of DRAW_CHAR (41_draw_char.md R113 to R130): where a pixel lands,
which lanes a word update writes, and the whole command as a function of memory (R145). -/

namespace Sys2Proof.Machine

/-! ## Coordinates -/

/-- buffer_y_pos = y + y_offset, exactly (R115). -/
def bufferYPos (yo : Int) (y : Nat) : Int := (y : Int) + yo

/-- The row clip (R116). -/
def rowKept (ypos : Int) : Bool := decide (0 ≤ ypos) && decide (ypos < (Config.bufHeight : Int))

/-- buffer_row, after the vertical flip (R117). -/
def bufferRow (ypos : Int) : Int := (Config.bufHeight : Int) - ypos - 1

/-- buffer_x = x + x_offset, exactly (R118). -/
def bufferX (xo : Int) (x : Nat) : Int := (x : Int) + xo

/-- The column clip (R119). -/
def columnKept (bx : Int) : Bool := decide ((Config.leftMargin : Int) ≤ bx) && decide (bx < (Config.bufWidth : Int))

/-- The byte offset in the frame of the pixel-word at (buffer_row, buffer_x) (R123). -/
def wordOffset (row bx : Int) : Nat :=
  (((Config.topMargin : Int) + row) * Config.stride
    + ((Config.leftMargin : Int) + bx) / Config.packedPixels * Config.wordBytes).toNat

/-- The pixel's index within its word (R125). -/
def laneIndex (bx : Int) : Fin 8 :=
  Fin.ofNat 8 (((Config.leftMargin : Int) + bx) % Config.packedPixels).toNat

/-- The word offset of a bitmap pixel. -/
def pixelOffset (o : Operands) (p : Pixel) : Nat :=
  wordOffset (bufferRow (bufferYPos o.yo p.y)) (bufferX o.xo p.x)

/-- The lane of a bitmap pixel. -/
def pixelLane (o : Operands) (p : Pixel) : Fin 8 := laneIndex (bufferX o.xo p.x)

/-- The address of a bitmap pixel's byte (R52, R121). -/
def bitmapAddr (o : Operands) (p : Pixel) : Nat := o.bmBase + p.y * o.w + p.x

/-- The bitmap rows that pass the row clip. -/
def keptRows (o : Operands) : List Nat := (List.range o.h).filter (fun y => rowKept (bufferYPos o.yo y))

/-- The pixels of one row that the column clip keeps (`keep = true`) or skips (`keep = false`). -/
def rowPixels (o : Operands) (keep : Bool) (y : Nat) : List Pixel :=
  ((List.range o.w).filter (fun x => columnKept (bufferX o.xo x) == keep)).map (fun x => { x := x, y := y })

/-- The pixels that pass both clips: each of their bytes is read exactly once (R121). -/
def keptPixels (o : Operands) : List Pixel := (keptRows o).flatMap (rowPixels o true)

/-- The pixels of kept rows that fail the column clip: the engine may read their bytes (R121). -/
def clippedPixels (o : Operands) : List Pixel := (keptRows o).flatMap (rowPixels o false)

/-- The byte at the address draws its pixel (R120). -/
def opaqueAt (m : Memory) (a : Nat) : Bool :=
  match m.read a with
  | some b => b != 0
  | none => false

/-- The landed pixels when the bitmap is read from `m` (R122). -/
def landedPixels (o : Operands) (m : Memory) : List Pixel :=
  (keptPixels o).filter (fun p => opaqueAt m (bitmapAddr o p))

/-- The lanes that pixels of a list fill in one word (R113). -/
def lanesOf (o : Operands) (landed : List Pixel) (off : Nat) : List (Fin 8) :=
  (landed.filter (fun p => pixelOffset o p == off)).map (pixelLane o)

/-! ## Lanes -/

/-- The shift of a lane: most-significant-first packing (R126). -/
def laneShift (i : Fin 8) : Nat := (Config.packedPixels - 1 - i.val) * Config.bitsPerPixel

/-- SetLane (R129). -/
def setLane (v : PixelWord) (i : Fin 8) (p : BitVec 2) : PixelWord :=
  (v &&& ~~~(3#16 <<< laneShift i)) ||| (p.setWidth 16 <<< laneShift i)

/-- All the lanes of one word update, one after the other (R113 UpdateWord). -/
def setLanes (v : PixelWord) (lanes : List (Fin 8)) (p : BitVec 2) : PixelWord :=
  lanes.foldl (fun v i => setLane v i p) v

/-- The mask of a lane set (R130). -/
def laneMask (lanes : List (Fin 8)) : PixelWord := lanes.foldl (fun m i => m ||| 3#16 <<< laneShift i) 0

/-- The pattern with the phase in every lane (R130). -/
def phasePattern (p : BitVec 2) : PixelWord := p.setWidth 16 * 0x5555#16

/-- The lane form of one word update (R130). -/
def blendLanes (v : PixelWord) (lanes : List (Fin 8)) (p : BitVec 2) : PixelWord :=
  (v &&& ~~~(laneMask lanes)) ||| (phasePattern p &&& laneMask lanes)

/-- The lane lies in the byte at the word's even address (R128). -/
def laneInFirstByte (order : ByteOrder) (i : Fin 8) : Bool :=
  match order with
  | .little => decide (4 ≤ i.val)
  | .big => decide (i.val ≤ 3)

/-- One lane of the byte update of ByteClip (R128). -/
def setClipLane (c : Byte) (i : Fin 8) (p : BitVec 2) : Byte :=
  (c &&& ~~~(3#8 <<< (laneShift i % 8))) ||| (p.setWidth 8 <<< (laneShift i % 8))

/-- The byte update of ByteClip for the lanes in range (R128). -/
def setClipLanes (c : Byte) (lanes : List (Fin 8)) (p : BitVec 2) : Byte :=
  lanes.foldl (fun c i => setClipLane c i p) c

/-! ## The guard -/

/-- What the buffer-length guard and the overrun policy make of a word (R127, R128). -/
inductive WordFate where
  | whole
  | firstByte
  | dropped
  deriving DecidableEq, Repr

/-- The guard of R127 and the byte-clip policy of R128. -/
def wordFate (o : Operands) (off : Nat) : WordFate :=
  if off + Config.wordBytes - 1 < o.fbLen then .whole
  else if o.byteClip && decide (off < o.fbLen) then .firstByte
  else .dropped

/-- The lanes of a word that are written under its fate; the others are dropped and counted (R134). -/
def writtenLanes (order : ByteOrder) (fate : WordFate) (lanes : List (Fin 8)) : List (Fin 8) :=
  match fate with
  | .whole => lanes
  | .firstByte => lanes.filter (laneInFirstByte order)
  | .dropped => []

/-- The addresses an update of the word may write (R58, R60). -/
def wordAddrs (o : Operands) (off : Nat) : List Nat :=
  match wordFate o off with
  | .whole => [o.fbBase + off, o.fbBase + off + 1]
  | .firstByte => [o.fbBase + off]
  | .dropped => []

/-- The lanes that an update of the word writes: those of the landed pixels that its fate does not drop. -/
def wordLanes (o : Operands) (landed : List Pixel) (off : Nat) : List (Fin 8) :=
  writtenLanes Config.wordByteOrder (wordFate o off) (lanesOf o landed off)

/-- The pixel's lane is one its word's fate drops (R134). -/
def pixelDropped (o : Operands) (p : Pixel) : Bool :=
  (writtenLanes Config.wordByteOrder (wordFate o (pixelOffset o p)) [pixelLane o p]).isEmpty

/-- How many of the landed pixels are not written (R134). -/
def droppedCount (o : Operands) (landed : List Pixel) : Nat := (landed.filter (pixelDropped o)).length

/-! ## The command as a function (R145) -/

/-- The byte at an address after the landed pixels are drawn, `m` being memory at acceptance. -/
def paintByte (o : Operands) (landed : List Pixel) (m : Memory) (a : Nat) : Option Byte :=
  if a < o.fbBase then m.read a
  else
    let off := (a - o.fbBase) / 2 * 2
    let lanes := wordLanes o landed off
    if lanes.isEmpty then m.read a
    else
      match wordFate o off with
      | .whole =>
        (m.readWord (o.fbBase + off)).map
          (fun v => wordByte Config.wordByteOrder (setLanes v lanes o.phase) (a - o.fbBase - off))
      | .firstByte =>
        if a = o.fbBase + off then (m.read a).map (fun c => setClipLanes c lanes o.phase) else m.read a
      | .dropped => m.read a

/-- fr': the byte at an address after the command, `m` being memory at acceptance (R145). -/
def drawByte (o : Operands) (m : Memory) (a : Nat) : Option Byte := paintByte o (landedPixels o m) m a

/-- drop: how many landed pixels are not written (R134, R145). -/
def drawDropCount (o : Operands) (m : Memory) : Nat := droppedCount o (landedPixels o m)

end Sys2Proof.Machine
end

