-- ==== Sys2Proof/Machine/Engine.lean ====
section
/-! DEFINITION. The engine: the work of an accepted command, the accesses it may perform next, and what each
does (10_state.md R45 to R48, 20_memory.md R60 and R71, 41_draw_char.md R121 and R127 to R135). One engine
move performs one MEM access, or completes the command. -/

namespace Sys2Proof.Machine

/-! ## The work list -/

/-- The engine's position at the acceptance of a command: nothing read, nothing written (R48). -/
def startWork (o : Operands) : Work :=
  { toRead := keptPixels o, mayRead := clippedPixels o, held := [], updated := [] }

/-- The first write of another agent at an address during the command. -/
def raceAt (s : State) (a : Nat) : Option Race := s.raced.find? (fun r => r.addr == a)

/-- What the engine reads at a bitmap address: memory's byte, or the free byte of an address that another
agent has written during the command before this read (R75 (b); log entry 21). -/
def bitmapByte (s : State) (a : Nat) : Option Byte :=
  match raceAt s a with
  | some r => some r.byte
  | none => s.mem.read a

/-- The byte draws its pixel, by the value the engine reads or has read there: the byte at acceptance, or the
free byte of an address that another agent has written before the engine read it (R75 (b)). -/
def drawsAt (s : State) (a : Nat) : Bool :=
  match raceAt s a with
  | some r => if r.late then opaqueAt s.atStart a else r.byte != 0
  | none => opaqueAt s.atStart a

/-- The landed pixels of the running command, fixed by the operands and the bitmap bytes (R46, R122). -/
def landed (s : State) : List Pixel :=
  (keptPixels (operands s)).filter (fun p => drawsAt s (bitmapAddr (operands s) p))

/-- Adds an offset to a list of distinct offsets. -/
def addOffset (off : Nat) (offs : List Nat) : List Nat := if offs.contains off then offs else off :: offs

/-- The words the engine has still to update: those with a landed pixel that is not dropped and that are not
yet written (R46, R131, R133). -/
def pendingWords (s : State) : List Nat :=
  (((landed s).filter (fun p => !pixelDropped (operands s) p)).foldr
    (fun p offs => addOffset (pixelOffset (operands s) p) offs) []).filter (fun off => !s.work.updated.contains off)

/-! ## What the engine may do next -/

/-- One engine move. -/
inductive Action where
  /-- The bitmap read of a pixel that passes both clips (R121). -/
  | readPixel (p : Pixel)
  /-- The optional bitmap read of a column-clipped pixel (R121). -/
  | readClipped (p : Pixel)
  /-- The frame read of a word, or of its first byte (R60). -/
  | readFrame (off : Nat)
  /-- The frame write of a word, or of its first byte (R60). -/
  | writeFrame (off : Nat)
  /-- Completion (R135). -/
  | complete
  deriving DecidableEq, Repr

/-- The byte of every pixel landing in the word has been read: constraint (b) of R71. A pixel that does not land
binds nothing, read or unread. -/
def settled (s : State) (off : Nat) : Bool :=
  s.work.toRead.all (fun p => pixelOffset (operands s) p != off || !(landed s).contains p)

/-- The holding register of a word, if it has been read (R47). -/
def heldValue (off : Nat) (held : List HeldWord) : Option PixelWord :=
  (held.find? (fun h => h.off == off)).map HeldWord.value

/-- The move a pending word admits: its read before its write (R71 (a)), and the bitmap reads of its pixels
before its write (R71 (b)). -/
def wordActions (s : State) (off : Nat) : List Action :=
  match heldValue off s.work.held with
  | none => [.readFrame off]
  | some _ => if settled s off then [.writeFrame off] else []

/-- Every move the engine may make next, in any order (R71). Completion is one of them when every bitmap
byte is read and every word is updated or dropped (R135). -/
def engineActions (s : State) : List Action :=
  s.work.toRead.map .readPixel ++ s.work.mayRead.map .readClipped ++ (pendingWords s).flatMap (wordActions s)
    ++ (if s.work.toRead.isEmpty && (pendingWords s).isEmpty then [.complete] else [])

/-- The move a choice names, counted round the list; a single admissible move needs no choice. -/
def pickAction (choice : Nat) : List Action → Option Action
  | [] => none
  | [a] => some a
  | a :: b :: rest => (a :: b :: rest)[choice % (rest.length + 2)]?

/-! ## What each move does -/

/-- An engine access enters the history (R69). -/
def logEngine (kind : AccessKind) (addr size : Nat) (value : PixelWord) (s : State) : State :=
  logEvent { agent := .engine, kind := kind, addr := addr, size := size, value := value } s

/-- The counter advances when a free value was drawn. -/
def drawIf (b : Bool) (s : State) : State := { s with draws := if b then s.draws + 1 else s.draws }

/-- A bitmap read of a kept pixel (R121). -/
def readPixelStep (p : Pixel) (s : State) : Except Nat State :=
  let a := bitmapAddr (operands s) p
  match bitmapByte s a with
  | none => .error a
  | some b =>
    .ok (logEngine .read a 1 (b.setWidth 16) { s with work := { s.work with toRead := s.work.toRead.erase p } })

/-- An optional bitmap read: it affects no result (R121). -/
def readClippedStep (p : Pixel) (s : State) : Except Nat State :=
  let a := bitmapAddr (operands s) p
  match bitmapByte s a with
  | none => .error a
  | some b =>
    .ok (logEngine .read a 1 (b.setWidth 16) { s with work := { s.work with mayRead := s.work.mayRead.erase p } })

/-- The value enters the word's holding register (R47). -/
def holdWord (off : Nat) (v : PixelWord) (s : State) : State :=
  { s with work := { s.work with held := { off := off, value := v } :: s.work.held } }

/-- The frame read of a word: two bytes, or one under the byte-clip policy (R60, R128). -/
def readFrameStep (off : Nat) (s : State) : Except Nat State :=
  let a := (operands s).fbBase + off
  match wordFate (operands s) off with
  | .whole =>
    match s.mem.readWord a with
    | none => .error a
    | some v => .ok (logEngine .read a 2 v (holdWord off v s))
  | _ =>
    match s.mem.read a with
    | none => .error a
    | some b => .ok (logEngine .read a 1 (b.setWidth 16) (holdWord off (b.setWidth 16) s))

/-- The word is written: its holding register is free again. -/
def finishWord (off : Nat) (s : State) : State :=
  { s with
    work := { s.work with
      held := s.work.held.filter (fun h => h.off != off)
      updated := off :: s.work.updated } }

/-- The free value that a word holds because another agent has written one of its bytes during the command; of
a word with one byte in range its low byte (R75 (a); log entry 8). The first such write fixes it. -/
def racedWord (s : State) (off : Nat) : Option PixelWord :=
  (s.raced.find? (fun r => (wordAddrs (operands s) off).contains r.addr)).map Race.word

/-- The frame write of a word (R113 UpdateWord, R128 ByteClip, R129): the held value with the word's lanes
set, or the free value of a raced word (R75 (a)). -/
def writeFrameStep (off : Nat) (s : State) : Except Nat State :=
  let o := operands s
  let a := o.fbBase + off
  match heldValue off s.work.held with
  | none => .ok s
  | some held =>
    let lanes := wordLanes o (landed s) off
    match wordFate o off with
    | .whole =>
      let v := (racedWord s off).getD (setLanes held lanes o.phase)
      .ok (logEngine .write a 2 v { finishWord off s with mem := s.mem.writeWord a v })
    | _ =>
      let c := ((racedWord s off).map (fun w => w.setWidth 8)).getD (setClipLanes (held.setWidth 8) lanes o.phase)
      .ok (logEngine .write a 1 (c.setWidth 16) { finishWord off s with mem := s.mem.write a c })

/-- The engine's hidden state while idle (R168). -/
def clearEngine (s : State) : State := { s with eng := .idle, work := Work.empty, raced := [], shown := [], atStart := [] }

/-- Complete (R135). DROP_COUNT becomes the number of landed pixels not written (R134); while the command
ran, no read showed how far it had counted (R98, R183). -/
def completeCommand (s : State) : State :=
  { clearEngine s with done := true, dropCount := BitVec.ofNat 32 (droppedCount (operands s) (landed s)) }

/-- One engine move; an error names the address that the platform does not back (R57). -/
def performAction (a : Action) (s : State) : Except Nat State :=
  match a with
  | .readPixel p => readPixelStep p s
  | .readClipped p => readClippedStep p s
  | .readFrame off => readFrameStep off s
  | .writeFrame off => writeFrameStep off s
  | .complete => .ok (completeCommand s)

/-- The engine's move under a choice. While idle it makes no access (R165). -/
def engineMove (choice : Nat) (s : State) : Except Nat State :=
  match s.eng with
  | .idle => .ok s
  | .busy =>
    match pickAction choice (engineActions s) with
    | none => .ok s
    | some a => performAction a s

/-- The state after the engine's move, which is the state before it where the engine has no step: at an
address the platform does not back the other agents go on (R57, R182; log entry 14). -/
def afterEngine (choice : Nat) (s : State) : State :=
  match engineMove choice s with
  | .ok t => t
  | .error _ => s

/-- A granted engine move. -/
def engineGranted (choice : Nat) (s : State) : Host.Outcome State Fault Refusal := .next (afterEngine choice s)

/-- The engine's move when nothing else is left to happen: weak fairness (R182), the order free (R71). -/
def engineAlone (s : State) : Host.Outcome State Fault Refusal :=
  match engineMove (Config.engineOrder s.draws) { s with draws := s.draws + 1 } with
  | .ok t => .next t
  | .error a => .fault (.engineStuck a)

/-- The engine makes `count` moves in the free order. -/
def engineRun (count : Nat) (s : State) : State :=
  match count with
  | 0 => s
  | n + 1 => engineRun n (afterEngine (Config.engineOrder s.draws) { s with draws := s.draws + 1 })

end Sys2Proof.Machine
end

