-- ==== Sys2Proof/Machine/DrawChar.lean ====
section
/-! DEFINITION. The meaning of DRAW_CHAR's CTRL write: the start checks and the acceptance (41_draw_char.md
R110 to R112). What the engine then does is in Engine.lean. -/

namespace Sys2Proof.Machine

/-- The command is accepted: the engine is busy, at the start of the work that the operands and the bitmap
bytes of memory fix (R46, R111). -/
def acceptCommand (s : State) : State :=
  { s with
    eng := .busy
    work := startWork (operands s)
    raced := []
    shown := []
    atStart := s.mem }

/-- DrawCharStart: rejected with the first failing check (R111, R154, R155), refused on memory with side
effects (R63), or accepted. -/
def drawCharStart (s : State) : Host.Outcome State Fault Refusal :=
  match startError (operands s) with
  | some code => .next (raiseCmdError code s)
  | none => if onDevice s.devices (operands s) then .refused .rangeOnDevice else .next (acceptCommand s)

/-- DRAW_CHAR (R99, R101, R110). -/
def execDrawChar (f : CtrlFields) (s : State) : Host.Outcome State Fault Refusal :=
  ctrlWrite f (fun t => drawCharStart (commandStart t)) s

end Sys2Proof.Machine
end

