-- ==== Sys2Proof/Machine/RegisterInterface.lean ====
section
/-! DEFINITION. The meanings of the register transactions (40_control.md R96 to R98, R104, R105): operand
writes, the acknowledge, writes to read-only slots, and reads. -/

namespace Sys2Proof.Machine

/-- WR_FB_BASE (R36, R96, R97). -/
def execWrFbBase (value : Word) (s : State) : Host.Outcome State Fault Refusal :=
  operandWrite { s with fbBase := value } s

/-- WR_FB_LEN (R37, R96, R97). -/
def execWrFbLen (value : Word) (s : State) : Host.Outcome State Fault Refusal :=
  operandWrite { s with fbLen := value } s

/-- WR_BM_BASE (R38, R96, R97). -/
def execWrBmBase (value : Word) (s : State) : Host.Outcome State Fault Refusal :=
  operandWrite { s with bmBase := value } s

/-- WR_BM_SIZE (R39, R86, R96, R97). -/
def execWrBmSize (height width : BitVec 16) (s : State) : Host.Outcome State Fault Refusal :=
  operandWrite { s with bmSize := height ++ width } s

/-- WR_X_OFFSET (R40, R96, R97). -/
def execWrXOffset (value : Word) (s : State) : Host.Outcome State Fault Refusal :=
  operandWrite { s with xOffset := value } s

/-- WR_Y_OFFSET (R40, R96, R97). -/
def execWrYOffset (value : Word) (s : State) : Host.Outcome State Fault Refusal :=
  operandWrite { s with yOffset := value } s

/-- WR_PHASE: bits [31:2] are discarded (R42, R88, R96, R97). -/
def execWrPhase (_discarded : BitVec 30) (phase : BitVec 2) (s : State) : Host.Outcome State Fault Refusal :=
  operandWrite { s with phase := phase } s

/-- WR_STATUS: the acknowledge, served in both engine states (R83, R104). -/
def execWrStatus (f : StatusFields) (s : State) : Host.Outcome State Fault Refusal :=
  .next (acknowledge f s)

/-- WR_RO_9: a write to DROP_COUNT is ignored and never sets WIGN (R105). -/
def execWrRo9 (_ignored : Word) (s : State) : Host.Outcome State Fault Refusal := .next s

/-- WR_RO_A_B: a write to GEOM_SIZE or GEOM_MARGIN is ignored (R41, R105). -/
def execWrRoAB (_slot : RegName) (_ignored : Word) (s : State) : Host.Outcome State Fault Refusal := .next s

/-- WR_RO_C_F: a write to GEOM_STRIDE, GEOM_PACK or a reserved slot is ignored (R41, R44, R105). -/
def execWrRoCF (_slot : RegName) (_ignored : Word) (s : State) : Host.Outcome State Fault Refusal := .next s

/-- RD: a read of any slot, served in both engine states (R98). -/
def execRd (slot : RegName) (s : State) : Host.Outcome State Fault Refusal := .next (readRegister slot s)

end Sys2Proof.Machine
end

