-- ==== Sys2Proof/Machine/Dispatch.lean ====
section
/-! DEFINITION. One arm for each constructor of Instr, each one direct call of its meaning. -/

namespace Sys2Proof.Machine

def exec (i : Instr) (s : State) : Host.Outcome State Fault Refusal :=
  match i with
  | .nop f => Sys2Proof.Machine.execNop f s
  | .drawChar f => Sys2Proof.Machine.execDrawChar f s
  | .reservedCmd23 f cmd => Sys2Proof.Machine.execReservedCmd23 f cmd s
  | .reservedCmd47 f cmd => Sys2Proof.Machine.execReservedCmd47 f cmd s
  | .reservedCmd8F f cmd => Sys2Proof.Machine.execReservedCmd8F f cmd s
  | .wrStatus f => Sys2Proof.Machine.execWrStatus f s
  | .wrFbBase value => Sys2Proof.Machine.execWrFbBase value s
  | .wrFbLen value => Sys2Proof.Machine.execWrFbLen value s
  | .wrBmBase value => Sys2Proof.Machine.execWrBmBase value s
  | .wrBmSize height width => Sys2Proof.Machine.execWrBmSize height width s
  | .wrXOffset value => Sys2Proof.Machine.execWrXOffset value s
  | .wrYOffset value => Sys2Proof.Machine.execWrYOffset value s
  | .wrPhase discarded phase => Sys2Proof.Machine.execWrPhase discarded phase s
  | .wrRo9 ignored => Sys2Proof.Machine.execWrRo9 ignored s
  | .wrRoAB slot ignored => Sys2Proof.Machine.execWrRoAB slot ignored s
  | .wrRoCF slot ignored => Sys2Proof.Machine.execWrRoCF slot ignored s
  | .rd slot => Sys2Proof.Machine.execRd slot s

end Sys2Proof.Machine
end

