-- ==== Sys2Proof/Machine/Platform.lean ====
section
/-! DEFINITION. What the other agents do: memory accesses of the host with the race outcomes of
20_memory.md R75, the RST input with a command abandoned in the middle (70_reset_and_hazards.md R167 to
R170), and how an access on the bus becomes a transaction of the block (R44, R64, R66, R80). -/

namespace Sys2Proof.Machine

/-- The frame offset of the word that holds the byte at an address, when the address is in the frame. -/
def frameWordOf (o : Operands) (a : Nat) : Option Nat :=
  if (frameRange o).covers a then some ((a - o.fbBase) / 2 * 2) else none

/-- The kept pixel whose byte lies at an address. -/
def pixelAt (o : Operands) (a : Nat) : Option Pixel := (keptPixels o).find? (fun p => bitmapAddr o p == a)

/-! ## Host accesses to memory -/

/-- A host access enters the history (R69). -/
def logHost (kind : AccessKind) (addr : Nat) (value : Byte) (s : State) : State :=
  logEvent { agent := .host, kind := kind, addr := addr, size := 1, value := value.setWidth 16 } s

/-- The engine has already read the byte at an address as a kept pixel's. -/
def alreadyRead (s : State) (a : Nat) : Bool :=
  match pixelAt (operands s) a with
  | some p => !s.work.toRead.contains p
  | none => false

/-- The race enters the list, behind those before it. -/
def addRace (r : Race) (s : State) : State := { s with raced := s.raced ++ [r], draws := s.draws + 1 }

/-- The command has a say in the byte at an address: it is a byte of a word the command writes. -/
def inDispute (s : State) (a : Nat) : Bool :=
  match frameWordOf (operands s) a with
  | none => false
  | some off =>
    s.busy && (wordAddrs (operands s) off).contains a && !(wordLanes (operands s) (landed s) off).isEmpty

/-- The value that the running command gives a byte it writes: the byte of the word's free value where the word
is raced (R75 (a)), else what the landed pixels make of it (R145). -/
def commandByte (s : State) (a : Nat) : Option Byte :=
  let o := operands s
  let off := (a - o.fbBase) / 2 * 2
  match racedWord s off with
  | some w =>
    match wordFate o off with
    | .whole => some (wordByte Config.wordByteOrder w (a - o.fbBase - off))
    | _ => some (w.setWidth 8)
  | none => paintByte o (landed s) s.atStart a

/-- What a byte holds after the command unless another agent writes again. -/
def finalByte (s : State) (a : Nat) : Option Byte := if inDispute s a then commandByte s a else s.mem.read a

/-- The landed pixels and free words of a state agree with what has already happened: a word that was read has
a landed pixel (R133), no unread pixel lands in a word already written (R71 (b)), and the frame bytes that host
reads have shown are those after the command (R75 (c)). -/
def keepsPast (s : State) : Bool :=
  s.work.held.all (fun h => (pendingWords s).contains h.off)
    && s.work.toRead.all
      (fun p => !(s.work.updated.contains (pixelOffset (operands s) p) && (landed s).contains p))
    && s.shown.all (fun c => finalByte s c.1 == some c.2)

/-- The value a host read has shown at an address. -/
def shownAt (s : State) (a : Nat) : Option Byte := (s.shown.find? (fun c => c.1 == a)).map Prod.snd

/-- The free value of the frame word that holds the byte at `a`: any 16-bit value (R75 (a)) whose bytes are those
that host reads have shown already (R75 (c); log entry 24). -/
def raceWordAt (s : State) (a : Nat) : PixelWord :=
  let o := operands s
  let w := Config.raceWord s.draws
  match frameWordOf o a with
  | none => w
  | some off =>
    match wordFate o off with
    | .whole =>
      assembleWord Config.wordByteOrder
        ((shownAt s (o.fbBase + off)).getD (wordByte Config.wordByteOrder w 0))
        ((shownAt s (o.fbBase + off + 1)).getD (wordByte Config.wordByteOrder w 1))
    | _ => ((shownAt s (o.fbBase + off)).map (fun b => b.setWidth 16)).getD w

/-- What a write of another agent at `a` is to the running command if the engine reads `b` there from then on. -/
def raceWith (s : State) (a : Nat) (b : Byte) : Race :=
  { addr := a, late := alreadyRead s a, byte := b, word := raceWordAt s a }

/-- The free byte of a write of another agent at `a`: any 8-bit value (R75 (b)) that agrees with what has already
happened. Where the drawn one does not, its pixel has to land as it does now: any byte but 0, or 0 (log
entry 24). -/
def raceByteAt (s : State) (a : Nat) : Byte :=
  let b := Config.raceByte s.draws
  if keepsPast (addRace (raceWith s a b) s) then b
  else if drawsAt s a then BitVec.ofNat 8 ((Config.raceOpaqueByte s.draws).val + 1)
  else 0

/-- What a write of another agent at `a` is to the running command: drawn with the counter, and late when the
engine has already read the byte as a kept pixel's (R75; log entry 21). -/
def raceOf (s : State) (a : Nat) : Race := raceWith s a (raceByteAt s a)

/-- Memory after a host writes `v` at `a` during a command, the race already noted in `s`. A word that the
command has written holds its free value from then on (R75 (a)); every other byte is stored as written (log
entry 8). -/
def racedWrite (s : State) (a : Nat) (v : Byte) : Memory :=
  let o := operands s
  match frameWordOf o a with
  | none => s.mem.write a v
  | some off =>
    match s.work.updated.contains off, racedWord s off with
    | true, some w =>
      match wordFate o off with
      | .whole => s.mem.writeWord (o.fbBase + off) w
      | _ => s.mem.write (o.fbBase + off) (w.setWidth 8)
    | _, _ => s.mem.write a v

/-- Another agent writes a byte. A frame byte that the command does not write is from then on what was written, so
what reads of it have shown binds nothing any more. -/
def hostWrite (addr : Word) (v : Byte) (s : State) : State :=
  let a := addr.toNat
  match s.eng with
  | .idle => logHost .write a v { s with mem := s.mem.write a v }
  | .busy =>
    let t := addRace (raceOf s a) s
    logHost .write a v
      { t with
        mem := racedWrite t a v
        shown := if inDispute s a then s.shown else s.shown.filter (fun c => c.1 != a) }

/-- What a host reads: memory's byte; of a byte the running command writes, by a free draw, the byte before the
command or the byte the command gives it, or the one of the two that has a value (R75 (c)). A byte that is not
backed has no value (R57). -/
def hostReadValue (s : State) (a : Nat) : Option Byte :=
  match s.mem.read a with
  | none => none
  | some b =>
    if inDispute s a then
      let before := s.atStart.read a
      let after := commandByte s a
      some ((if Config.hostReadsAfter s.draws then after.or before else before.or after).getD b)
    else some b

/-- A host read during a command has returned `b`: a frame byte that differs from the one at acceptance is the
byte after the command (R75 (c)). -/
def showByte (a : Nat) (b : Byte) (s : State) : State :=
  { s with
    shown :=
      if s.busy && (frameWordOf (operands s) a).isSome && s.atStart.read a != some b then (a, b) :: s.shown
      else s.shown }

/-- Another agent reads a byte: the value enters the history. -/
def hostRead (addr : Word) (s : State) : Host.Outcome State Fault Refusal :=
  let a := addr.toNat
  match hostReadValue s a with
  | none => .fault (.hostReadUnbacked a)
  | some b => .next (logHost .read a b (drawIf (inDispute s a) (showByte a b s)))

/-! ## Reset -/

/-- The engine when reset comes: idle it has nothing to do; busy it makes a free number of moves in a free
order before it stops, each an access like any other. So each word of the abandoned command holds its value
at acceptance or the value the command gives it, and which words is a draw (R169; log entry 9). -/
def abandonCommand (s : State) : State :=
  match s.eng with
  | .idle => s
  | .busy => engineRun (Config.movesAtReset s.draws) { s with draws := s.draws + 1 }

/-- RST is asserted: every register, flag and engine field takes its reset value (R167, R168; log entry
10). Memory is not the block's (R170), nor are the platform's inputs. -/
def assertReset (s : State) : State :=
  let t := abandonCommand s
  { State.reset with
    rst := true
    mem := t.mem
    draws := t.draws
    history := t.history
    regData := s.regData
    devices := s.devices
    moves := s.moves }

/-- An edge of the RST input. -/
def setRst (asserted : Bool) (s : State) : State :=
  if asserted then assertReset s else { s with rst := false }

/-! ## From the bus to a transaction -/

/-- The instruction of a REG access: a 32-bit access at a multiple of 4 (R64) whose bytes decode. -/
def fetchReg (a : RegAccess) : Except Refusal Instr :=
  if a.size = 4 ∧ a.low = 0 then
    match decode a.txn with
    | .ok i => .ok i
    | .error _ => .error .notATransaction
  else .error .regAccessUnsupported

/-- The transaction of a kind, an index and a data word (R80). -/
def txnOf (write : Bool) (index : BitVec 4) (data : Word) : Txn := BitVec.ofBool write ++ index ++ data

/-- The access begins in the 64-byte window (R66). -/
def startsInWindow (b : BusAccess) : Bool := b.addr.extractLsb' 6 26 == Config.blitBlock

/-- DESIGN CHOICE (log entry 22): an access that begins below BLIT_BASE and runs into the window counts as a
REG access, which R64 then refuses: it is not 32 bits wide or not at a multiple of 4. R44 and R64 speak only
of accesses outside the window and at offsets inside it. -/
def runsIntoWindow (b : BusAccess) : Bool :=
  decide (b.addr.toNat < Config.blitBase.toNat) && decide (Config.blitBase.toNat < b.addr.toNat + b.size)

/-- The REG access of a bus access; none outside the 64-byte window, which does not reach the block (R44). -/
def busToReg (b : BusAccess) : Option RegAccess :=
  if startsInWindow b || runsIntoWindow b then
    some
      { size := b.size
        low := b.addr.extractLsb' 0 2
        txn := txnBytes (txnOf b.write (b.addr.extractLsb' 2 4) b.data) }
  else none

end Sys2Proof.Machine
end

