-- ==== Sys2Proof/Machine/Step.lean ====
section
/-! DEFINITION. One step of the machine: the next move of the list takes effect whole (20_memory.md R67),
and with no move pending the engine moves (70_reset_and_hazards.md R182). -/

namespace Sys2Proof.Machine

/-- A REG access reaches the block: not served while RST is asserted (R167), else its instruction runs. -/
def serveReg (a : RegAccess) (s : State) : Host.Outcome State Fault Refusal :=
  if s.rst then .next s
  else
    match fetchReg a with
    | .ok i => exec i s
    | .error r => .refused r

/-- One move, already taken off the list. DESIGN CHOICE (log entry 23): an access on the host's bus that does
not reach the block (R44) changes nothing and enters no event; what it does elsewhere is the platform's, and a
host's access to memory is a `memWrite` or a `memRead`. -/
def serve (m : Move) (s : State) : Host.Outcome State Fault Refusal :=
  match m with
  | .reg a => serveReg a s
  | .bus b =>
    match busToReg b with
    | some a => serveReg a s
    | none => .next s
  | .memWrite addr v => .next (hostWrite addr v s)
  | .memRead addr => hostRead addr s
  | .rst asserted => .next (setRst asserted s)
  | .grant choice => if s.rst then .next s else engineGranted choice s

/-- One step. An idle block with no move pending waits (R165, R168). -/
def step (s : State) : Host.Outcome State Fault Refusal :=
  match s.moves with
  | m :: rest => serve m { s with moves := rest }
  | [] =>
    if s.rst then .next s
    else
      match s.eng with
      | .idle => .next s
      | .busy => engineAlone s

/-- The state in which the next step runs the instruction of the bits `w`, numbered as the opcode table
numbers them: its transaction is the next move, and RST is released so that it is served (log entry 3). -/
def State.withFetchWord (s : State) (nbits w : Nat) : State :=
  { s with
    rst := false
    moves := .reg { size := 4, low := 0, txn := tableBytes nbits w } :: s.moves }

end Sys2Proof.Machine
end

