-- ==== Sys2Proof/Machine/Assembly.lean ====
section
/-! DEFINITION. The host assembly (30_encoding.md R93 to R95): lines, pseudo-instructions and their
expansions, the transactions they encode as, and the listing form. A host program is what arrives at the
REG interface; the block itself executes no program (R23). -/

namespace Sys2Proof.Machine

/-- A line of the assembly (R93). -/
inductive AsmLine where
  /-- `wr REG, value`: the value is taken mod 2^32. -/
  | wr (reg : RegName) (value : Int)
  /-- `rd REG`. -/
  | rd (reg : RegName)
  /-- `poll REG, mask, value`: REG is read until its masked value is `value`. -/
  | poll (reg : RegName) (mask value : Word)
  deriving DecidableEq, Repr

/-- A pseudo-instruction (R94). The widths of `w` and `h` keep them in 0 to 65535. -/
inductive AsmPseudo where
  | setup (fb len bm : Int) (w h : BitVec 16) (xo yo ph : Int)
  | draw (irq fast byteclip : Bool)
  | nopCtrl (irq fast byteclip : Bool)
  | waitDone
  | ack
  deriving DecidableEq, Repr

/-- The data word of `draw` and `nop_ctrl`: each flag is 1 when named (R94). -/
def asmCtrlWord (cmd : BitVec 4) (irq fast byteclip : Bool) : Word :=
  0#25 ++ BitVec.ofBool byteclip ++ BitVec.ofBool fast ++ BitVec.ofBool irq ++ cmd

/-- The expansion of a pseudo-instruction, in order (R94). -/
def expandPseudo : AsmPseudo → List AsmLine
  | .setup fb len bm w h xo yo ph =>
    [.wr .fbBase fb, .wr .fbLen len, .wr .bmBase bm, .wr .bmSize (h ++ w).toNat,
     .wr .xOffset xo, .wr .yOffset yo, .wr .phase ph]
  | .draw irq fast byteclip => [.wr .ctrl (asmCtrlWord 0x1 irq fast byteclip).toNat]
  | .nopCtrl irq fast byteclip => [.wr .ctrl (asmCtrlWord 0x0 irq fast byteclip).toNat]
  | .waitDone => [.poll .status 0x2 0x2]
  | .ack => [.wr .status 0xE]

/-- The transactions of a line; a poll is its read, repeated `reads` times (R95). -/
def assembleLine (reads : Nat) : AsmLine → List Txn
  | .wr reg value => [writeTxn reg (BitVec.ofInt 32 value)]
  | .rd reg => [readTxn reg]
  | .poll reg _ _ => List.replicate reads (readTxn reg)

/-- A poll ends with the read whose data meets its condition (R93). -/
def pollEnds (mask value data : Word) : Bool := data &&& mask == value

/-- A transaction as a move: a 32-bit access at a multiple of 4 (R64). -/
def txnMove (t : Txn) : Move := .reg { size := 4, low := 0, txn := txnBytes t }

/-- The hexadecimal digits of a number, `count` of them. -/
def hexDigits : Nat → Nat → List Char
  | 0, _ => []
  | n + 1, v => hexDigits n (v / 16) ++ [Nat.digitChar (v % 16)]

/-- A line of the listing: `W <offset> <data>` or `R <offset>` (R95). -/
def listingLine (t : Txn) : List Char :=
  let offset := ['0', 'x'] ++ (hexDigits 2 ((t.extractLsb' 32 4).toNat * 4)).map Char.toUpper
  if t.getLsbD 36 then
    ['W', ' '] ++ offset ++ [' ', '0', 'x'] ++ (hexDigits 8 (t.extractLsb' 0 32).toNat).map Char.toUpper
  else ['R', ' '] ++ offset

end Sys2Proof.Machine
end

