-- ==== Sys2Proof/Safety.lean ====
section
/-! DEFINITION. The terms claims use: the invariant of the machine, the state of the block apart from its
surroundings, the host's duty, engine events inside the ranges of the command, and runs of engine grants. -/

namespace Sys2Proof.Machine

/-- The word at an offset is one that the command may write: a kept pixel lies in it, in a lane that is not
dropped. -/
abbrev writableWord (o : Operands) (off : Nat) : Prop :=
  ∃ p ∈ keptPixels o, pixelOffset o p = off ∧ pixelDropped o p = false

/-- Every pixel the engine has still to read passes both clips, every optional one is of a kept row and fails
the column clip, and every word held or written is one the command may write. -/
def workValid (o : Operands) (k : Work) : Prop :=
  (∀ p ∈ k.toRead, p ∈ keptPixels o) ∧ (∀ p ∈ k.mayRead, p ∈ clippedPixels o)
    ∧ (∀ h ∈ k.held, writableWord o h.off) ∧ (∀ off ∈ k.updated, writableWord o off)

/-- The state of the block alone: the fields R168 lists, the surroundings set to fixed values. Two states
with equal blocks differ only outside the block. -/
def State.block (s : State) : State :=
  { s with
    rst := false, regData := 0, mem := [], devices := [], moves := [], history := []
    raced := [], shown := [], atStart := [], draws := 0 }

/-- The invariant every step keeps: memory has its canonical form; ERR_CODE is 0 exactly while ERR is 0
(R34); DONE and ERR are 0 while busy (R104, R183); the engine's hidden state is empty while idle (R168) and
valid while busy, with operands that passed the start checks (R56, R111); a word that has been read or written
has a landed pixel (R131, R133), no unread pixel lands in a word already written (R71 (b)), and a race is late only
where the pixel's byte has been read; a block held in reset has every
register, flag and engine field at its reset value (R167, R168; log entry 10). -/
structure State.Inv (s : State) : Prop where
  mem_wf : s.mem.wf = true
  errCode_iff : s.errCode = .none ↔ s.err = false
  busy_flags : s.eng = .busy → s.done = false ∧ s.err = false
  idle_clear : s.eng = .idle → s.work = Work.empty ∧ s.raced = [] ∧ s.shown = [] ∧ s.atStart = []
  busy_checked : s.eng = .busy → startError (operands s) = none
  busy_work : s.eng = .busy → workValid (operands s) s.work
  busy_touched : s.eng = .busy → ∀ off ∈ s.work.held.map HeldWord.off ++ s.work.updated,
    ∃ p ∈ landed s, pixelOffset (operands s) p = off ∧ pixelDropped (operands s) p = false
  busy_held : s.eng = .busy → ∀ h ∈ s.work.held, h.off ∉ s.work.updated
  busy_order : s.eng = .busy → ∀ p ∈ s.work.toRead, pixelOffset (operands s) p ∈ s.work.updated → p ∉ landed s
  busy_late : s.eng = .busy → ∀ p ∈ s.work.toRead, ∀ r ∈ s.raced, r.addr = bitmapAddr (operands s) p → r.late = false
  rst_block : s.rst = true → s.block = State.reset.block

/-- What a read of the word, or of its one byte in range, gave at acceptance. -/
def heldAtStart (s : State) (off : Nat) : Option PixelWord :=
  match wordFate (operands s) off with
  | .whole => s.atStart.readWord ((operands s).fbBase + off)
  | _ => (s.atStart.read ((operands s).fbBase + off)).map (fun b => b.setWidth 16)

/-- The running command is on its way to the contract of R145: each word the engine has written holds what the
command gives it, each other word that no other agent has written what it held at acceptance, and its holding
register that too; every other byte that no other agent has written is as at acceptance; and every byte a host read has shown as the value after the
command is that value (R75 (c)). -/
structure State.Faithful (s : State) : Prop where
  held_value : s.eng = .busy → ∀ h ∈ s.work.held, racedWord s h.off = none →
    heldAtStart s h.off = some h.value
  updated_value : s.eng = .busy → ∀ off ∈ s.work.updated, ∀ a ∈ wordAddrs (operands s) off,
    (s.mem.read a).isSome = true ∧ s.mem.read a = commandByte s a
  pending_value : s.eng = .busy → ∀ off, off % 2 = 0 → off ∉ s.work.updated → racedWord s off = none →
    ∀ a ∈ wordAddrs (operands s) off, s.mem.read a = s.atStart.read a
  other_bytes : s.eng = .busy → ∀ a, raceAt s a = none →
    (∀ off, off % 2 = 0 → a ∉ wordAddrs (operands s) off) → s.mem.read a = s.atStart.read a
  shown_value : s.eng = .busy → ∀ c ∈ s.shown, finalByte s c.1 = some c.2

/-- The host's duty has been kept while the command ran: no other agent has written a byte of the frame range
or of the bitmap range (R74). -/
def State.dutyKept (s : State) : Prop :=
  ∀ a, ((frameRange (operands s)).covers a = true ∨ (bitmapRange (operands s)).covers a = true) →
    raceAt s a = none

/-- A move that keeps the host's duty (R74) and leaves RST released. Every REG access and every host read
does. -/
def keepsDuty (o : Operands) : Move → Bool
  | .memWrite a _ => !(frameRange o).covers a.toNat && !(bitmapRange o).covers a.toNat
  | .rst asserted => !asserted
  | .reg _ | .bus _ | .memRead _ | .grant _ => true

/-- A move that does not assert RST. -/
def noReset (_ : Operands) : Move → Bool
  | .rst asserted => !asserted
  | .memWrite _ _ | .reg _ | .bus _ | .memRead _ | .grant _ => true

/-- Steps taken one after the other while the engine is busy, each with a move that `ok` admits or, with no
move pending, by the engine alone. The last state may be the one that completion leaves. -/
inductive BusyRun (ok : Operands → Move → Bool) (s : State) : State → Prop where
  | start : BusyRun ok s s
  | next {t u : State} : BusyRun ok s t → t.eng = .busy →
      (∀ m, t.moves.head? = some m → ok (operands t) m = true) → step t = .next u → BusyRun ok s u

/-- A run of a command during which the host's duty is kept (R74). -/
abbrev CommandRun : State → State → Prop := BusyRun keepsDuty

/-- A run of a command with any accesses of other agents, RST apart. -/
abbrev RacyRun : State → State → Prop := BusyRun noReset

/-- A move that keeps the host's duty and that the machine serves: a REG access it does not refuse, a host
read of a byte that `m` backs. -/
def servable (o : Operands) (m : Memory) : Move → Bool
  | .reg a => (fetchReg a).toOption.isSome
  | .bus b => (busToReg b).all (fun a => (fetchReg a).toOption.isSome)
  | .memRead a => (m.read a.toNat).isSome
  | .memWrite a v => keepsDuty o (.memWrite a v)
  | .rst asserted => !asserted
  | .grant _ => true

/-- How many of the moves are grants to the engine. -/
def grantCount (moves : List Move) : Nat :=
  moves.countP (fun m => match m with | .grant _ => true | _ => false)

/-- An engine access of R60: a 1-byte read inside the bitmap range, a 2-byte frame access at an even
address inside the frame range, or a 1-byte access to the frame's last byte under the byte-clip policy. -/
def engineEventLegal (o : Operands) (e : MemEvent) : Prop :=
  (e.kind = .read ∧ e.size = 1 ∧ (bitmapRange o).covers e.addr = true)
    ∨ (e.size = 2 ∧ e.addr % 2 = 0 ∧ o.fbBase ≤ e.addr ∧ e.addr + 1 < o.fbBase + o.fbLen)
    ∨ (e.size = 1 ∧ o.byteClip = true ∧ o.fbBase ≤ e.addr ∧ e.addr + 1 = o.fbBase + o.fbLen)

/-- How many engine moves can still be made before the command is complete (R180). -/
def engineBudget (s : State) : Nat :=
  1 + s.work.toRead.length + s.work.mayRead.length
    + ((pendingWords s).map (fun off => if (heldValue off s.work.held).isNone then 2 else 1)).sum

/-- The state with engine grants of these choices as the moves to come. -/
def State.withGrants (s : State) (choices : List Nat) : State :=
  { s with moves := choices.map .grant }

/-- The instruction the next step serves: that of a REG access, or of a bus access in the window, which
arrives while RST is released. -/
def servedInstr (s : State) : Option Instr :=
  match s.moves with
  | .reg a :: _ => if s.rst then none else (fetchReg a).toOption
  | .bus b :: _ => if s.rst then none else (busToReg b).bind (fun a => (fetchReg a).toOption)
  | _ => none

/-- A write that a busy engine ignores: to CTRL or to an operand register (R97). -/
def isGuardedWrite : Instr → Bool
  | .nop _ | .drawChar _ | .reservedCmd23 _ _ | .reservedCmd47 _ _ | .reservedCmd8F _ _
  | .wrFbBase _ | .wrFbLen _ | .wrBmBase _ | .wrBmSize _ _ | .wrXOffset _ | .wrYOffset _ | .wrPhase _ _ => true
  | .wrStatus _ | .wrRo9 _ | .wrRoAB _ _ | .wrRoCF _ _ | .rd _ => false

/-- The engine is the agent that moves next: a granted move, or no move pending. -/
def engineMovesNext (s : State) : Prop := s.moves = [] ∨ ∃ k rest, s.moves = .grant k :: rest

/-- How many engine accesses of a kind at an address a history holds. -/
def accessCount (kind : AccessKind) (a : Nat) (history : List MemEvent) : Nat :=
  history.countP (fun e => e.agent == .engine && e.kind == kind && e.addr == a)

/-- How many bitmap reads of the engine a history holds. -/
def bitmapReadCount (o : Operands) (history : List MemEvent) : Nat :=
  history.countP (fun e => e.agent == .engine && e.kind == .read && e.size == 1 && (bitmapRange o).covers e.addr)

/-- How many frame accesses of the engine a history holds. -/
def frameAccessCount (o : Operands) (history : List MemEvent) : Nat :=
  history.countP (fun e => e.agent == .engine && (frameRange o).covers e.addr)

/-- The history holds a write by another agent at the address. -/
def hostWrote (a : Nat) (history : List MemEvent) : Bool :=
  history.any (fun e => e.agent == .host && e.kind == .write && e.addr == a)

/-- Where an engine action needs a byte that the platform does not back: the address at which the engine then
has no step (R57). -/
def stuckAt (s : State) : Action → Option Nat
  | .readPixel p | .readClipped p =>
    let a := bitmapAddr (operands s) p
    if (bitmapByte s a).isNone then some a else none
  | .readFrame off =>
    let a := (operands s).fbBase + off
    if (wordAddrs (operands s) off).any (fun b => (s.mem.read b).isNone) then some a else none
  | .writeFrame _ | .complete => none

/-- The word at a frame offset after the command, `m` being memory at acceptance (R145). -/
def drawnWord (o : Operands) (m : Memory) (off : Nat) : Option PixelWord :=
  match drawByte o m (o.fbBase + off), drawByte o m (o.fbBase + off + 1) with
  | some b0, some b1 => some (assembleWord Config.wordByteOrder b0 b1)
  | _, _ => none

/-- Every byte of the bitmap range and of the frame range is backed (R172). -/
def rangesBacked (o : Operands) (m : Memory) : Prop :=
  ∀ a, ((bitmapRange o).covers a = true ∨ (frameRange o).covers a = true) → (m.read a).isSome = true

/-- The lanes that a command writes in the word at an offset, `m` being memory at acceptance (R131). -/
def touchedLanes (o : Operands) (m : Memory) (off : Nat) : List (Fin 8) := wordLanes o (landedPixels o m) off

/-- Every byte a command reads is backed: the bitmap range, and the bytes of the words it writes when the
bitmap is read from `m`. -/
def commandBacked (o : Operands) (m : Memory) : Prop :=
  (∀ a, (bitmapRange o).covers a = true → (m.read a).isSome = true) ∧
  ∀ off, touchedLanes o m off ≠ [] →
    ∀ a ∈ wordAddrs o off, (m.read a).isSome = true

/-- The state but for CTRL.FAST. -/
def State.noFast (s : State) : State := { s with fast := false }

/-- An outcome with its next state mapped; a fault or refusal is kept. -/
def mapNext (g : State → State) (r : Host.Outcome State Fault Refusal) : Host.Outcome State Fault Refusal :=
  match r with
  | .next t => .next (g t)
  | .fault f => .fault f
  | .refused f => .refused f

end Sys2Proof.Machine
end

