-- ==== Sys2Proof/Certificates/Slice0/Obligations.lean ====
section
/-! DEFINITION. The statements for the provers. Each docstring names the rule of spec/ the statement
formalises, and says where a clause is the model's own choice. -/

open Sys2Proof Sys2Proof.Machine

/-! ## Transactions: encoding, decoding, serving -/

/-- R67, R80: a 32-bit REG access at a multiple of 4 that arrives while RST is released runs exactly the
well-formed instruction its bytes decode to, on the state with that move taken off. The same of the state
`withFetchWord` builds (the list of moves is the model's: log entry 3). -/
def Obligations.StepRunsDecodedTransaction : Prop :=
  (∀ (s : State) (a : RegAccess) (rest : List Move) (i : Instr),
    s.rst = false → s.moves = .reg a :: rest → a.size = 4 → a.low = 0 → decode a.txn = .ok i →
      i.wellFormed = true ∧ step s = exec i { s with moves := rest }) ∧
  (∀ (s : State) (nbits w : Nat) (i : Instr),
    decodeTableWord nbits w = some i → step (s.withFetchWord nbits w) = exec i { s with rst := false })

/-- R80, R82, R95: transactions written out from the spec's encodings decode to the instructions they
stand for. -/
def Obligations.SpecTransactionsDecode : Prop :=
  decodeTxn 0x1000000011 = .drawChar { reserved := 0, byteClip := false, fast := false, irqEn := true } ∧
  decodeTxn 0x1000000040 = .nop { reserved := 0, byteClip := true, fast := false, irqEn := false } ∧
  decodeTxn 0x1000000003 =
    .reservedCmd23 { reserved := 0, byteClip := false, fast := false, irqEn := false } 0x3 ∧
  decodeTxn 0x110000000E =
    .wrStatus { ignoredHigh := 0, clrWign := true, clrErr := true, clrDone := true, ignoredBit0 := false } ∧
  decodeTxn 0x1210000000 = .wrFbBase 0x10000000 ∧
  decodeTxn 0x1500010004 = .wrBmSize 1 4 ∧
  decodeTxn 0x1800000007 = .wrPhase 1 3 ∧
  decodeTxn 0x0900000000 = .rd .dropCount

/-- Decoding gives back every well-formed instruction from its encoding, with every operand at every value
the encoding admits. -/
def Obligations.DecodeEncodeRoundTrip : Prop :=
  ∀ i : Instr, i.wellFormed = true → decode (encode i) = .ok i

/-- Every 37-bit value is a transaction: it decodes to a well-formed instruction, and a write transaction is
the encoding of what it decodes to, bit for bit. A read keeps its slot; its data bits are not decoded. -/
def Obligations.EveryTransactionDecodes : Prop :=
  ∀ t : Txn, decode (txnBytes t) = .ok (decodeTxn t) ∧ (decodeTxn t).wellFormed = true ∧
    (t.getLsbD 36 = true → encodeTxn (decodeTxn t) = t) ∧
    (t.getLsbD 36 = false → encodeTxn (decodeTxn t) = readTxn (regNameOf (t.extractLsb' 32 4)))

/-- R64: an access of another size, or at an offset that is no multiple of 4, is refused, whether it is given
as it reaches the block or as a bus access inside the 64-byte window. -/
def Obligations.UnsupportedRegAccessRefused : Prop :=
  (∀ (s : State) (a : RegAccess) (rest : List Move),
    s.rst = false → s.moves = .reg a :: rest → ¬ (a.size = 4 ∧ a.low = 0) →
      step s = .refused .regAccessUnsupported) ∧
  ∀ (s : State) (b : BusAccess) (rest : List Move),
    s.rst = false → s.moves = .bus b :: rest → (b.addr &&& ~~~(0x3F#32)) = Config.blitBase →
      ¬ (b.size = 4 ∧ b.addr.extractLsb' 0 2 = 0) → step s = .refused .regAccessUnsupported

/-- R44, R66: a bus access inside the 64-byte window at BLIT_BASE reaches the block as the transaction of its
kind, index offset[5:2] and data; an access that begins and ends outside the window does not reach the block,
and changes nothing of the machine (what it does elsewhere is the platform's: the model's choice, log entry
23). One that begins below the window and runs into it, which the rules do not speak of, is refused (the
model's choice: log entry 22). -/
def Obligations.BusWindowSelectsTheBlock : Prop :=
  ∀ (s : State) (b : BusAccess) (rest : List Move), s.rst = false → s.moves = .bus b :: rest →
    ((b.addr &&& ~~~(0x3F#32)) = Config.blitBase → b.size = 4 → b.addr.extractLsb' 0 2 = 0 →
      step s = exec (decodeTxn (BitVec.ofBool b.write ++ b.addr.extractLsb' 2 4 ++ b.data))
        { s with moves := rest }) ∧
    ((b.addr.toNat < Config.blitBase.toNat ∧ b.addr.toNat + b.size ≤ Config.blitBase.toNat
        ∨ Config.blitBase.toNat + 64 ≤ b.addr.toNat) →
      step s = .next { s with moves := rest }) ∧
    (b.addr.toNat < Config.blitBase.toNat → Config.blitBase.toNat < b.addr.toNat + b.size →
      step s = .refused .regAccessUnsupported)

/-- R94: the expansions of the pseudo-instructions assemble to the transactions of the instructions they
stand for. -/
def Obligations.AssemblyEncodesItsTransactions : Prop :=
  (∀ irq fast bc : Bool,
    ((expandPseudo (.draw irq fast bc)).flatMap (assembleLine 1)).map decodeTxn
      = [.drawChar { reserved := 0, byteClip := bc, fast := fast, irqEn := irq }] ∧
    ((expandPseudo (.nopCtrl irq fast bc)).flatMap (assembleLine 1)).map decodeTxn
      = [.nop { reserved := 0, byteClip := bc, fast := fast, irqEn := irq }]) ∧
  ((expandPseudo .ack).flatMap (assembleLine 1)).map decodeTxn
    = [.wrStatus { ignoredHigh := 0, clrWign := true, clrErr := true, clrDone := true, ignoredBit0 := false }] ∧
  (∀ n, ((expandPseudo .waitDone).flatMap (assembleLine n)).map decodeTxn = List.replicate n (.rd .status)) ∧
  (∀ (fb len bm xo yo ph : Int) (w h : BitVec 16),
    ((expandPseudo (.setup fb len bm w h xo yo ph)).flatMap (assembleLine 1)).map decodeTxn
      = [.wrFbBase (BitVec.ofInt 32 fb), .wrFbLen (BitVec.ofInt 32 len), .wrBmBase (BitVec.ofInt 32 bm),
         .wrBmSize h w, .wrXOffset (BitVec.ofInt 32 xo), .wrYOffset (BitVec.ofInt 32 yo),
         .wrPhase ((BitVec.ofInt 32 ph).extractLsb' 2 30) ((BitVec.ofInt 32 ph).extractLsb' 0 2)])

/-! ## Reset -/

/-- R168: what every register reads after reset, the engine idle with no work, the IRQ line low. -/
def Obligations.ResetState : Prop :=
  (∀ r : RegName, r ∉ [RegName.geomSize, .geomMargin, .geomStride, .geomPack] →
    regRead r State.reset = 0) ∧
  State.reset.irqEn = false ∧ State.reset.fast = false ∧ State.reset.byteClip = false ∧
  State.reset.busy = false ∧ State.reset.done = false ∧ State.reset.err = false ∧
  State.reset.wign = false ∧ State.reset.errCode = .none ∧
  regRead .geomSize State.reset = 0x0750057C ∧ regRead .geomMargin State.reset = 0x00080008 ∧
  regRead .geomStride State.reset = 0x00000580 ∧
  regRead .geomPack State.reset = (if Config.hasFastPath then 0x05020208 else 0x01020208) ∧
  State.reset.eng = .idle ∧ State.reset.work = Work.empty ∧ pendingWords State.reset = [] ∧
  State.reset.irq = false

/-- The reset state meets the invariant (with the model's own fields at the values log entries 3 to 11
choose). -/
def Obligations.ResetMeetsInvariant : Prop := State.reset.Inv

/-- R167, R168, R169, R170: asserting RST puts every register, flag and engine field of the block at its reset
value from any state; memory is unchanged when the engine was idle, and the bitmap range is unchanged when a
command is abandoned. That the reset values stand from the assertion on, not only from the release, is the
model's choice (log entry 10); so is that the history is kept (log entry 17) and that it grows by the accesses
the engine makes before it stops (log entry 9). -/
def Obligations.ResetAnyState : Prop :=
  ∀ (s : State) (rest : List Move), s.Inv → s.moves = .rst true :: rest →
    ∃ t new, step s = .next t ∧ t.block = State.reset.block ∧ t.irq = false ∧ t.rst = true ∧
      t.moves = rest ∧ t.history = new ++ s.history ∧ (∀ e ∈ new, e.agent = .engine) ∧
      (s.eng = .idle → new = [] ∧ t.mem = s.mem) ∧
      (∀ a, (bitmapRange (operands s)).covers a = true → t.mem.read a = s.mem.read a)

/-- R169: after a reset during a command whose duty was kept, each word the command would have written holds
its value at acceptance or the value the command would have given it, every other byte of memory is
unchanged, and DROP_COUNT is 0. That this holds in the step that asserts RST is the model's choice (log
entry 10), and so is how the draw is made: the engine makes a free number of moves before it stops (log
entry 9). -/
def Obligations.ResetDuringCommand : Prop :=
  ∀ (s : State) (rest : List Move), s.Inv → s.Faithful → s.eng = .busy → s.dutyKept →
    s.moves = .rst true :: rest →
    ∃ t, step s = .next t ∧ t.dropCount = 0 ∧
      (∀ off, off % 2 = 0 → touchedLanes (operands s) s.atStart off ≠ [] →
        (∀ a ∈ wordAddrs (operands s) off, t.mem.read a = s.atStart.read a) ∨
        (∀ a ∈ wordAddrs (operands s) off, t.mem.read a = drawByte (operands s) s.atStart a)) ∧
      (∀ a, (∀ off, off % 2 = 0 → touchedLanes (operands s) s.atStart off ≠ [] →
          a ∉ wordAddrs (operands s) off) →
        t.mem.read a = s.mem.read a)

/-- R167, R168: when RST is released the state of the block is that of reset, whatever was served or moved
while it was asserted; a release when RST is not asserted changes nothing. That the release itself changes
nothing but the level of RST, the block having taken its reset values at the assertion (the invariant says so),
is the model's choice: log entry 10. -/
def Obligations.ReleaseLeavesResetState : Prop :=
  ∀ (s : State) (rest : List Move), s.moves = .rst false :: rest →
    step s = .next { s with rst := false, moves := rest } ∧
    (s.Inv → s.rst = true → ∀ t, step s = .next t →
      t.block = State.reset.block ∧ t.irq = false ∧ t.mem = s.mem ∧
        ∀ r : RegName, regRead r t = regRead r State.reset)

/-- R167: while RST is asserted no REG access is served and the engine makes no MEM access: each such move
leaves the state as it was. That the access is lost and not kept waiting is the model's choice (log
entry 10). -/
def Obligations.HeldResetServesNothing : Prop :=
  ∀ (s : State) (m : Move) (rest : List Move), s.rst = true → s.moves = m :: rest →
    ((∃ a, m = .reg a) ∨ (∃ b, m = .bus b) ∨ (∃ k, m = .grant k)) →
      step s = .next { s with moves := rest }

/-! ## Register transactions -/

/-- R96: a write to FB_BASE, FB_LEN, BM_BASE, BM_SIZE, X_OFFSET or Y_OFFSET while idle stores its 32 bits,
a write to PHASE its low two, and nothing else changes. -/
def Obligations.OperandWritesStore : Prop :=
  ∀ (s : State) (v : Word), s.eng = .idle →
    exec (.wrFbBase v) s = .next { s with fbBase := v } ∧
    exec (.wrFbLen v) s = .next { s with fbLen := v } ∧
    exec (.wrBmBase v) s = .next { s with bmBase := v } ∧
    exec (.wrBmSize (v.extractLsb' 16 16) (v.extractLsb' 0 16)) s = .next { s with bmSize := v } ∧
    exec (.wrXOffset v) s = .next { s with xOffset := v } ∧
    exec (.wrYOffset v) s = .next { s with yOffset := v } ∧
    exec (.wrPhase (v.extractLsb' 2 30) (v.extractLsb' 0 2)) s =
      .next { s with phase := v.extractLsb' 0 2 }

/-- R97: a write to CTRL or to an operand register while busy changes no register, starts nothing and sets
WIGN; a STATUS write is served while busy. -/
def Obligations.BusyWritesIgnored : Prop :=
  ∀ (s : State), s.eng = .busy →
    (∀ i : Instr, isGuardedWrite i = true → exec i s = .next { s with wign := true }) ∧
    (∀ f : StatusFields, ∃ t, exec (.wrStatus f) s = .next t ∧ t.wign = (s.wign && !f.clrWign) ∧ t.eng = .busy)

/-- R100: NOP while idle stores IRQ_EN, FAST and BYTE_CLIP and nothing else; while busy it is ignored and
sets WIGN; the IRQ line follows the new IRQ_EN. -/
def Obligations.NopStoresFields : Prop :=
  ∀ (f : CtrlFields) (s : State),
    (s.eng = .idle →
      exec (.nop f) s = .next { s with irqEn := f.irqEn, fast := f.fast, byteClip := f.byteClip }) ∧
    (s.eng = .idle → ∀ t, exec (.nop f) s = .next t → t.irq = (s.done && f.irqEn)) ∧
    (s.eng = .busy → exec (.nop f) s = .next { s with wign := true })

/-- R102, R149: a reserved command while idle stores the fields of its write, clears the record of the
previous command, and ends with DONE = 1, ERR = 1 and ERR_CODE = ILLEGAL_CMD; ENG_STATE stays IDLE and
nothing else changes. -/
def Obligations.ReservedCommandsRejected : Prop :=
  ∀ (f : CtrlFields) (cmd : BitVec 4) (s : State) (i : Instr), s.eng = .idle →
    (i = .reservedCmd23 f cmd ∨ i = .reservedCmd47 f cmd ∨ i = .reservedCmd8F f cmd) →
      exec i s = .next
        { s with
          irqEn := f.irqEn, fast := f.fast, byteClip := f.byteClip, dropCount := 0
          done := true, err := true, errCode := .illegalCmd } ∧
      (s.wign = false → ∀ t, exec i s = .next t → regRead .status t = 0x00000016)

/-- R104: a STATUS write clears DONE, ERR with ERR_CODE, and WIGN, each where its bit is 1, in both engine
states, and nothing else; while busy it can only clear WIGN, since DONE and ERR are 0 (the invariant is
the premise that says so). -/
def Obligations.StatusWriteAcknowledges : Prop :=
  ∀ (f : StatusFields) (s : State),
    exec (.wrStatus f) s = .next
      { s with
        done := if f.clrDone then false else s.done
        err := if f.clrErr then false else s.err
        errCode := if f.clrErr then .none else s.errCode
        wign := if f.clrWign then false else s.wign } ∧
    (s.Inv → s.eng = .busy →
      exec (.wrStatus f) s = .next { s with wign := if f.clrWign then false else s.wign })

/-- R105: a write to a read-only or reserved slot is ignored in both engine states and sets no flag. -/
def Obligations.ReadOnlyWritesIgnored : Prop :=
  ∀ (s : State) (v : Word),
    exec (.wrRo9 v) s = .next s ∧ (∀ r, exec (.wrRoAB r v) s = .next s) ∧
    (∀ r, exec (.wrRoCF r v) s = .next s)

/-- R98: what a read of each slot returns, in both engine states; the read changes nothing but the data
returned to the host. DROP_COUNT while busy returns an unspecified value (R183): the free value, which
nothing is known of, and then the draw counter of the model advances too (log entries 5 and 7). -/
def Obligations.ReadsReturnTheirSlot : Prop :=
  (∀ s : State, s.eng = .busy →
    exec (.rd .dropCount) s =
      .next { s with regData := Config.dropCountWhileBusy s.draws, draws := s.draws + 1 }) ∧
  ∀ (s : State) (r : RegName), ¬ (r = .dropCount ∧ s.eng = .busy) →
    exec (.rd r) s = .next
      { s with
        regData :=
          match r with
          | .ctrl => BitVec.ofNat 32
              (64 * s.byteClip.toNat + 32 * s.fast.toNat + 16 * s.irqEn.toNat)
          | .status => BitVec.ofNat 32
              (16 * (errCodeBits s.errCode).toNat + 8 * s.wign.toNat + 4 * s.err.toNat + 2 * s.done.toNat
                + (if s.eng = .busy then 1 else 0))
          | .fbBase => s.fbBase
          | .fbLen => s.fbLen
          | .bmBase => s.bmBase
          | .bmSize => s.bmSize
          | .xOffset => s.xOffset
          | .yOffset => s.yOffset
          | .phase => BitVec.ofNat 32 s.phase.toNat
          | .dropCount => s.dropCount
          | .geomSize => 0x0750057C
          | .geomMargin => 0x00080008
          | .geomStride => 0x00000580
          | .geomPack => if Config.hasFastPath then 0x05020208 else 0x01020208
          | .rsvd38 => 0
          | .rsvd3C => 0 }

/-! ## DRAW_CHAR: the CTRL write -/

/-- R150 to R155: the start checks in their order, each on the register values, the first that fails
recorded with DONE = 1 and ERR = 1; no MEM access, ENG_STATE stays IDLE, and no operand register changes. -/
def Obligations.DrawCharRejections : Prop :=
  ∀ (f : CtrlFields) (s : State), s.eng = .idle →
    let fb := s.fbBase.toNat
    let len := s.fbLen.toNat
    let bm := s.bmBase.toNat
    let size := (s.bmSize.extractLsb' 0 16).toNat * (s.bmSize.extractLsb' 16 16).toNat
    let overlap := 0 < size ∧ 0 < len ∧ fb < bm + size ∧ bm < fb + len
    let rejected (c : ErrCode) : State :=
      { s with
        irqEn := f.irqEn, fast := f.fast, byteClip := f.byteClip, dropCount := 0
        done := true, err := true, errCode := c }
    (fb % 2 = 1 → exec (.drawChar f) s = .next (rejected .fbMisaligned)) ∧
    (fb % 2 = 0 → fb + len > 2 ^ 32 → exec (.drawChar f) s = .next (rejected .fbRange)) ∧
    (fb % 2 = 0 → fb + len ≤ 2 ^ 32 → bm + size > 2 ^ 32 →
      exec (.drawChar f) s = .next (rejected .bmRange)) ∧
    (fb % 2 = 0 → fb + len ≤ 2 ^ 32 → bm + size ≤ 2 ^ 32 → overlap →
      exec (.drawChar f) s = .next (rejected .overlap))

/-- R111: a DRAW_CHAR whose operands pass the four checks (and whose ranges touch no memory with side
effects, R63) is accepted: the fields of the write are stored, DONE, ERR, ERR_CODE and DROP_COUNT are
cleared, BUSY reads 1, the engine stands at the start of the work of its operands, and memory and the operand registers are as
they were. -/
def Obligations.DrawCharAccepted : Prop :=
  ∀ (f : CtrlFields) (s : State), s.eng = .idle →
    let fb := s.fbBase.toNat
    let len := s.fbLen.toNat
    let bm := s.bmBase.toNat
    let size := (s.bmSize.extractLsb' 0 16).toNat * (s.bmSize.extractLsb' 16 16).toNat
    let overlap := 0 < size ∧ 0 < len ∧ fb < bm + size ∧ bm < fb + len
    fb % 2 = 0 → fb + len ≤ 2 ^ 32 → bm + size ≤ 2 ^ 32 → ¬ overlap →
    onDevice s.devices (operands s) = false →
    let started : State := { s with irqEn := f.irqEn, fast := f.fast, byteClip := f.byteClip }
    exec (.drawChar f) s = .next
      { started with
        done := false, err := false, errCode := .none, dropCount := 0, eng := .busy
        work := startWork (operands started)
        raced := [], shown := [], atStart := s.mem } ∧
    (∀ t, exec (.drawChar f) s = .next t → (regRead .status t).getLsbD 0 = true)

/-- R63: a launch that would be accepted with its bitmap or frame range on memory with side effects is
refused. -/
def Obligations.LaunchOnDeviceRefused : Prop :=
  ∀ (f : CtrlFields) (s : State) (d : Region), s.eng = .idle → startError (operands s) = none →
    d ∈ s.devices →
    ((frameRange (operands s)).overlaps d = true ∨ (bitmapRange (operands s)).overlaps d = true) →
      exec (.drawChar f) s = .refused .rangeOnDevice

/-- R58, R65, R154: no REG transaction makes a MEM access: when exec gives a next state, every byte of
memory reads as before and the access history is as before, for every instruction. -/
def Obligations.TransactionsLeaveMemory : Prop :=
  ∀ (i : Instr) (s t : State), exec i s = .next t →
    (∀ a, t.mem.read a = s.mem.read a) ∧ t.mem = s.mem ∧ t.history = s.history ∧ t.moves = s.moves ∧
      t.rst = s.rst ∧ t.devices = s.devices

/-- R41: a GEOM register reads its constant in every state, before any write to it and after every one, and such a
write is ignored and sets no WIGN. -/
def Obligations.GeomRegistersAreHardwired : Prop :=
  ∀ (s : State) (v : Word),
    let reads (r : RegName) (c : Word) (t : State) : Prop :=
      ∃ u, exec (decodeTxn (readTxn r)) t = .next u ∧ u.regData = c ∧ u = { t with regData := c }
    let constant (r : RegName) (c : Word) : Prop :=
      reads r c s ∧
      ∃ t, exec (decodeTxn (writeTxn r v)) s = .next t ∧ t = s ∧ t.wign = s.wign ∧ reads r c t
    constant .geomSize (BitVec.ofNat 32 (1872 * 65536 + 1404)) ∧
    constant .geomMargin (BitVec.ofNat 32 (8 * 65536 + 8)) ∧
    constant .geomStride (BitVec.ofNat 32 1408) ∧
    constant .geomPack
      (BitVec.ofNat 32 (8 + 2 * 2 ^ 8 + 2 * 2 ^ 16 + 1 * 2 ^ 24 + 0 * 2 ^ 25 + Config.hasFastPath.toNat * 2 ^ 26))

/-! ## Flags and engine state over every step -/

/-- The invariant is kept by every step, from every state that meets it. Three of its clauses rest on the model's
choices: that a block held in reset is at its reset values from the assertion of RST on is log entry 10; how the
model keeps what other agents have written, and the memory at acceptance, is log entry 8; and that the words
read or written keep their landed pixels, and no unread pixel comes to land in a word already written, whatever
other agents write, is log entry 24. -/
def Obligations.StepKeepsInvariant : Prop :=
  ∀ s t : State, s.Inv → step s = .next t → t.Inv

/-- R71, R131, R145: every step keeps the running command on its way to the contract: engine moves in any
order, REG accesses, and accesses of other agents, races included (what a race leaves of a word, and which free values
agree with what has already happened, is R75 and log entries 8, 21 and 24). -/
def Obligations.StepKeepsContract : Prop :=
  ∀ s t : State, s.Inv → s.Faithful → step s = .next t → t.Faithful

/-- R46, R111, R145: an accepted command starts on its way to the contract: no byte is raced, and its landed
pixels are fixed by the operands and the bitmap bytes in memory at acceptance. -/
def Obligations.AcceptanceStartsContract : Prop :=
  ∀ (f : CtrlFields) (s t : State), s.eng = .idle → exec (.drawChar f) s = .next t → t.eng = .busy →
    t.Faithful ∧ t.dutyKept ∧ landed t = landedPixels (operands t) s.mem ∧
      (s.Inv → s.rst = false → t.Inv) ∧
      ∀ off, off ∈ pendingWords t ↔ touchedLanes (operands t) s.mem off ≠ []

/-- R45: STATUS.BUSY reads 1 exactly while ENG_STATE is BUSY; the engine leaves IDLE only by a DRAW_CHAR
transaction that is served, and returns to IDLE only by completion of all its work or by reset. -/
def Obligations.EngineStateChangesOnlyBySpec : Prop :=
  (∀ s : State, (regRead .status s).getLsbD 0 = true ↔ s.eng = .busy) ∧
  (∀ s t : State, step s = .next t → s.eng = .idle → t.eng = .busy →
    ∃ f, servedInstr s = some (.drawChar f)) ∧
  (∀ s t : State, step s = .next t → s.eng = .busy → t.eng = .idle →
    (engineMovesNext s ∧ s.work.toRead = [] ∧ pendingWords s = [] ∧ t.done = true)
      ∨ ∃ rest, s.moves = .rst true :: rest)

/-- R33: WIGN is set only by a write to CTRL or an operand register served while busy, and cleared only by a
STATUS write with bit [3] = 1 or by reset. -/
def Obligations.WignSetAndClearedOnlyBySpec : Prop :=
  (∀ s t : State, step s = .next t → s.wign = true → t.wign = false →
    (∃ f, servedInstr s = some (.wrStatus f) ∧ f.clrWign = true) ∨ ∃ rest, s.moves = .rst true :: rest) ∧
  (∀ s t : State, step s = .next t → s.wign = false → t.wign = true →
    s.eng = .busy ∧ ∃ i, servedInstr s = some i ∧ isGuardedWrite i = true)

/-- R147, R156: ERR rises only in the step that serves the CTRL write of a command, while the engine is idle,
and that step makes no MEM access; an engine move never sets ERR. -/
def Obligations.ErrorsOnlyByCommandWrites : Prop :=
  ∀ s t : State, step s = .next t → s.err = false → t.err = true →
    s.eng = .idle ∧ t.eng = .idle ∧ t.mem = s.mem ∧ t.history = s.history ∧ t.done = true ∧
      ∃ f, servedInstr s = some (.drawChar f)
        ∨ ∃ c, servedInstr s = some (.reservedCmd23 f c) ∨ servedInstr s = some (.reservedCmd47 f c)
          ∨ servedInstr s = some (.reservedCmd8F f c)

/-- R56: while ENG_STATE = BUSY no step but the assertion of RST changes the operand registers or CTRL, so the
command's operands are those it was accepted with. -/
def Obligations.OperandsFrozenWhileBusy : Prop :=
  ∀ s t : State, step s = .next t → s.eng = .busy → (∀ rest, s.moves ≠ .rst true :: rest) →
    t.fbBase = s.fbBase ∧ t.fbLen = s.fbLen ∧ t.bmBase = s.bmBase ∧ t.bmSize = s.bmSize ∧
    t.xOffset = s.xOffset ∧ t.yOffset = s.yOffset ∧ t.phase = s.phase ∧
    t.irqEn = s.irqEn ∧ t.fast = s.fast ∧ t.byteClip = s.byteClip ∧ operands t = operands s

/-- R165: while idle, an engine move does nothing: the block makes no MEM access and every register keeps its
value; with no move pending the machine waits. -/
def Obligations.IdleBlockWaits : Prop :=
  (∀ s : State, s.eng = .idle → s.moves = [] → step s = .next s) ∧
  (∀ (s : State) (k : Nat) (rest : List Move), s.eng = .idle → s.moves = .grant k :: rest →
    step s = .next { s with moves := rest })

/-- R158, R159: the IRQ line is DONE and IRQ_EN at every moment: a completion, a rejected DRAW_CHAR and a
reserved command raise it when IRQ_EN = 1, a NOP that sets IRQ_EN while DONE = 1 raises it at once, and a
STATUS write with bit [1] = 1, a NOP that clears IRQ_EN, the start of the next command, or reset lowers it (by
the assertion of RST: log entry 10). -/
def Obligations.IrqFollowsDoneAndEnable : Prop :=
  (∀ s : State, s.irq = true ↔ s.done = true ∧ s.irqEn = true) ∧
  (∀ (f : CtrlFields) (s t : State), s.eng = .idle → s.done = true → exec (.nop f) s = .next t →
    t.irq = f.irqEn) ∧
  (∀ (f : StatusFields) (s t : State), f.clrDone = true → exec (.wrStatus f) s = .next t → t.irq = false) ∧
  (∀ (f : CtrlFields) (c : BitVec 4) (i : Instr) (s t : State), s.eng = .idle →
    (i = .reservedCmd23 f c ∨ i = .reservedCmd47 f c ∨ i = .reservedCmd8F f c) →
      exec i s = .next t → t.irq = f.irqEn) ∧
  (∀ (f : CtrlFields) (s t : State), s.eng = .idle → exec (.drawChar f) s = .next t →
    (startError (operands s) ≠ none → t.irq = f.irqEn) ∧ (startError (operands s) = none → t.irq = false)) ∧
  (∀ s t : State, step s = .next t → s.eng = .busy → t.eng = .idle →
    (∀ rest, s.moves ≠ .rst true :: rest) → t.irq = s.irqEn) ∧
  (∀ (s t : State) (rest : List Move), s.moves = .rst true :: rest → step s = .next t → t.irq = false)

/-- R143: FAST is a hint that no rule reads: two states that differ only in FAST answer every step alike but
for FAST itself and, when the step serves a read of CTRL, the bit [5] that returns it; and two CTRL writes
that differ only in FAST act alike. -/
def Obligations.FastIsOnlyAHint : Prop :=
  (∀ (s : State) (b : Bool), servedInstr s ≠ some (.rd .ctrl) →
    mapNext State.noFast (step { s with fast := b }) = mapNext State.noFast (step s)) ∧
  (∀ (s : State) (b : Bool), servedInstr s = some (.rd .ctrl) →
    let masked (t : State) : State := { t.noFast with regData := t.regData &&& ~~~(0x20#32) }
    mapNext masked (step { s with fast := b }) = mapNext masked (step s)) ∧
  ∀ (f : CtrlFields) (c : BitVec 4) (s : State) (b : Bool),
    let same (i : CtrlFields → Instr) : Prop :=
      mapNext State.noFast (exec (i { f with fast := b }) s) = mapNext State.noFast (exec (i f) s)
    same .nop ∧ same .drawChar ∧ same (.reservedCmd23 · c) ∧ same (.reservedCmd47 · c) ∧
      same (.reservedCmd8F · c)

/-! ## Pixels and lanes -/

/-- R129, R128: SetLane writes the phase into the two bits of its lane, at 14 - 2*i, and the other 14 bits of the
word keep their values; the byte update of the byte-clip policy writes it into the two bits of the byte at
(14 - 2*i) mod 8, and the other 6 keep theirs. -/
def Obligations.SetLaneChangesOnlyItsLane : Prop :=
  (∀ (v : PixelWord) (i : Fin 8) (p : BitVec 2) (k : Nat), k < 16 →
    (setLane v i p).getLsbD k =
      if k = 14 - 2 * i.val then p.getLsbD 0
      else if k = 15 - 2 * i.val then p.getLsbD 1
      else v.getLsbD k) ∧
  ∀ (c : Byte) (i : Fin 8) (p : BitVec 2) (k : Nat), k < 8 →
    (setClipLane c i p).getLsbD k =
      if k = (14 - 2 * i.val) % 8 then p.getLsbD 0
      else if k = (14 - 2 * i.val) % 8 + 1 then p.getLsbD 1
      else c.getLsbD k

/-- R130, R128: applying SetLane for each lane of a set, in any order, gives the lane form (v and not mask) or
(pattern and mask). Under the byte-clip policy exactly the lanes of the byte in range are written (4 to 7 with the
little byte order, 0 to 3 with the big one), and the byte becomes that byte of the word with those lanes set. -/
def Obligations.LaneFormEqualsLaneByLane : Prop :=
  (∀ (v : PixelWord) (lanes others : List (Fin 8)) (p : BitVec 2),
    (∀ i, i ∈ lanes ↔ i ∈ others) →
      setLanes v lanes p = (v &&& ~~~(laneMask others)) ||| (phasePattern p &&& laneMask others)) ∧
  (∀ (lanes : List (Fin 8)) (i : Fin 8),
    (i ∈ writtenLanes .little .firstByte lanes ↔ i ∈ lanes ∧ 4 ≤ i.val) ∧
    (i ∈ writtenLanes .big .firstByte lanes ↔ i ∈ lanes ∧ i.val ≤ 3)) ∧
  ∀ (v : PixelWord) (lanes others : List (Fin 8)) (p : BitVec 2),
    ((∀ i, i ∈ others ↔ i ∈ lanes ∧ 4 ≤ i.val) →
      setClipLanes (v.extractLsb' 0 8) (writtenLanes .little .firstByte lanes) p =
        (setLanes v others p).extractLsb' 0 8) ∧
    ((∀ i, i ∈ others ↔ i ∈ lanes ∧ i.val ≤ 3) →
      setClipLanes (v.extractLsb' 8 8) (writtenLanes .big .firstByte lanes) p =
        (setLanes v others p).extractLsb' 8 8)

/-- R52, R121, R122, R123, R125: a bitmap pixel's byte lies at BM_BASE + y*W + x; the pixel lands when it passes the
clips and that byte is not zero; and where a kept pixel lands: its word offset and lane by the spec's formulas,
the offset even and from 11268 to 2645984. -/
def Obligations.PixelLandingArithmetic : Prop :=
  (∀ (s : State) (p : Pixel),
    bitmapAddr (operands s) p = s.bmBase.toNat + p.y * (s.bmSize.extractLsb' 0 16).toNat + p.x) ∧
  (∀ (o : Operands) (m : Memory) (p : Pixel),
    p ∈ landedPixels o m ↔ p ∈ keptPixels o ∧ ∃ b, m.read (o.bmBase + p.y * o.w + p.x) = some b ∧ b ≠ 0) ∧
  ∀ (o : Operands) (p : Pixel), p ∈ keptPixels o →
    let bx : Int := (p.x : Int) + o.xo
    let row : Int := 1872 - ((p.y : Int) + o.yo) - 1
    (pixelOffset o p : Int) = (8 + row) * 1408 + (8 + bx) / 8 * 2 ∧
    ((pixelLane o p).val : Int) = (8 + bx) % 8 ∧
    pixelOffset o p % 2 = 0 ∧ 11268 ≤ pixelOffset o p ∧ pixelOffset o p ≤ 2645984

/-- R136: distinct pixels that pass the clips land in distinct (word, lane) pairs. -/
def Obligations.DistinctPixelsDistinctLanes : Prop :=
  ∀ (o : Operands) (p q : Pixel), p ∈ keptPixels o → q ∈ keptPixels o → p ≠ q →
    ¬ (pixelOffset o p = pixelOffset o q ∧ pixelLane o p = pixelLane o q)

/-- R117: bitmap row y + 1 lands one physical row (STRIDE bytes) before bitmap row y, in the same lanes. -/
def Obligations.NextRowOneStrideBefore : Prop :=
  ∀ (o : Operands) (x y : Nat), { x := x, y := y } ∈ keptPixels o → { x := x, y := y + 1 } ∈ keptPixels o →
    pixelOffset o { x := x, y := y + 1 } + 1408 = pixelOffset o { x := x, y := y } ∧
    pixelLane o { x := x, y := y + 1 } = pixelLane o { x := x, y := y }

/-- R113, R122, R140: a bitmap pixel with value 0 never modifies its buffer location, regardless of the phase: the
two bits of its lane are after the command what they were before. Of every word, and of the last byte of the
frame under the byte-clip policy, the lanes of the landed pixels that are not dropped hold the phase after the
command, and every other lane its bits from before. -/
def Obligations.DrawnLanesHoldThePhaseOthersKeepTheirs : Prop :=
  (∀ (o : Operands) (m : Memory) (p : Pixel) (v v' : PixelWord) (k : Nat),
    p ∈ keptPixels o → m.read (bitmapAddr o p) = some 0 →
    m.readWord (o.fbBase + pixelOffset o p) = some v → drawnWord o m (pixelOffset o p) = some v' →
    (k = 14 - 2 * (pixelLane o p).val ∨ k = 15 - 2 * (pixelLane o p).val) →
      v'.getLsbD k = v.getLsbD k) ∧
  (∀ (o : Operands) (m : Memory) (off : Nat) (v : PixelWord), off % 2 = 0 →
    m.readWord (o.fbBase + off) = some v →
      ∃ v', drawnWord o m off = some v' ∧ ∀ k, k < 16 →
        ((∃ p ∈ landedPixels o m, pixelOffset o p = off ∧ (pixelLane o p).val = 7 - k / 2 ∧
            pixelDropped o p = false) → v'.getLsbD k = o.phase.getLsbD (k % 2)) ∧
        ((∀ p ∈ landedPixels o m, pixelOffset o p = off → (pixelLane o p).val = 7 - k / 2 →
            pixelDropped o p = true) → v'.getLsbD k = v.getLsbD k)) ∧
  ∀ (o : Operands) (m : Memory) (off : Nat) (c : Byte), off % 2 = 0 → o.byteClip = true → off + 1 = o.fbLen →
    m.read (o.fbBase + off) = some c →
      ∃ c', drawByte o m (o.fbBase + off) = some c' ∧ ∀ k, k < 8 →
        ((∃ p ∈ landedPixels o m, pixelOffset o p = off ∧ (pixelLane o p).val = 7 - k / 2) →
          c'.getLsbD k = o.phase.getLsbD (k % 2)) ∧
        ((∀ p ∈ landedPixels o m, pixelOffset o p = off → (pixelLane o p).val ≠ 7 - k / 2) →
          c'.getLsbD k = c.getLsbD k)

/-- R142: the same command on the memory it left gives the same memory and the same DROP_COUNT. -/
def Obligations.DrawIsIdempotent : Prop :=
  ∀ (o : Operands) (m m' : Memory), startError o = none →
    (∀ a, m'.read a = drawByte o m a) →
      (∀ a, drawByte o m' a = drawByte o m a) ∧ drawDropCount o m' = drawDropCount o m

/-- R116, R119, R121, R127, R128, R134, R144: which pixels pass the clips and which bytes the engine may also read,
by the register values, each pixel once; when a kept pixel is dropped, and the bytes of a word that may be written,
by the guard and the byte-clip policy; DROP_COUNT with the landed pixels that are written makes up all that land.
A frame of at least 2645986 bytes drops no pixel; with offsets at the ends of their range every pixel is clipped;
DROP_COUNT cannot overflow. -/
def Obligations.ClippingAndDropCorners : Prop :=
  (∀ (s : State) (p : Pixel),
    let inBitmap := p.x < (s.bmSize.extractLsb' 0 16).toNat ∧ p.y < (s.bmSize.extractLsb' 16 16).toNat
    let rowKept := 0 ≤ (p.y : Int) + s.yOffset.toInt ∧ (p.y : Int) + s.yOffset.toInt < 1872
    let columnKept := 8 ≤ (p.x : Int) + s.xOffset.toInt ∧ (p.x : Int) + s.xOffset.toInt < 1404
    (p ∈ keptPixels (operands s) ↔ inBitmap ∧ rowKept ∧ columnKept) ∧
    (p ∈ clippedPixels (operands s) ↔ inBitmap ∧ rowKept ∧ ¬ columnKept) ∧
    (keptPixels (operands s)).Nodup ∧ (clippedPixels (operands s)).Nodup) ∧
  (∀ (o : Operands) (p : Pixel), p ∈ keptPixels o →
    (pixelDropped o p = false ↔
      pixelOffset o p + 1 < o.fbLen ∨
        (o.byteClip = true ∧ pixelOffset o p + 1 = o.fbLen ∧ 4 ≤ (pixelLane o p).val))) ∧
  (∀ (o : Operands) (off a : Nat),
    a ∈ wordAddrs o off ↔
      (off + 1 < o.fbLen ∧ (a = o.fbBase + off ∨ a = o.fbBase + off + 1)) ∨
        (o.byteClip = true ∧ off + 1 = o.fbLen ∧ a = o.fbBase + off)) ∧
  (∀ (o : Operands) (m : Memory),
    drawDropCount o m + ((landedPixels o m).filter (fun p => !pixelDropped o p)).length =
      (landedPixels o m).length) ∧
  (∀ (o : Operands) (m : Memory), 2645986 ≤ o.fbLen → drawDropCount o m = 0) ∧
  (∀ s : State,
    (s.xOffset = 0x7FFFFFFF ∨ s.xOffset = 0x80000000 ∨ s.yOffset = 0x7FFFFFFF ∨ s.yOffset = 0x80000000) →
      keptPixels (operands s) = []) ∧
  (∀ s : State, drawDropCount (operands s) s.mem ≤ 65535 * 65535)

/-! ## The engine -/

/-- R137, R58, R60: every access the engine makes is one of R60: a 1-byte read in the bitmap range, a 2-byte
access at an even address in the frame range, or a 1-byte access to the last byte of the frame under the
byte-clip policy. It holds of every step, a reset during a command too, and under races. -/
def Obligations.EngineAccessesStayInRange : Prop :=
  ∀ s t : State, s.Inv → step s = .next t →
    ∃ new, t.history = new ++ s.history ∧
      (∀ e ∈ new, e.agent = .engine → engineEventLegal (operands s) e) ∧
      ((∀ rest, s.moves ≠ .rst true :: rest) → new.length ≤ 1)

/-- R58: an engine move, or a reset that stops the engine, changes no byte outside the frame range. -/
def Obligations.EngineWritesOnlyTheFrame : Prop :=
  ∀ s t : State, s.Inv → (engineMovesNext s ∨ ∃ rest, s.moves = .rst true :: rest) → step s = .next t →
    ∀ a, (frameRange (operands s)).covers a = false → t.mem.read a = s.mem.read a

/-- R134, R135: when every bitmap byte is read and every word updated or dropped (and no optional read is left
to choose), the engine's move is completion: IDLE, DONE = 1, ERR and ERR_CODE as they were, DROP_COUNT the
number of landed pixels not written, memory and the history as they were, and IRQ high exactly when
IRQ_EN = 1. -/
def Obligations.CompletionEndsTheCommand : Prop :=
  ∀ s : State, s.rst = false → s.eng = .busy → engineMovesNext s →
    s.work.toRead = [] → s.work.mayRead = [] → pendingWords s = [] →
      ∃ t, step s = .next t ∧ t.eng = .idle ∧ t.done = true ∧ t.err = s.err ∧ t.errCode = s.errCode ∧
        t.wign = s.wign ∧ t.dropCount = BitVec.ofNat 32 (droppedCount (operands s) (landed s)) ∧
        t.mem = s.mem ∧ t.history = s.history ∧ t.work = Work.empty ∧ t.irq = s.irqEn

/-- R57, R182: at an address the platform does not back the engine has no step, whichever access needs it: a
bitmap read, an optional one, or the read of a word or of its one byte in range. When a grant picks that
access the state is as it was; when the engine alone picks it the machine is stuck there. That a grant of
another access may still go on is the model's reading (log entry 14). -/
def Obligations.UnbackedAddressStopsTheEngine : Prop :=
  ∀ (s : State) (act : Action) (a : Nat), s.rst = false → s.eng = .busy → stuckAt s act = some a →
    (∀ k rest, s.moves = .grant k :: rest → pickAction k (engineActions s) = some act →
      step s = .next { s with moves := rest }) ∧
    (s.moves = [] → pickAction (Config.engineOrder s.draws) (engineActions s) = some act →
      step s = .fault (.engineStuck a))

/-- R75 (d), R182: every engine move of a busy engine whose ranges are backed, granted or made by the engine
alone, either completes the command or leaves fewer moves to make; nothing else can stop it, races
included. -/
def Obligations.EveryEngineMoveMakesProgress : Prop :=
  ∀ s : State, s.Inv → s.rst = false → s.eng = .busy → rangesBacked (operands s) s.mem → engineMovesNext s →
    ∃ t, step s = .next t ∧ (t.eng = .idle ∨ engineBudget t < engineBudget s)

/-- R180, R75 (d): from the acceptance of a command on, whatever other agents do but for the assertion of RST,
the duty of R74 kept or broken, the engine makes at most W * H bitmap reads and at most two frame accesses for
each pixel that passes the clips, and the words it has to update are at most as many as those pixels. -/
def Obligations.BitmapReadsBounded : Prop :=
  ∀ (f : CtrlFields) (s t u : State), s.eng = .idle → s.rst = false →
    exec (.drawChar f) s = .next t → t.eng = .busy → RacyRun t u →
      bitmapReadCount (operands t) u.history ≤
        bitmapReadCount (operands t) s.history + (operands t).w * (operands t).h ∧
      frameAccessCount (operands t) u.history ≤
        frameAccessCount (operands t) s.history + 2 * t.work.toRead.length ∧
      t.work.toRead.length + t.work.mayRead.length ≤ (operands t).w * (operands t).h ∧
      (pendingWords t).length ≤ t.work.toRead.length

/-- R147, R180, R182: an accepted command every byte of which is backed completes, without error, after
finitely many steps: in whatever order the engine makes its moves, whatever REG accesses, host accesses that
keep the duty of R74, and grants come between them, and with the engine going on alone when no move is
pending. As many grants as the engine has moves to make are enough. -/
def Obligations.AcceptedCommandCompletes : Prop :=
  ∀ (f : CtrlFields) (s t : State) (ms : List Move),
    s.eng = .idle → s.rst = false → exec (.drawChar f) s = .next t → t.eng = .busy →
    commandBacked (operands t) s.mem → (∀ m ∈ ms, servable (operands t) s.mem m = true) →
      ∃ n u, n ≤ ms.length + (engineBudget t - grantCount ms) ∧
        Host.Core.run Sys2Proof.core n { t with moves := ms } = .next u ∧
        u.eng = .idle ∧ u.done = true ∧ u.err = false ∧ u.errCode = .none ∧
        ((∀ m ∈ ms, ∃ k, m = .grant k) → u.wign = s.wign)

/-- R113, R134, R145, R146: whatever the order of the engine's moves, and whatever REG accesses and host
accesses that keep the duty of R74 come between them, a command that has completed has left every byte of its
ranges as the per-pixel contract says, every other byte that no host has written as it was, and DROP_COUNT at
the number of landed pixels not written. -/
def Obligations.UndisturbedDrawMeetsContract : Prop :=
  ∀ (f : CtrlFields) (s t u : State),
    s.eng = .idle → s.rst = false → exec (.drawChar f) s = .next t → t.eng = .busy →
    CommandRun t u → u.eng = .idle →
      ∃ new, u.history = new ++ s.history ∧
        (∀ a, ((frameRange (operands t)).covers a = true ∨ (bitmapRange (operands t)).covers a = true
            ∨ hostWrote a new = false) → u.mem.read a = drawByte (operands t) s.mem a) ∧
        u.dropCount = BitVec.ofNat 32 (drawDropCount (operands t) s.mem)

/-- R71, R121, R131, R132, R133: in a command that has completed, with any accesses that keep the duty between
its moves, every pixel that passes both clips had its byte read exactly once and a column-clipped one at most
once; every word with a lane to write had exactly one frame read and one frame write, the write after that
read and after the bitmap reads of every pixel landing in the word; and no other address, that of a byte of a
skipped row or of another frame word, was read or written by the engine. -/
def Obligations.EachWordReadOnceWrittenOnce : Prop :=
  ∀ (f : CtrlFields) (s t u : State),
    s.eng = .idle → s.rst = false → exec (.drawChar f) s = .next t → t.eng = .busy →
    CommandRun t u → u.eng = .idle →
      let o := operands t
      let count (kind : AccessKind) (a : Nat) : Nat := accessCount kind a u.history - accessCount kind a s.history
      let touched (off : Nat) : Prop := off % 2 = 0 ∧ touchedLanes o s.mem off ≠ []
      (∀ p ∈ keptPixels o, count .read (bitmapAddr o p) = 1) ∧
      (∀ p ∈ clippedPixels o, count .read (bitmapAddr o p) ≤ 1) ∧
      (∀ off, touched off → count .read (o.fbBase + off) = 1 ∧ count .write (o.fbBase + off) = 1) ∧
      (∀ off, touched off → ∃ later w before, u.history = later ++ w :: before ∧
        w.agent = .engine ∧ w.kind = .write ∧ w.addr = o.fbBase + off ∧ s.history <:+ before ∧
        accessCount .read (o.fbBase + off) before = accessCount .read (o.fbBase + off) s.history + 1 ∧
        ∀ p ∈ landedPixels o s.mem, pixelOffset o p = off →
          accessCount .read (bitmapAddr o p) before = accessCount .read (bitmapAddr o p) s.history + 1) ∧
      (∀ a, (∀ off, touched off → a ≠ o.fbBase + off) →
        count .write a = 0 ∧
          ((∀ p, p ∈ keptPixels o ∨ p ∈ clippedPixels o → a ≠ bitmapAddr o p) → count .read a = 0))

/-- R71: (1) in every run of a command, whatever other agents do but for the assertion of RST, each frame write
the engine has made comes after exactly one read of the same word and no other write of it, and the bitmap byte
of every pixel that passes the clips and lies in the word has been read exactly once by then, or is read later
and is 0, so that the pixel does not land (that it is 0 even where another agent writes it between: log entry
24). (2) No other order is barred: at any time the engine may read any byte it has still to read, read any word
it has still to update, and write such a word once it is read and so are the bytes of the pixels landing in it;
some choice names each of these moves, and a grant of that choice performs it. -/
def Obligations.AccessOrderIsFreeButForItsRule : Prop :=
  (∀ (f : CtrlFields) (s t u : State) (later before new : List MemEvent) (w : MemEvent),
    s.eng = .idle → s.rst = false → exec (.drawChar f) s = .next t → t.eng = .busy → RacyRun t u →
    u.history = later ++ w :: before → before = new ++ s.history → w.agent = .engine → w.kind = .write →
      accessCount .read w.addr before = accessCount .read w.addr s.history + 1 ∧
      accessCount .write w.addr before = accessCount .write w.addr s.history ∧
      ∃ off ∈ (keptPixels (operands t)).map (pixelOffset (operands t)), w.addr = (operands t).fbBase + off ∧
        ∀ p ∈ keptPixels (operands t), pixelOffset (operands t) p = off →
          let a := bitmapAddr (operands t) p
          (accessCount .read a before = accessCount .read a s.history + 1 ∧ accessCount .read a later = 0) ∨
          (accessCount .read a before = accessCount .read a s.history ∧ accessCount .read a later ≤ 1 ∧
            ∀ e ∈ later, e.agent = .engine → e.addr = a → e.value = 0)) ∧
  ∀ s : State, s.eng = .busy →
    (∀ p ∈ s.work.toRead, Action.readPixel p ∈ engineActions s) ∧
    (∀ p ∈ s.work.mayRead, Action.readClipped p ∈ engineActions s) ∧
    (∀ p ∈ landed s, pixelDropped (operands s) p = false → pixelOffset (operands s) p ∉ s.work.updated →
      (heldValue (pixelOffset (operands s) p) s.work.held = none →
        Action.readFrame (pixelOffset (operands s) p) ∈ engineActions s) ∧
      ((heldValue (pixelOffset (operands s) p) s.work.held).isSome = true →
        (∀ q ∈ landed s, pixelOffset (operands s) q = pixelOffset (operands s) p → q ∉ s.work.toRead) →
          Action.writeFrame (pixelOffset (operands s) p) ∈ engineActions s)) ∧
    (∀ act ∈ engineActions s, ∃ k, pickAction k (engineActions s) = some act) ∧
    ∀ (k : Nat) (act : Action) (rest : List Move) (t : State), s.rst = false → s.moves = .grant k :: rest →
      pickAction k (engineActions s) = some act → performAction act { s with moves := rest } = .ok t →
        step s = .next t

/-- R138: a command all of whose rows fall outside [0, BUF_HEIGHT) makes no MEM access at all and leaves
memory unchanged: its first engine move completes it. -/
def Obligations.RowsOutsideDrawNothing : Prop :=
  ∀ (f : CtrlFields) (s t : State) (k : Nat), s.eng = .idle → s.rst = false →
    exec (.drawChar f) s = .next t → t.eng = .busy →
    (∀ y : Nat, y < (s.bmSize.extractLsb' 16 16).toNat →
      (y : Int) + s.yOffset.toInt < 0 ∨ 1872 ≤ (y : Int) + s.yOffset.toInt) →
      ∃ u, step (t.withGrants [k]) = .next u ∧ u.eng = .idle ∧ u.mem = s.mem ∧ u.history = s.history ∧
        u.dropCount = 0 ∧ u.done = true ∧ u.err = false

/-- R112: a command with W = 0 or H = 0 that passes the checks (and whose ranges touch no memory with side
effects, R63) is accepted, makes no MEM access, leaves DROP_COUNT = 0 and completes with the engine's next
move. -/
def Obligations.EmptyCommandCompletes : Prop :=
  ∀ (f : CtrlFields) (s : State) (k : Nat), s.eng = .idle → s.rst = false →
    (s.bmSize.extractLsb' 0 16 = 0 ∨ s.bmSize.extractLsb' 16 16 = 0) →
    startError (operands s) = none → onDevice s.devices (operands s) = false →
      ∃ t u, exec (.drawChar f) s = .next t ∧ t.eng = .busy ∧ t.mem = s.mem ∧ t.history = s.history ∧
        step (t.withGrants [k]) = .next u ∧ u.eng = .idle ∧ u.mem = s.mem ∧ u.history = s.history ∧
        u.dropCount = 0 ∧ u.done = true ∧ u.err = false

/-- R139: one opaque pixel at x_offset = LEFT_MARGIN, y_offset = 0: with FB_LEN >= 2645638 the two top bits
of the word at FB_BASE + 2645636 hold the phase after the command and its other 14 bits are unchanged;
with a shorter frame the pixel is dropped and nothing changes. -/
def Obligations.SinglePixelAtOrigin : Prop :=
  ∀ (f : CtrlFields) (s t : State) (b : Byte) (v : PixelWord) (k1 k2 k3 k4 : Nat),
    s.eng = .idle → s.rst = false → exec (.drawChar f) s = .next t → t.eng = .busy →
    s.bmSize = 0x00010001 → s.xOffset = 8 → s.yOffset = 0 → s.mem.read s.bmBase.toNat = some b → b ≠ 0 →
    (2645638 ≤ s.fbLen.toNat → s.mem.readWord (s.fbBase.toNat + 2645636) = some v →
      ∃ u, Host.Core.run Sys2Proof.core 4 (t.withGrants [k1, k2, k3, k4]) = .next u ∧ u.eng = .idle ∧
        u.mem.readWord (s.fbBase.toNat + 2645636) = some (s.phase ++ v.extractLsb' 0 14) ∧
        u.dropCount = 0) ∧
    (s.fbLen.toNat < 2645638 →
      ∃ u, Host.Core.run Sys2Proof.core 2 (t.withGrants [k1, k2]) = .next u ∧ u.eng = .idle ∧
        u.mem = s.mem ∧ u.dropCount = 1)

/-! ## Other agents -/

/-- R69: while the engine is idle a host write stores its byte and a host read returns memory's byte; both
enter the history and no register changes. That a write to an address memory does not list adds the byte, and
that a host access is one byte wide, are the model's choices (log entries 2 and 20). -/
def Obligations.HostAccessesWhileIdle : Prop :=
  (∀ (s : State) (a : Word) (v : Byte) (rest : List Move), s.eng = .idle → s.moves = .memWrite a v :: rest →
    ∃ t, step s = .next t ∧ (∀ b, t.mem.read b = if b = a.toNat then some v else s.mem.read b) ∧
      t = { s with mem := t.mem, moves := rest, history :=
        { agent := .host, kind := .write, addr := a.toNat, size := 1, value := v.setWidth 16 } :: s.history }) ∧
  (∀ (s : State) (a : Word) (v : Byte) (rest : List Move), s.eng = .idle → s.moves = .memRead a :: rest →
    s.mem.read a.toNat = some v →
      step s = .next { s with moves := rest, history :=
        { agent := .host, kind := .read, addr := a.toNat, size := 1, value := v.setWidth 16 } :: s.history })

/-- R75 (c): a host read during a command returns, of a byte the command writes, its value before the command
or the value the command gives it, which where the duty of R74 was kept is that of the pure function of R145
(where it was broken: log entries 8 and 24); of every other byte it returns memory's value. It changes no byte
and no register. When a command with any accesses of other agents between its moves has completed, every host
read of a byte of the frame during it has returned the value the byte had at acceptance or the value it has
now, but for a byte that another agent has written again after that read (log entry 8). -/
def Obligations.HostReadDuringCommand : Prop :=
  (∀ (s t : State) (a : Word) (rest : List Move), s.Inv → s.Faithful → s.eng = .busy →
    s.moves = .memRead a :: rest → step s = .next t →
      ∃ b : Byte, t.history =
          { agent := .host, kind := .read, addr := a.toNat, size := 1, value := b.setWidth 16 } :: s.history ∧
        (inDispute s a.toNat = true →
          s.atStart.read a.toNat = some b ∨ commandByte s a.toNat = some b) ∧
        (inDispute s a.toNat = true → s.dutyKept →
          s.atStart.read a.toNat = some b ∨ drawByte (operands s) s.atStart a.toNat = some b) ∧
        (inDispute s a.toNat = false → s.mem.read a.toNat = some b) ∧ t.mem = s.mem ∧ t.block = s.block) ∧
  ∀ (f : CtrlFields) (s t u : State) (later before new : List MemEvent) (e : MemEvent),
    s.Inv → s.eng = .idle → s.rst = false → exec (.drawChar f) s = .next t → t.eng = .busy → RacyRun t u →
    u.eng = .idle → u.history = later ++ e :: before → before = new ++ s.history →
    e.agent = .host → e.kind = .read → (frameRange (operands t)).covers e.addr = true →
      s.mem.read e.addr = some (e.value.setWidth 8) ∨ u.mem.read e.addr = some (e.value.setWidth 8) ∨
        hostWrote e.addr later = true

/-- R74, R75 (b), (d): a host write during a command, to any byte but one of a word the command has already
written, is stored as written and marks the byte; no register of the block changes and the command goes on. That
a byte of the frame stands as written until the engine writes its word is log entry 8, and that a write to an
address memory does not list adds the byte is log entry 2. -/
def Obligations.HostWriteDuringCommand : Prop :=
  ∀ (s : State) (a : Word) (v : Byte) (rest : List Move), s.eng = .busy →
    (∀ off, frameWordOf (operands s) a.toNat = some off → off ∉ s.work.updated) →
    s.moves = .memWrite a v :: rest →
      ∃ t, step s = .next t ∧ (∀ b, t.mem.read b = if b = a.toNat then some v else s.mem.read b) ∧
        (raceAt t a.toNat).isSome = true ∧ t.block = s.block ∧ t.eng = .busy

/-- R75 (a), (b): the race outcomes. (1) When the engine writes a word that another agent has written during
the command, the word, or its one byte in range, takes the free value of that word. (2) The first write of
another agent into a word the command may write draws that free value, which a word already written holds from
then on; it is any value where no host read has shown a byte of the word. (3) A byte of a pixel the engine has
still to read that another agent writes is from then on a free byte to the engine, which fixes whether its pixel
lands; no other pixel's landing changes. It is any byte where the word of the pixel has been neither read nor
written and no host read has shown a byte of it, and else the drawn one or one by which the pixel lands as
before. (4) A byte of a pixel the engine has already read is stored as written and the landed pixels stay as
they were. (5) When the command is about to complete, every byte it writes holds the value it gives that byte:
of a raced word the free value; and every byte that a host read has shown as the value after the command holds
that value. Nothing is known of the free values. When each is drawn and takes effect, and which of them agree
with what has already happened, is the model's reading (log entries 8, 21 and 24). -/
def Obligations.RacesGiveFreeValues : Prop :=
  (∀ (s : State) (off k : Nat) (w : PixelWord) (rest : List Move), s.Inv → s.eng = .busy →
    racedWord s off = some w → s.moves = .grant k :: rest →
    pickAction k (engineActions s) = some (.writeFrame off) →
      ∃ t, step s = .next t ∧
        (wordFate (operands s) off = .whole → t.mem.readWord ((operands s).fbBase + off) = some w) ∧
        (wordFate (operands s) off = .firstByte →
          t.mem.read ((operands s).fbBase + off) = some (w.setWidth 8))) ∧
  (∀ (s : State) (a : Word) (v : Byte) (off : Nat) (rest : List Move), s.Inv → s.eng = .busy →
    frameWordOf (operands s) a.toNat = some off → wordFate (operands s) off ≠ .dropped →
    racedWord s off = none → s.moves = .memWrite a v :: rest →
      ∃ t w, step s = .next t ∧ racedWord t off = some w ∧
        ((∀ b ∈ wordAddrs (operands s) off, shownAt s b = none) → w = Config.raceWord s.draws) ∧
        (off ∈ s.work.updated → wordFate (operands s) off = .whole →
          t.mem.readWord ((operands s).fbBase + off) = some w) ∧
        (off ∈ s.work.updated → wordFate (operands s) off = .firstByte →
          t.mem.read ((operands s).fbBase + off) = some (w.setWidth 8))) ∧
  (∀ (s : State) (a : Word) (v : Byte) (p : Pixel) (rest : List Move), s.Inv → s.Faithful → s.eng = .busy →
    p ∈ keptPixels (operands s) → bitmapAddr (operands s) p = a.toNat → p ∈ s.work.toRead →
    raceAt s a.toNat = none → s.moves = .memWrite a v :: rest →
      ∃ t b, step s = .next t ∧ bitmapByte t a.toNat = some b ∧ (p ∈ landed t ↔ b ≠ 0) ∧
        (∀ q ∈ keptPixels (operands s), q ≠ p → (q ∈ landed t ↔ q ∈ landed s)) ∧
        (b = Config.raceByte s.draws ∨ (p ∈ landed t ↔ p ∈ landed s)) ∧
        (pixelOffset (operands s) p ∉ s.work.updated →
          heldValue (pixelOffset (operands s) p) s.work.held = none →
          (∀ c ∈ wordAddrs (operands s) (pixelOffset (operands s) p), shownAt s c = none) →
            b = Config.raceByte s.draws)) ∧
  (∀ (s : State) (a : Word) (v : Byte) (p : Pixel) (rest : List Move), s.Inv → s.eng = .busy →
    p ∈ keptPixels (operands s) → bitmapAddr (operands s) p = a.toNat → p ∉ s.work.toRead →
    raceAt s a.toNat = none → s.moves = .memWrite a v :: rest →
      ∃ t, step s = .next t ∧ landed t = landed s ∧
        ∀ b, t.mem.read b = if b = a.toNat then some v else s.mem.read b) ∧
  ∀ s : State, s.Inv → s.Faithful → s.eng = .busy → pendingWords s = [] →
    (∀ a, inDispute s a = true → (s.mem.read a).isSome = true ∧ s.mem.read a = commandByte s a) ∧
    ∀ c ∈ s.shown, s.mem.read c.1 = some c.2
end

