-- ==== Sys2Proof/Laws/Memory.lean ====
section
/-! SUPPORT. The laws of memory: a read after a write, and the canonical form kept by every operation. -/

namespace Sys2Proof.Machine

@[simp] theorem Memory.read_nil (a : Nat) : Memory.read [] a = none := rfl

theorem Memory.read_insert (m : Memory) (a b : Nat) (v : Byte) :
    (m.insert a v).read b = if b = a then some v else m.read b := by
  induction m with
  | nil => grind [Memory.insert, Memory.read]
  | cons c m ih =>
    obtain ⟨k, w⟩ := c
    grind [Memory.insert, Memory.read]

/-- Reading after a write: the written byte at its address, every other byte as before. -/
theorem Memory.read_write (m : Memory) (a b : Nat) (v : Byte) :
    (m.write a v).read b = if b = a ∧ a < Config.memSize then some v else m.read b := by
  unfold Memory.write
  split <;> simp_all [Memory.read_insert]

theorem Memory.read_write_same (m : Memory) (a : Nat) (v : Byte) (h : a < Config.memSize) :
    (m.write a v).read a = some v := by simp [Memory.read_write, h]

@[simp] theorem Memory.read_write_other (m : Memory) (a b : Nat) (v : Byte) (h : b ≠ a) :
    (m.write a v).read b = m.read b := by simp [Memory.read_write, h]

/-- A word write leaves every byte but its two as it was. -/
theorem Memory.read_writeWord_other (m : Memory) (a b : Nat) (v : PixelWord) (h0 : b ≠ a) (h1 : b ≠ a + 1) :
    (m.writeWord a v).read b = m.read b := by simp [Memory.writeWord, h0, h1]

/-- The bytes of a word write. -/
theorem Memory.read_writeWord (m : Memory) (a b : Nat) (v : PixelWord) (h : a + 1 < Config.memSize) :
    (m.writeWord a v).read b =
      if b = a then some (wordByte Config.wordByteOrder v 0)
      else if b = a + 1 then some (wordByte Config.wordByteOrder v 1) else m.read b := by
  have h0 : a < Config.memSize := Nat.lt_of_succ_lt h
  simp only [Memory.writeWord, Memory.read_write, h, h0, and_true]
  split <;> split <;> simp_all

/-- A byte pair put together and taken apart again. -/
theorem assembleWord_wordByte (order : ByteOrder) (v : PixelWord) :
    assembleWord order (wordByte order v 0) (wordByte order v 1) = v := by
  cases order <;>
  · apply BitVec.eq_of_getLsbD_eq
    intro i hi
    simp only [assembleWord, wordByte, BitVec.getLsbD_append, BitVec.getLsbD_extractLsb']
    by_cases h : i < 8
    · simp [h]
    · have : 8 + (i - 8) = i := by omega
      simp [h, this, show i - 8 < 8 by omega]

/-- A word read back after it was written is the word. -/
theorem Memory.readWord_writeWord (m : Memory) (a : Nat) (v : PixelWord) (h : a + 1 < Config.memSize) :
    (m.writeWord a v).readWord a = some v := by
  simp [Memory.readWord, Memory.read_writeWord m a _ v h, assembleWord_wordByte]

/-! ## The canonical form -/

theorem Memory.rising_cons {k : Nat} {w : Byte} {m : Memory} :
    Memory.rising ((k, w) :: m) = true ↔ (∀ c ∈ m.head?, k < c.1) ∧ Memory.rising m = true := by
  cases m with
  | nil => simp [Memory.rising]
  | cons c m => obtain ⟨l, x⟩ := c; simp [Memory.rising]

theorem Memory.head_insert (m : Memory) (a k : Nat) (v : Byte) (hk : k < a) (hm : ∀ c ∈ m.head?, k < c.1) :
    ∀ c ∈ (m.insert a v).head?, k < c.1 := by
  cases m with
  | nil => simp [Memory.insert, hk]
  | cons c m =>
    obtain ⟨l, x⟩ := c
    simp only [Memory.insert]
    split <;> [skip; split] <;> simp_all

theorem Memory.rising_insert (m : Memory) (a : Nat) (v : Byte) (h : Memory.rising m = true) :
    Memory.rising (m.insert a v) = true := by
  induction m with
  | nil => simp [Memory.insert, Memory.rising]
  | cons c m ih =>
    obtain ⟨k, w⟩ := c
    obtain ⟨hk, hm⟩ := Memory.rising_cons.mp h
    simp only [Memory.insert]
    split
    · rename_i hlt
      exact Memory.rising_cons.mpr ⟨by simpa using hlt, h⟩
    · split
      · subst_vars; exact Memory.rising_cons.mpr ⟨hk, hm⟩
      · exact Memory.rising_cons.mpr ⟨Memory.head_insert m a k v (by omega) hk, ih hm⟩

theorem Memory.all_insert (m : Memory) (a : Nat) (v : Byte) (P : Host.Cell → Bool) (ha : P (a, v) = true)
    (h : m.all P = true) : (m.insert a v).all P = true := by
  induction m with
  | nil => simpa [Memory.insert] using ha
  | cons c m ih =>
    obtain ⟨k, w⟩ := c
    rw [List.all_cons, Bool.and_eq_true] at h
    simp only [Memory.insert]
    split <;> [skip; split] <;> simp_all

/-- A byte write keeps the canonical form. -/
theorem Memory.wf_write (m : Memory) (a : Nat) (v : Byte) (h : m.wf = true) : (m.write a v).wf = true := by
  unfold Memory.write
  split
  · rename_i ha
    simp only [Memory.wf, Bool.and_eq_true] at h ⊢
    exact ⟨Memory.rising_insert m a v h.1, Memory.all_insert m a v _ (by simpa using ha) h.2⟩
  · exact h

/-- A word write keeps the canonical form. -/
theorem Memory.wf_writeWord (m : Memory) (a : Nat) (v : PixelWord) (h : m.wf = true) :
    (m.writeWord a v).wf = true := Memory.wf_write _ _ _ (Memory.wf_write _ _ _ h)

/-- Reset memory has the canonical form. -/
theorem Memory.wf_reset : Memory.wf State.reset.mem = true := rfl

end Sys2Proof.Machine
end

