-- ==== Sys2Proof/Laws/State.lean ====
section
/-! SUPPORT. One lemma for each field and each named update of State: what the update leaves in the field. -/

namespace Sys2Proof.Machine

/-! ## setWign -/

@[simp] theorem setWign_irqEn (s : State) : (setWign s).irqEn = s.irqEn := rfl
@[simp] theorem setWign_fast (s : State) : (setWign s).fast = s.fast := rfl
@[simp] theorem setWign_byteClip (s : State) : (setWign s).byteClip = s.byteClip := rfl
@[simp] theorem setWign_done (s : State) : (setWign s).done = s.done := rfl
@[simp] theorem setWign_err (s : State) : (setWign s).err = s.err := rfl
@[simp] theorem setWign_wign (s : State) : (setWign s).wign = true := rfl
@[simp] theorem setWign_errCode (s : State) : (setWign s).errCode = s.errCode := rfl
@[simp] theorem setWign_fbBase (s : State) : (setWign s).fbBase = s.fbBase := rfl
@[simp] theorem setWign_fbLen (s : State) : (setWign s).fbLen = s.fbLen := rfl
@[simp] theorem setWign_bmBase (s : State) : (setWign s).bmBase = s.bmBase := rfl
@[simp] theorem setWign_bmSize (s : State) : (setWign s).bmSize = s.bmSize := rfl
@[simp] theorem setWign_xOffset (s : State) : (setWign s).xOffset = s.xOffset := rfl
@[simp] theorem setWign_yOffset (s : State) : (setWign s).yOffset = s.yOffset := rfl
@[simp] theorem setWign_phase (s : State) : (setWign s).phase = s.phase := rfl
@[simp] theorem setWign_dropCount (s : State) : (setWign s).dropCount = s.dropCount := rfl
@[simp] theorem setWign_eng (s : State) : (setWign s).eng = s.eng := rfl
@[simp] theorem setWign_work (s : State) : (setWign s).work = s.work := rfl
@[simp] theorem setWign_rst (s : State) : (setWign s).rst = s.rst := rfl
@[simp] theorem setWign_regData (s : State) : (setWign s).regData = s.regData := rfl
@[simp] theorem setWign_mem (s : State) : (setWign s).mem = s.mem := rfl
@[simp] theorem setWign_devices (s : State) : (setWign s).devices = s.devices := rfl
@[simp] theorem setWign_moves (s : State) : (setWign s).moves = s.moves := rfl
@[simp] theorem setWign_history (s : State) : (setWign s).history = s.history := rfl
@[simp] theorem setWign_raced (s : State) : (setWign s).raced = s.raced := rfl
@[simp] theorem setWign_shown (s : State) : (setWign s).shown = s.shown := rfl
@[simp] theorem setWign_atStart (s : State) : (setWign s).atStart = s.atStart := rfl
@[simp] theorem setWign_draws (s : State) : (setWign s).draws = s.draws := rfl

/-! ## storeCtrl -/

@[simp] theorem storeCtrl_irqEn (f : CtrlFields) (s : State) : (storeCtrl f s).irqEn = f.irqEn := rfl
@[simp] theorem storeCtrl_fast (f : CtrlFields) (s : State) : (storeCtrl f s).fast = f.fast := rfl
@[simp] theorem storeCtrl_byteClip (f : CtrlFields) (s : State) : (storeCtrl f s).byteClip = f.byteClip := rfl
@[simp] theorem storeCtrl_done (f : CtrlFields) (s : State) : (storeCtrl f s).done = s.done := rfl
@[simp] theorem storeCtrl_err (f : CtrlFields) (s : State) : (storeCtrl f s).err = s.err := rfl
@[simp] theorem storeCtrl_wign (f : CtrlFields) (s : State) : (storeCtrl f s).wign = s.wign := rfl
@[simp] theorem storeCtrl_errCode (f : CtrlFields) (s : State) : (storeCtrl f s).errCode = s.errCode := rfl
@[simp] theorem storeCtrl_fbBase (f : CtrlFields) (s : State) : (storeCtrl f s).fbBase = s.fbBase := rfl
@[simp] theorem storeCtrl_fbLen (f : CtrlFields) (s : State) : (storeCtrl f s).fbLen = s.fbLen := rfl
@[simp] theorem storeCtrl_bmBase (f : CtrlFields) (s : State) : (storeCtrl f s).bmBase = s.bmBase := rfl
@[simp] theorem storeCtrl_bmSize (f : CtrlFields) (s : State) : (storeCtrl f s).bmSize = s.bmSize := rfl
@[simp] theorem storeCtrl_xOffset (f : CtrlFields) (s : State) : (storeCtrl f s).xOffset = s.xOffset := rfl
@[simp] theorem storeCtrl_yOffset (f : CtrlFields) (s : State) : (storeCtrl f s).yOffset = s.yOffset := rfl
@[simp] theorem storeCtrl_phase (f : CtrlFields) (s : State) : (storeCtrl f s).phase = s.phase := rfl
@[simp] theorem storeCtrl_dropCount (f : CtrlFields) (s : State) : (storeCtrl f s).dropCount = s.dropCount := rfl
@[simp] theorem storeCtrl_eng (f : CtrlFields) (s : State) : (storeCtrl f s).eng = s.eng := rfl
@[simp] theorem storeCtrl_work (f : CtrlFields) (s : State) : (storeCtrl f s).work = s.work := rfl
@[simp] theorem storeCtrl_rst (f : CtrlFields) (s : State) : (storeCtrl f s).rst = s.rst := rfl
@[simp] theorem storeCtrl_regData (f : CtrlFields) (s : State) : (storeCtrl f s).regData = s.regData := rfl
@[simp] theorem storeCtrl_mem (f : CtrlFields) (s : State) : (storeCtrl f s).mem = s.mem := rfl
@[simp] theorem storeCtrl_devices (f : CtrlFields) (s : State) : (storeCtrl f s).devices = s.devices := rfl
@[simp] theorem storeCtrl_moves (f : CtrlFields) (s : State) : (storeCtrl f s).moves = s.moves := rfl
@[simp] theorem storeCtrl_history (f : CtrlFields) (s : State) : (storeCtrl f s).history = s.history := rfl
@[simp] theorem storeCtrl_raced (f : CtrlFields) (s : State) : (storeCtrl f s).raced = s.raced := rfl
@[simp] theorem storeCtrl_shown (f : CtrlFields) (s : State) : (storeCtrl f s).shown = s.shown := rfl
@[simp] theorem storeCtrl_atStart (f : CtrlFields) (s : State) : (storeCtrl f s).atStart = s.atStart := rfl
@[simp] theorem storeCtrl_draws (f : CtrlFields) (s : State) : (storeCtrl f s).draws = s.draws := rfl

/-! ## commandStart -/

@[simp] theorem commandStart_irqEn (s : State) : (commandStart s).irqEn = s.irqEn := rfl
@[simp] theorem commandStart_fast (s : State) : (commandStart s).fast = s.fast := rfl
@[simp] theorem commandStart_byteClip (s : State) : (commandStart s).byteClip = s.byteClip := rfl
@[simp] theorem commandStart_done (s : State) : (commandStart s).done = false := rfl
@[simp] theorem commandStart_err (s : State) : (commandStart s).err = false := rfl
@[simp] theorem commandStart_wign (s : State) : (commandStart s).wign = s.wign := rfl
@[simp] theorem commandStart_errCode (s : State) : (commandStart s).errCode = .none := rfl
@[simp] theorem commandStart_fbBase (s : State) : (commandStart s).fbBase = s.fbBase := rfl
@[simp] theorem commandStart_fbLen (s : State) : (commandStart s).fbLen = s.fbLen := rfl
@[simp] theorem commandStart_bmBase (s : State) : (commandStart s).bmBase = s.bmBase := rfl
@[simp] theorem commandStart_bmSize (s : State) : (commandStart s).bmSize = s.bmSize := rfl
@[simp] theorem commandStart_xOffset (s : State) : (commandStart s).xOffset = s.xOffset := rfl
@[simp] theorem commandStart_yOffset (s : State) : (commandStart s).yOffset = s.yOffset := rfl
@[simp] theorem commandStart_phase (s : State) : (commandStart s).phase = s.phase := rfl
@[simp] theorem commandStart_dropCount (s : State) : (commandStart s).dropCount = 0 := rfl
@[simp] theorem commandStart_eng (s : State) : (commandStart s).eng = s.eng := rfl
@[simp] theorem commandStart_work (s : State) : (commandStart s).work = s.work := rfl
@[simp] theorem commandStart_rst (s : State) : (commandStart s).rst = s.rst := rfl
@[simp] theorem commandStart_regData (s : State) : (commandStart s).regData = s.regData := rfl
@[simp] theorem commandStart_mem (s : State) : (commandStart s).mem = s.mem := rfl
@[simp] theorem commandStart_devices (s : State) : (commandStart s).devices = s.devices := rfl
@[simp] theorem commandStart_moves (s : State) : (commandStart s).moves = s.moves := rfl
@[simp] theorem commandStart_history (s : State) : (commandStart s).history = s.history := rfl
@[simp] theorem commandStart_raced (s : State) : (commandStart s).raced = s.raced := rfl
@[simp] theorem commandStart_shown (s : State) : (commandStart s).shown = s.shown := rfl
@[simp] theorem commandStart_atStart (s : State) : (commandStart s).atStart = s.atStart := rfl
@[simp] theorem commandStart_draws (s : State) : (commandStart s).draws = s.draws := rfl

/-! ## raiseCmdError -/

@[simp] theorem raiseCmdError_irqEn (c : ErrCode) (s : State) : (raiseCmdError c s).irqEn = s.irqEn := rfl
@[simp] theorem raiseCmdError_fast (c : ErrCode) (s : State) : (raiseCmdError c s).fast = s.fast := rfl
@[simp] theorem raiseCmdError_byteClip (c : ErrCode) (s : State) : (raiseCmdError c s).byteClip = s.byteClip := rfl
@[simp] theorem raiseCmdError_done (c : ErrCode) (s : State) : (raiseCmdError c s).done = true := rfl
@[simp] theorem raiseCmdError_err (c : ErrCode) (s : State) : (raiseCmdError c s).err = true := rfl
@[simp] theorem raiseCmdError_wign (c : ErrCode) (s : State) : (raiseCmdError c s).wign = s.wign := rfl
@[simp] theorem raiseCmdError_errCode (c : ErrCode) (s : State) : (raiseCmdError c s).errCode = c := rfl
@[simp] theorem raiseCmdError_fbBase (c : ErrCode) (s : State) : (raiseCmdError c s).fbBase = s.fbBase := rfl
@[simp] theorem raiseCmdError_fbLen (c : ErrCode) (s : State) : (raiseCmdError c s).fbLen = s.fbLen := rfl
@[simp] theorem raiseCmdError_bmBase (c : ErrCode) (s : State) : (raiseCmdError c s).bmBase = s.bmBase := rfl
@[simp] theorem raiseCmdError_bmSize (c : ErrCode) (s : State) : (raiseCmdError c s).bmSize = s.bmSize := rfl
@[simp] theorem raiseCmdError_xOffset (c : ErrCode) (s : State) : (raiseCmdError c s).xOffset = s.xOffset := rfl
@[simp] theorem raiseCmdError_yOffset (c : ErrCode) (s : State) : (raiseCmdError c s).yOffset = s.yOffset := rfl
@[simp] theorem raiseCmdError_phase (c : ErrCode) (s : State) : (raiseCmdError c s).phase = s.phase := rfl
@[simp] theorem raiseCmdError_dropCount (c : ErrCode) (s : State) : (raiseCmdError c s).dropCount = s.dropCount := rfl
@[simp] theorem raiseCmdError_eng (c : ErrCode) (s : State) : (raiseCmdError c s).eng = s.eng := rfl
@[simp] theorem raiseCmdError_work (c : ErrCode) (s : State) : (raiseCmdError c s).work = s.work := rfl
@[simp] theorem raiseCmdError_rst (c : ErrCode) (s : State) : (raiseCmdError c s).rst = s.rst := rfl
@[simp] theorem raiseCmdError_regData (c : ErrCode) (s : State) : (raiseCmdError c s).regData = s.regData := rfl
@[simp] theorem raiseCmdError_mem (c : ErrCode) (s : State) : (raiseCmdError c s).mem = s.mem := rfl
@[simp] theorem raiseCmdError_devices (c : ErrCode) (s : State) : (raiseCmdError c s).devices = s.devices := rfl
@[simp] theorem raiseCmdError_moves (c : ErrCode) (s : State) : (raiseCmdError c s).moves = s.moves := rfl
@[simp] theorem raiseCmdError_history (c : ErrCode) (s : State) : (raiseCmdError c s).history = s.history := rfl
@[simp] theorem raiseCmdError_raced (c : ErrCode) (s : State) : (raiseCmdError c s).raced = s.raced := rfl
@[simp] theorem raiseCmdError_shown (c : ErrCode) (s : State) : (raiseCmdError c s).shown = s.shown := rfl
@[simp] theorem raiseCmdError_atStart (c : ErrCode) (s : State) : (raiseCmdError c s).atStart = s.atStart := rfl
@[simp] theorem raiseCmdError_draws (c : ErrCode) (s : State) : (raiseCmdError c s).draws = s.draws := rfl

/-! ## acknowledge -/

@[simp] theorem acknowledge_irqEn (f : StatusFields) (s : State) : (acknowledge f s).irqEn = s.irqEn := rfl
@[simp] theorem acknowledge_fast (f : StatusFields) (s : State) : (acknowledge f s).fast = s.fast := rfl
@[simp] theorem acknowledge_byteClip (f : StatusFields) (s : State) : (acknowledge f s).byteClip = s.byteClip := rfl
@[simp] theorem acknowledge_done (f : StatusFields) (s : State) : (acknowledge f s).done = (s.done && !f.clrDone) := rfl
@[simp] theorem acknowledge_err (f : StatusFields) (s : State) : (acknowledge f s).err = (s.err && !f.clrErr) := rfl
@[simp] theorem acknowledge_wign (f : StatusFields) (s : State) : (acknowledge f s).wign = (s.wign && !f.clrWign) := rfl
@[simp] theorem acknowledge_errCode (f : StatusFields) (s : State) : (acknowledge f s).errCode = if f.clrErr then .none else s.errCode := rfl
@[simp] theorem acknowledge_fbBase (f : StatusFields) (s : State) : (acknowledge f s).fbBase = s.fbBase := rfl
@[simp] theorem acknowledge_fbLen (f : StatusFields) (s : State) : (acknowledge f s).fbLen = s.fbLen := rfl
@[simp] theorem acknowledge_bmBase (f : StatusFields) (s : State) : (acknowledge f s).bmBase = s.bmBase := rfl
@[simp] theorem acknowledge_bmSize (f : StatusFields) (s : State) : (acknowledge f s).bmSize = s.bmSize := rfl
@[simp] theorem acknowledge_xOffset (f : StatusFields) (s : State) : (acknowledge f s).xOffset = s.xOffset := rfl
@[simp] theorem acknowledge_yOffset (f : StatusFields) (s : State) : (acknowledge f s).yOffset = s.yOffset := rfl
@[simp] theorem acknowledge_phase (f : StatusFields) (s : State) : (acknowledge f s).phase = s.phase := rfl
@[simp] theorem acknowledge_dropCount (f : StatusFields) (s : State) : (acknowledge f s).dropCount = s.dropCount := rfl
@[simp] theorem acknowledge_eng (f : StatusFields) (s : State) : (acknowledge f s).eng = s.eng := rfl
@[simp] theorem acknowledge_work (f : StatusFields) (s : State) : (acknowledge f s).work = s.work := rfl
@[simp] theorem acknowledge_rst (f : StatusFields) (s : State) : (acknowledge f s).rst = s.rst := rfl
@[simp] theorem acknowledge_regData (f : StatusFields) (s : State) : (acknowledge f s).regData = s.regData := rfl
@[simp] theorem acknowledge_mem (f : StatusFields) (s : State) : (acknowledge f s).mem = s.mem := rfl
@[simp] theorem acknowledge_devices (f : StatusFields) (s : State) : (acknowledge f s).devices = s.devices := rfl
@[simp] theorem acknowledge_moves (f : StatusFields) (s : State) : (acknowledge f s).moves = s.moves := rfl
@[simp] theorem acknowledge_history (f : StatusFields) (s : State) : (acknowledge f s).history = s.history := rfl
@[simp] theorem acknowledge_raced (f : StatusFields) (s : State) : (acknowledge f s).raced = s.raced := rfl
@[simp] theorem acknowledge_shown (f : StatusFields) (s : State) : (acknowledge f s).shown = s.shown := rfl
@[simp] theorem acknowledge_atStart (f : StatusFields) (s : State) : (acknowledge f s).atStart = s.atStart := rfl
@[simp] theorem acknowledge_draws (f : StatusFields) (s : State) : (acknowledge f s).draws = s.draws := rfl

/-! ## readRegister -/

@[simp] theorem readRegister_irqEn (r : RegName) (s : State) : (readRegister r s).irqEn = s.irqEn := rfl
@[simp] theorem readRegister_fast (r : RegName) (s : State) : (readRegister r s).fast = s.fast := rfl
@[simp] theorem readRegister_byteClip (r : RegName) (s : State) : (readRegister r s).byteClip = s.byteClip := rfl
@[simp] theorem readRegister_done (r : RegName) (s : State) : (readRegister r s).done = s.done := rfl
@[simp] theorem readRegister_err (r : RegName) (s : State) : (readRegister r s).err = s.err := rfl
@[simp] theorem readRegister_wign (r : RegName) (s : State) : (readRegister r s).wign = s.wign := rfl
@[simp] theorem readRegister_errCode (r : RegName) (s : State) : (readRegister r s).errCode = s.errCode := rfl
@[simp] theorem readRegister_fbBase (r : RegName) (s : State) : (readRegister r s).fbBase = s.fbBase := rfl
@[simp] theorem readRegister_fbLen (r : RegName) (s : State) : (readRegister r s).fbLen = s.fbLen := rfl
@[simp] theorem readRegister_bmBase (r : RegName) (s : State) : (readRegister r s).bmBase = s.bmBase := rfl
@[simp] theorem readRegister_bmSize (r : RegName) (s : State) : (readRegister r s).bmSize = s.bmSize := rfl
@[simp] theorem readRegister_xOffset (r : RegName) (s : State) : (readRegister r s).xOffset = s.xOffset := rfl
@[simp] theorem readRegister_yOffset (r : RegName) (s : State) : (readRegister r s).yOffset = s.yOffset := rfl
@[simp] theorem readRegister_phase (r : RegName) (s : State) : (readRegister r s).phase = s.phase := rfl
@[simp] theorem readRegister_dropCount (r : RegName) (s : State) : (readRegister r s).dropCount = s.dropCount := rfl
@[simp] theorem readRegister_eng (r : RegName) (s : State) : (readRegister r s).eng = s.eng := rfl
@[simp] theorem readRegister_work (r : RegName) (s : State) : (readRegister r s).work = s.work := rfl
@[simp] theorem readRegister_rst (r : RegName) (s : State) : (readRegister r s).rst = s.rst := rfl
@[simp] theorem readRegister_regData (r : RegName) (s : State) : (readRegister r s).regData = regRead r s := rfl
@[simp] theorem readRegister_mem (r : RegName) (s : State) : (readRegister r s).mem = s.mem := rfl
@[simp] theorem readRegister_devices (r : RegName) (s : State) : (readRegister r s).devices = s.devices := rfl
@[simp] theorem readRegister_moves (r : RegName) (s : State) : (readRegister r s).moves = s.moves := rfl
@[simp] theorem readRegister_history (r : RegName) (s : State) : (readRegister r s).history = s.history := rfl
@[simp] theorem readRegister_raced (r : RegName) (s : State) : (readRegister r s).raced = s.raced := rfl
@[simp] theorem readRegister_shown (r : RegName) (s : State) : (readRegister r s).shown = s.shown := rfl
@[simp] theorem readRegister_atStart (r : RegName) (s : State) : (readRegister r s).atStart = s.atStart := rfl
@[simp] theorem readRegister_draws (r : RegName) (s : State) : (readRegister r s).draws = if readDraws r s then s.draws + 1 else s.draws := rfl

/-! ## logEvent -/

@[simp] theorem logEvent_irqEn (e : MemEvent) (s : State) : (logEvent e s).irqEn = s.irqEn := rfl
@[simp] theorem logEvent_fast (e : MemEvent) (s : State) : (logEvent e s).fast = s.fast := rfl
@[simp] theorem logEvent_byteClip (e : MemEvent) (s : State) : (logEvent e s).byteClip = s.byteClip := rfl
@[simp] theorem logEvent_done (e : MemEvent) (s : State) : (logEvent e s).done = s.done := rfl
@[simp] theorem logEvent_err (e : MemEvent) (s : State) : (logEvent e s).err = s.err := rfl
@[simp] theorem logEvent_wign (e : MemEvent) (s : State) : (logEvent e s).wign = s.wign := rfl
@[simp] theorem logEvent_errCode (e : MemEvent) (s : State) : (logEvent e s).errCode = s.errCode := rfl
@[simp] theorem logEvent_fbBase (e : MemEvent) (s : State) : (logEvent e s).fbBase = s.fbBase := rfl
@[simp] theorem logEvent_fbLen (e : MemEvent) (s : State) : (logEvent e s).fbLen = s.fbLen := rfl
@[simp] theorem logEvent_bmBase (e : MemEvent) (s : State) : (logEvent e s).bmBase = s.bmBase := rfl
@[simp] theorem logEvent_bmSize (e : MemEvent) (s : State) : (logEvent e s).bmSize = s.bmSize := rfl
@[simp] theorem logEvent_xOffset (e : MemEvent) (s : State) : (logEvent e s).xOffset = s.xOffset := rfl
@[simp] theorem logEvent_yOffset (e : MemEvent) (s : State) : (logEvent e s).yOffset = s.yOffset := rfl
@[simp] theorem logEvent_phase (e : MemEvent) (s : State) : (logEvent e s).phase = s.phase := rfl
@[simp] theorem logEvent_dropCount (e : MemEvent) (s : State) : (logEvent e s).dropCount = s.dropCount := rfl
@[simp] theorem logEvent_eng (e : MemEvent) (s : State) : (logEvent e s).eng = s.eng := rfl
@[simp] theorem logEvent_work (e : MemEvent) (s : State) : (logEvent e s).work = s.work := rfl
@[simp] theorem logEvent_rst (e : MemEvent) (s : State) : (logEvent e s).rst = s.rst := rfl
@[simp] theorem logEvent_regData (e : MemEvent) (s : State) : (logEvent e s).regData = s.regData := rfl
@[simp] theorem logEvent_mem (e : MemEvent) (s : State) : (logEvent e s).mem = s.mem := rfl
@[simp] theorem logEvent_devices (e : MemEvent) (s : State) : (logEvent e s).devices = s.devices := rfl
@[simp] theorem logEvent_moves (e : MemEvent) (s : State) : (logEvent e s).moves = s.moves := rfl
@[simp] theorem logEvent_history (e : MemEvent) (s : State) : (logEvent e s).history = e :: s.history := rfl
@[simp] theorem logEvent_raced (e : MemEvent) (s : State) : (logEvent e s).raced = s.raced := rfl
@[simp] theorem logEvent_shown (e : MemEvent) (s : State) : (logEvent e s).shown = s.shown := rfl
@[simp] theorem logEvent_atStart (e : MemEvent) (s : State) : (logEvent e s).atStart = s.atStart := rfl
@[simp] theorem logEvent_draws (e : MemEvent) (s : State) : (logEvent e s).draws = s.draws := rfl

/-! ## drawIf -/

@[simp] theorem drawIf_irqEn (b : Bool) (s : State) : (drawIf b s).irqEn = s.irqEn := rfl
@[simp] theorem drawIf_fast (b : Bool) (s : State) : (drawIf b s).fast = s.fast := rfl
@[simp] theorem drawIf_byteClip (b : Bool) (s : State) : (drawIf b s).byteClip = s.byteClip := rfl
@[simp] theorem drawIf_done (b : Bool) (s : State) : (drawIf b s).done = s.done := rfl
@[simp] theorem drawIf_err (b : Bool) (s : State) : (drawIf b s).err = s.err := rfl
@[simp] theorem drawIf_wign (b : Bool) (s : State) : (drawIf b s).wign = s.wign := rfl
@[simp] theorem drawIf_errCode (b : Bool) (s : State) : (drawIf b s).errCode = s.errCode := rfl
@[simp] theorem drawIf_fbBase (b : Bool) (s : State) : (drawIf b s).fbBase = s.fbBase := rfl
@[simp] theorem drawIf_fbLen (b : Bool) (s : State) : (drawIf b s).fbLen = s.fbLen := rfl
@[simp] theorem drawIf_bmBase (b : Bool) (s : State) : (drawIf b s).bmBase = s.bmBase := rfl
@[simp] theorem drawIf_bmSize (b : Bool) (s : State) : (drawIf b s).bmSize = s.bmSize := rfl
@[simp] theorem drawIf_xOffset (b : Bool) (s : State) : (drawIf b s).xOffset = s.xOffset := rfl
@[simp] theorem drawIf_yOffset (b : Bool) (s : State) : (drawIf b s).yOffset = s.yOffset := rfl
@[simp] theorem drawIf_phase (b : Bool) (s : State) : (drawIf b s).phase = s.phase := rfl
@[simp] theorem drawIf_dropCount (b : Bool) (s : State) : (drawIf b s).dropCount = s.dropCount := rfl
@[simp] theorem drawIf_eng (b : Bool) (s : State) : (drawIf b s).eng = s.eng := rfl
@[simp] theorem drawIf_work (b : Bool) (s : State) : (drawIf b s).work = s.work := rfl
@[simp] theorem drawIf_rst (b : Bool) (s : State) : (drawIf b s).rst = s.rst := rfl
@[simp] theorem drawIf_regData (b : Bool) (s : State) : (drawIf b s).regData = s.regData := rfl
@[simp] theorem drawIf_mem (b : Bool) (s : State) : (drawIf b s).mem = s.mem := rfl
@[simp] theorem drawIf_devices (b : Bool) (s : State) : (drawIf b s).devices = s.devices := rfl
@[simp] theorem drawIf_moves (b : Bool) (s : State) : (drawIf b s).moves = s.moves := rfl
@[simp] theorem drawIf_history (b : Bool) (s : State) : (drawIf b s).history = s.history := rfl
@[simp] theorem drawIf_raced (b : Bool) (s : State) : (drawIf b s).raced = s.raced := rfl
@[simp] theorem drawIf_shown (b : Bool) (s : State) : (drawIf b s).shown = s.shown := rfl
@[simp] theorem drawIf_atStart (b : Bool) (s : State) : (drawIf b s).atStart = s.atStart := rfl
@[simp] theorem drawIf_draws (b : Bool) (s : State) : (drawIf b s).draws = if b then s.draws + 1 else s.draws := rfl

/-! ## holdWord -/

@[simp] theorem holdWord_irqEn (off : Nat) (v : PixelWord) (s : State) : (holdWord off v s).irqEn = s.irqEn := rfl
@[simp] theorem holdWord_fast (off : Nat) (v : PixelWord) (s : State) : (holdWord off v s).fast = s.fast := rfl
@[simp] theorem holdWord_byteClip (off : Nat) (v : PixelWord) (s : State) : (holdWord off v s).byteClip = s.byteClip := rfl
@[simp] theorem holdWord_done (off : Nat) (v : PixelWord) (s : State) : (holdWord off v s).done = s.done := rfl
@[simp] theorem holdWord_err (off : Nat) (v : PixelWord) (s : State) : (holdWord off v s).err = s.err := rfl
@[simp] theorem holdWord_wign (off : Nat) (v : PixelWord) (s : State) : (holdWord off v s).wign = s.wign := rfl
@[simp] theorem holdWord_errCode (off : Nat) (v : PixelWord) (s : State) : (holdWord off v s).errCode = s.errCode := rfl
@[simp] theorem holdWord_fbBase (off : Nat) (v : PixelWord) (s : State) : (holdWord off v s).fbBase = s.fbBase := rfl
@[simp] theorem holdWord_fbLen (off : Nat) (v : PixelWord) (s : State) : (holdWord off v s).fbLen = s.fbLen := rfl
@[simp] theorem holdWord_bmBase (off : Nat) (v : PixelWord) (s : State) : (holdWord off v s).bmBase = s.bmBase := rfl
@[simp] theorem holdWord_bmSize (off : Nat) (v : PixelWord) (s : State) : (holdWord off v s).bmSize = s.bmSize := rfl
@[simp] theorem holdWord_xOffset (off : Nat) (v : PixelWord) (s : State) : (holdWord off v s).xOffset = s.xOffset := rfl
@[simp] theorem holdWord_yOffset (off : Nat) (v : PixelWord) (s : State) : (holdWord off v s).yOffset = s.yOffset := rfl
@[simp] theorem holdWord_phase (off : Nat) (v : PixelWord) (s : State) : (holdWord off v s).phase = s.phase := rfl
@[simp] theorem holdWord_dropCount (off : Nat) (v : PixelWord) (s : State) : (holdWord off v s).dropCount = s.dropCount := rfl
@[simp] theorem holdWord_eng (off : Nat) (v : PixelWord) (s : State) : (holdWord off v s).eng = s.eng := rfl
@[simp] theorem holdWord_work (off : Nat) (v : PixelWord) (s : State) : (holdWord off v s).work = { s.work with held := { off := off, value := v } :: s.work.held } := rfl
@[simp] theorem holdWord_rst (off : Nat) (v : PixelWord) (s : State) : (holdWord off v s).rst = s.rst := rfl
@[simp] theorem holdWord_regData (off : Nat) (v : PixelWord) (s : State) : (holdWord off v s).regData = s.regData := rfl
@[simp] theorem holdWord_mem (off : Nat) (v : PixelWord) (s : State) : (holdWord off v s).mem = s.mem := rfl
@[simp] theorem holdWord_devices (off : Nat) (v : PixelWord) (s : State) : (holdWord off v s).devices = s.devices := rfl
@[simp] theorem holdWord_moves (off : Nat) (v : PixelWord) (s : State) : (holdWord off v s).moves = s.moves := rfl
@[simp] theorem holdWord_history (off : Nat) (v : PixelWord) (s : State) : (holdWord off v s).history = s.history := rfl
@[simp] theorem holdWord_raced (off : Nat) (v : PixelWord) (s : State) : (holdWord off v s).raced = s.raced := rfl
@[simp] theorem holdWord_shown (off : Nat) (v : PixelWord) (s : State) : (holdWord off v s).shown = s.shown := rfl
@[simp] theorem holdWord_atStart (off : Nat) (v : PixelWord) (s : State) : (holdWord off v s).atStart = s.atStart := rfl
@[simp] theorem holdWord_draws (off : Nat) (v : PixelWord) (s : State) : (holdWord off v s).draws = s.draws := rfl

/-! ## finishWord -/

@[simp] theorem finishWord_irqEn (off : Nat) (s : State) : (finishWord off s).irqEn = s.irqEn := rfl
@[simp] theorem finishWord_fast (off : Nat) (s : State) : (finishWord off s).fast = s.fast := rfl
@[simp] theorem finishWord_byteClip (off : Nat) (s : State) : (finishWord off s).byteClip = s.byteClip := rfl
@[simp] theorem finishWord_done (off : Nat) (s : State) : (finishWord off s).done = s.done := rfl
@[simp] theorem finishWord_err (off : Nat) (s : State) : (finishWord off s).err = s.err := rfl
@[simp] theorem finishWord_wign (off : Nat) (s : State) : (finishWord off s).wign = s.wign := rfl
@[simp] theorem finishWord_errCode (off : Nat) (s : State) : (finishWord off s).errCode = s.errCode := rfl
@[simp] theorem finishWord_fbBase (off : Nat) (s : State) : (finishWord off s).fbBase = s.fbBase := rfl
@[simp] theorem finishWord_fbLen (off : Nat) (s : State) : (finishWord off s).fbLen = s.fbLen := rfl
@[simp] theorem finishWord_bmBase (off : Nat) (s : State) : (finishWord off s).bmBase = s.bmBase := rfl
@[simp] theorem finishWord_bmSize (off : Nat) (s : State) : (finishWord off s).bmSize = s.bmSize := rfl
@[simp] theorem finishWord_xOffset (off : Nat) (s : State) : (finishWord off s).xOffset = s.xOffset := rfl
@[simp] theorem finishWord_yOffset (off : Nat) (s : State) : (finishWord off s).yOffset = s.yOffset := rfl
@[simp] theorem finishWord_phase (off : Nat) (s : State) : (finishWord off s).phase = s.phase := rfl
@[simp] theorem finishWord_dropCount (off : Nat) (s : State) : (finishWord off s).dropCount = s.dropCount := rfl
@[simp] theorem finishWord_eng (off : Nat) (s : State) : (finishWord off s).eng = s.eng := rfl
@[simp] theorem finishWord_work (off : Nat) (s : State) : (finishWord off s).work = { s.work with held := s.work.held.filter (fun h => h.off != off), updated := off :: s.work.updated } := rfl
@[simp] theorem finishWord_rst (off : Nat) (s : State) : (finishWord off s).rst = s.rst := rfl
@[simp] theorem finishWord_regData (off : Nat) (s : State) : (finishWord off s).regData = s.regData := rfl
@[simp] theorem finishWord_mem (off : Nat) (s : State) : (finishWord off s).mem = s.mem := rfl
@[simp] theorem finishWord_devices (off : Nat) (s : State) : (finishWord off s).devices = s.devices := rfl
@[simp] theorem finishWord_moves (off : Nat) (s : State) : (finishWord off s).moves = s.moves := rfl
@[simp] theorem finishWord_history (off : Nat) (s : State) : (finishWord off s).history = s.history := rfl
@[simp] theorem finishWord_raced (off : Nat) (s : State) : (finishWord off s).raced = s.raced := rfl
@[simp] theorem finishWord_shown (off : Nat) (s : State) : (finishWord off s).shown = s.shown := rfl
@[simp] theorem finishWord_atStart (off : Nat) (s : State) : (finishWord off s).atStart = s.atStart := rfl
@[simp] theorem finishWord_draws (off : Nat) (s : State) : (finishWord off s).draws = s.draws := rfl

/-! ## addRace -/

@[simp] theorem addRace_irqEn (r : Race) (s : State) : (addRace r s).irqEn = s.irqEn := rfl
@[simp] theorem addRace_fast (r : Race) (s : State) : (addRace r s).fast = s.fast := rfl
@[simp] theorem addRace_byteClip (r : Race) (s : State) : (addRace r s).byteClip = s.byteClip := rfl
@[simp] theorem addRace_done (r : Race) (s : State) : (addRace r s).done = s.done := rfl
@[simp] theorem addRace_err (r : Race) (s : State) : (addRace r s).err = s.err := rfl
@[simp] theorem addRace_wign (r : Race) (s : State) : (addRace r s).wign = s.wign := rfl
@[simp] theorem addRace_errCode (r : Race) (s : State) : (addRace r s).errCode = s.errCode := rfl
@[simp] theorem addRace_fbBase (r : Race) (s : State) : (addRace r s).fbBase = s.fbBase := rfl
@[simp] theorem addRace_fbLen (r : Race) (s : State) : (addRace r s).fbLen = s.fbLen := rfl
@[simp] theorem addRace_bmBase (r : Race) (s : State) : (addRace r s).bmBase = s.bmBase := rfl
@[simp] theorem addRace_bmSize (r : Race) (s : State) : (addRace r s).bmSize = s.bmSize := rfl
@[simp] theorem addRace_xOffset (r : Race) (s : State) : (addRace r s).xOffset = s.xOffset := rfl
@[simp] theorem addRace_yOffset (r : Race) (s : State) : (addRace r s).yOffset = s.yOffset := rfl
@[simp] theorem addRace_phase (r : Race) (s : State) : (addRace r s).phase = s.phase := rfl
@[simp] theorem addRace_dropCount (r : Race) (s : State) : (addRace r s).dropCount = s.dropCount := rfl
@[simp] theorem addRace_eng (r : Race) (s : State) : (addRace r s).eng = s.eng := rfl
@[simp] theorem addRace_work (r : Race) (s : State) : (addRace r s).work = s.work := rfl
@[simp] theorem addRace_rst (r : Race) (s : State) : (addRace r s).rst = s.rst := rfl
@[simp] theorem addRace_regData (r : Race) (s : State) : (addRace r s).regData = s.regData := rfl
@[simp] theorem addRace_mem (r : Race) (s : State) : (addRace r s).mem = s.mem := rfl
@[simp] theorem addRace_devices (r : Race) (s : State) : (addRace r s).devices = s.devices := rfl
@[simp] theorem addRace_moves (r : Race) (s : State) : (addRace r s).moves = s.moves := rfl
@[simp] theorem addRace_history (r : Race) (s : State) : (addRace r s).history = s.history := rfl
@[simp] theorem addRace_raced (r : Race) (s : State) : (addRace r s).raced = s.raced ++ [r] := rfl
@[simp] theorem addRace_shown (r : Race) (s : State) : (addRace r s).shown = s.shown := rfl
@[simp] theorem addRace_atStart (r : Race) (s : State) : (addRace r s).atStart = s.atStart := rfl
@[simp] theorem addRace_draws (r : Race) (s : State) : (addRace r s).draws = s.draws + 1 := rfl

/-! ## showByte -/

@[simp] theorem showByte_irqEn (a : Nat) (b : Byte) (s : State) : (showByte a b s).irqEn = s.irqEn := rfl
@[simp] theorem showByte_fast (a : Nat) (b : Byte) (s : State) : (showByte a b s).fast = s.fast := rfl
@[simp] theorem showByte_byteClip (a : Nat) (b : Byte) (s : State) : (showByte a b s).byteClip = s.byteClip := rfl
@[simp] theorem showByte_done (a : Nat) (b : Byte) (s : State) : (showByte a b s).done = s.done := rfl
@[simp] theorem showByte_err (a : Nat) (b : Byte) (s : State) : (showByte a b s).err = s.err := rfl
@[simp] theorem showByte_wign (a : Nat) (b : Byte) (s : State) : (showByte a b s).wign = s.wign := rfl
@[simp] theorem showByte_errCode (a : Nat) (b : Byte) (s : State) : (showByte a b s).errCode = s.errCode := rfl
@[simp] theorem showByte_fbBase (a : Nat) (b : Byte) (s : State) : (showByte a b s).fbBase = s.fbBase := rfl
@[simp] theorem showByte_fbLen (a : Nat) (b : Byte) (s : State) : (showByte a b s).fbLen = s.fbLen := rfl
@[simp] theorem showByte_bmBase (a : Nat) (b : Byte) (s : State) : (showByte a b s).bmBase = s.bmBase := rfl
@[simp] theorem showByte_bmSize (a : Nat) (b : Byte) (s : State) : (showByte a b s).bmSize = s.bmSize := rfl
@[simp] theorem showByte_xOffset (a : Nat) (b : Byte) (s : State) : (showByte a b s).xOffset = s.xOffset := rfl
@[simp] theorem showByte_yOffset (a : Nat) (b : Byte) (s : State) : (showByte a b s).yOffset = s.yOffset := rfl
@[simp] theorem showByte_phase (a : Nat) (b : Byte) (s : State) : (showByte a b s).phase = s.phase := rfl
@[simp] theorem showByte_dropCount (a : Nat) (b : Byte) (s : State) : (showByte a b s).dropCount = s.dropCount := rfl
@[simp] theorem showByte_eng (a : Nat) (b : Byte) (s : State) : (showByte a b s).eng = s.eng := rfl
@[simp] theorem showByte_work (a : Nat) (b : Byte) (s : State) : (showByte a b s).work = s.work := rfl
@[simp] theorem showByte_rst (a : Nat) (b : Byte) (s : State) : (showByte a b s).rst = s.rst := rfl
@[simp] theorem showByte_regData (a : Nat) (b : Byte) (s : State) : (showByte a b s).regData = s.regData := rfl
@[simp] theorem showByte_mem (a : Nat) (b : Byte) (s : State) : (showByte a b s).mem = s.mem := rfl
@[simp] theorem showByte_devices (a : Nat) (b : Byte) (s : State) : (showByte a b s).devices = s.devices := rfl
@[simp] theorem showByte_moves (a : Nat) (b : Byte) (s : State) : (showByte a b s).moves = s.moves := rfl
@[simp] theorem showByte_history (a : Nat) (b : Byte) (s : State) : (showByte a b s).history = s.history := rfl
@[simp] theorem showByte_raced (a : Nat) (b : Byte) (s : State) : (showByte a b s).raced = s.raced := rfl
@[simp] theorem showByte_shown (a : Nat) (b : Byte) (s : State) : (showByte a b s).shown = if s.busy && (frameWordOf (operands s) a).isSome && s.atStart.read a != some b then (a, b) :: s.shown else s.shown := rfl
@[simp] theorem showByte_atStart (a : Nat) (b : Byte) (s : State) : (showByte a b s).atStart = s.atStart := rfl
@[simp] theorem showByte_draws (a : Nat) (b : Byte) (s : State) : (showByte a b s).draws = s.draws := rfl

/-! ## clearEngine -/

@[simp] theorem clearEngine_irqEn (s : State) : (clearEngine s).irqEn = s.irqEn := rfl
@[simp] theorem clearEngine_fast (s : State) : (clearEngine s).fast = s.fast := rfl
@[simp] theorem clearEngine_byteClip (s : State) : (clearEngine s).byteClip = s.byteClip := rfl
@[simp] theorem clearEngine_done (s : State) : (clearEngine s).done = s.done := rfl
@[simp] theorem clearEngine_err (s : State) : (clearEngine s).err = s.err := rfl
@[simp] theorem clearEngine_wign (s : State) : (clearEngine s).wign = s.wign := rfl
@[simp] theorem clearEngine_errCode (s : State) : (clearEngine s).errCode = s.errCode := rfl
@[simp] theorem clearEngine_fbBase (s : State) : (clearEngine s).fbBase = s.fbBase := rfl
@[simp] theorem clearEngine_fbLen (s : State) : (clearEngine s).fbLen = s.fbLen := rfl
@[simp] theorem clearEngine_bmBase (s : State) : (clearEngine s).bmBase = s.bmBase := rfl
@[simp] theorem clearEngine_bmSize (s : State) : (clearEngine s).bmSize = s.bmSize := rfl
@[simp] theorem clearEngine_xOffset (s : State) : (clearEngine s).xOffset = s.xOffset := rfl
@[simp] theorem clearEngine_yOffset (s : State) : (clearEngine s).yOffset = s.yOffset := rfl
@[simp] theorem clearEngine_phase (s : State) : (clearEngine s).phase = s.phase := rfl
@[simp] theorem clearEngine_dropCount (s : State) : (clearEngine s).dropCount = s.dropCount := rfl
@[simp] theorem clearEngine_eng (s : State) : (clearEngine s).eng = .idle := rfl
@[simp] theorem clearEngine_work (s : State) : (clearEngine s).work = Work.empty := rfl
@[simp] theorem clearEngine_rst (s : State) : (clearEngine s).rst = s.rst := rfl
@[simp] theorem clearEngine_regData (s : State) : (clearEngine s).regData = s.regData := rfl
@[simp] theorem clearEngine_mem (s : State) : (clearEngine s).mem = s.mem := rfl
@[simp] theorem clearEngine_devices (s : State) : (clearEngine s).devices = s.devices := rfl
@[simp] theorem clearEngine_moves (s : State) : (clearEngine s).moves = s.moves := rfl
@[simp] theorem clearEngine_history (s : State) : (clearEngine s).history = s.history := rfl
@[simp] theorem clearEngine_raced (s : State) : (clearEngine s).raced = [] := rfl
@[simp] theorem clearEngine_shown (s : State) : (clearEngine s).shown = [] := rfl
@[simp] theorem clearEngine_atStart (s : State) : (clearEngine s).atStart = [] := rfl
@[simp] theorem clearEngine_draws (s : State) : (clearEngine s).draws = s.draws := rfl

/-! ## completeCommand -/

@[simp] theorem completeCommand_irqEn (s : State) : (completeCommand s).irqEn = s.irqEn := rfl
@[simp] theorem completeCommand_fast (s : State) : (completeCommand s).fast = s.fast := rfl
@[simp] theorem completeCommand_byteClip (s : State) : (completeCommand s).byteClip = s.byteClip := rfl
@[simp] theorem completeCommand_done (s : State) : (completeCommand s).done = true := rfl
@[simp] theorem completeCommand_err (s : State) : (completeCommand s).err = s.err := rfl
@[simp] theorem completeCommand_wign (s : State) : (completeCommand s).wign = s.wign := rfl
@[simp] theorem completeCommand_errCode (s : State) : (completeCommand s).errCode = s.errCode := rfl
@[simp] theorem completeCommand_fbBase (s : State) : (completeCommand s).fbBase = s.fbBase := rfl
@[simp] theorem completeCommand_fbLen (s : State) : (completeCommand s).fbLen = s.fbLen := rfl
@[simp] theorem completeCommand_bmBase (s : State) : (completeCommand s).bmBase = s.bmBase := rfl
@[simp] theorem completeCommand_bmSize (s : State) : (completeCommand s).bmSize = s.bmSize := rfl
@[simp] theorem completeCommand_xOffset (s : State) : (completeCommand s).xOffset = s.xOffset := rfl
@[simp] theorem completeCommand_yOffset (s : State) : (completeCommand s).yOffset = s.yOffset := rfl
@[simp] theorem completeCommand_phase (s : State) : (completeCommand s).phase = s.phase := rfl
@[simp] theorem completeCommand_dropCount (s : State) : (completeCommand s).dropCount = BitVec.ofNat 32 (droppedCount (operands s) (landed s)) := rfl
@[simp] theorem completeCommand_eng (s : State) : (completeCommand s).eng = .idle := rfl
@[simp] theorem completeCommand_work (s : State) : (completeCommand s).work = Work.empty := rfl
@[simp] theorem completeCommand_rst (s : State) : (completeCommand s).rst = s.rst := rfl
@[simp] theorem completeCommand_regData (s : State) : (completeCommand s).regData = s.regData := rfl
@[simp] theorem completeCommand_mem (s : State) : (completeCommand s).mem = s.mem := rfl
@[simp] theorem completeCommand_devices (s : State) : (completeCommand s).devices = s.devices := rfl
@[simp] theorem completeCommand_moves (s : State) : (completeCommand s).moves = s.moves := rfl
@[simp] theorem completeCommand_history (s : State) : (completeCommand s).history = s.history := rfl
@[simp] theorem completeCommand_raced (s : State) : (completeCommand s).raced = [] := rfl
@[simp] theorem completeCommand_shown (s : State) : (completeCommand s).shown = [] := rfl
@[simp] theorem completeCommand_atStart (s : State) : (completeCommand s).atStart = [] := rfl
@[simp] theorem completeCommand_draws (s : State) : (completeCommand s).draws = s.draws := rfl

/-! ## acceptCommand -/

@[simp] theorem acceptCommand_irqEn (s : State) : (acceptCommand s).irqEn = s.irqEn := rfl
@[simp] theorem acceptCommand_fast (s : State) : (acceptCommand s).fast = s.fast := rfl
@[simp] theorem acceptCommand_byteClip (s : State) : (acceptCommand s).byteClip = s.byteClip := rfl
@[simp] theorem acceptCommand_done (s : State) : (acceptCommand s).done = s.done := rfl
@[simp] theorem acceptCommand_err (s : State) : (acceptCommand s).err = s.err := rfl
@[simp] theorem acceptCommand_wign (s : State) : (acceptCommand s).wign = s.wign := rfl
@[simp] theorem acceptCommand_errCode (s : State) : (acceptCommand s).errCode = s.errCode := rfl
@[simp] theorem acceptCommand_fbBase (s : State) : (acceptCommand s).fbBase = s.fbBase := rfl
@[simp] theorem acceptCommand_fbLen (s : State) : (acceptCommand s).fbLen = s.fbLen := rfl
@[simp] theorem acceptCommand_bmBase (s : State) : (acceptCommand s).bmBase = s.bmBase := rfl
@[simp] theorem acceptCommand_bmSize (s : State) : (acceptCommand s).bmSize = s.bmSize := rfl
@[simp] theorem acceptCommand_xOffset (s : State) : (acceptCommand s).xOffset = s.xOffset := rfl
@[simp] theorem acceptCommand_yOffset (s : State) : (acceptCommand s).yOffset = s.yOffset := rfl
@[simp] theorem acceptCommand_phase (s : State) : (acceptCommand s).phase = s.phase := rfl
@[simp] theorem acceptCommand_dropCount (s : State) : (acceptCommand s).dropCount = s.dropCount := rfl
@[simp] theorem acceptCommand_eng (s : State) : (acceptCommand s).eng = .busy := rfl
@[simp] theorem acceptCommand_work (s : State) : (acceptCommand s).work = startWork (operands s) := rfl
@[simp] theorem acceptCommand_rst (s : State) : (acceptCommand s).rst = s.rst := rfl
@[simp] theorem acceptCommand_regData (s : State) : (acceptCommand s).regData = s.regData := rfl
@[simp] theorem acceptCommand_mem (s : State) : (acceptCommand s).mem = s.mem := rfl
@[simp] theorem acceptCommand_devices (s : State) : (acceptCommand s).devices = s.devices := rfl
@[simp] theorem acceptCommand_moves (s : State) : (acceptCommand s).moves = s.moves := rfl
@[simp] theorem acceptCommand_history (s : State) : (acceptCommand s).history = s.history := rfl
@[simp] theorem acceptCommand_raced (s : State) : (acceptCommand s).raced = [] := rfl
@[simp] theorem acceptCommand_shown (s : State) : (acceptCommand s).shown = [] := rfl
@[simp] theorem acceptCommand_atStart (s : State) : (acceptCommand s).atStart = s.mem := rfl
@[simp] theorem acceptCommand_draws (s : State) : (acceptCommand s).draws = s.draws := rfl

/-! ## assertReset -/

@[simp] theorem assertReset_irqEn (s : State) : (assertReset s).irqEn = false := rfl
@[simp] theorem assertReset_fast (s : State) : (assertReset s).fast = false := rfl
@[simp] theorem assertReset_byteClip (s : State) : (assertReset s).byteClip = false := rfl
@[simp] theorem assertReset_done (s : State) : (assertReset s).done = false := rfl
@[simp] theorem assertReset_err (s : State) : (assertReset s).err = false := rfl
@[simp] theorem assertReset_wign (s : State) : (assertReset s).wign = false := rfl
@[simp] theorem assertReset_errCode (s : State) : (assertReset s).errCode = .none := rfl
@[simp] theorem assertReset_fbBase (s : State) : (assertReset s).fbBase = 0 := rfl
@[simp] theorem assertReset_fbLen (s : State) : (assertReset s).fbLen = 0 := rfl
@[simp] theorem assertReset_bmBase (s : State) : (assertReset s).bmBase = 0 := rfl
@[simp] theorem assertReset_bmSize (s : State) : (assertReset s).bmSize = 0 := rfl
@[simp] theorem assertReset_xOffset (s : State) : (assertReset s).xOffset = 0 := rfl
@[simp] theorem assertReset_yOffset (s : State) : (assertReset s).yOffset = 0 := rfl
@[simp] theorem assertReset_phase (s : State) : (assertReset s).phase = 0 := rfl
@[simp] theorem assertReset_dropCount (s : State) : (assertReset s).dropCount = 0 := rfl
@[simp] theorem assertReset_eng (s : State) : (assertReset s).eng = .idle := rfl
@[simp] theorem assertReset_work (s : State) : (assertReset s).work = Work.empty := rfl
@[simp] theorem assertReset_rst (s : State) : (assertReset s).rst = true := rfl
@[simp] theorem assertReset_regData (s : State) : (assertReset s).regData = s.regData := rfl
@[simp] theorem assertReset_mem (s : State) : (assertReset s).mem = (abandonCommand s).mem := rfl
@[simp] theorem assertReset_devices (s : State) : (assertReset s).devices = s.devices := rfl
@[simp] theorem assertReset_moves (s : State) : (assertReset s).moves = s.moves := rfl
@[simp] theorem assertReset_history (s : State) : (assertReset s).history = (abandonCommand s).history := rfl
@[simp] theorem assertReset_raced (s : State) : (assertReset s).raced = [] := rfl
@[simp] theorem assertReset_shown (s : State) : (assertReset s).shown = [] := rfl
@[simp] theorem assertReset_atStart (s : State) : (assertReset s).atStart = [] := rfl
@[simp] theorem assertReset_draws (s : State) : (assertReset s).draws = (abandonCommand s).draws := rfl

end Sys2Proof.Machine
end

