-- ==== Sys2Proof/Laws/Ops.lean ====
section
/-! SUPPORT. What each shared operation can answer, said once: the register stores, the CTRL write, the
start of a DRAW_CHAR, and the bit and word forms of the registers. -/

namespace Sys2Proof.Machine

/-! ## Operands -/

@[simp] theorem operands_logEvent (e : MemEvent) (s : State) : operands (logEvent e s) = operands s := rfl
@[simp] theorem operands_drawIf (b : Bool) (s : State) : operands (drawIf b s) = operands s := rfl
@[simp] theorem operands_holdWord (off : Nat) (v : PixelWord) (s : State) : operands (holdWord off v s) = operands s := rfl
@[simp] theorem operands_finishWord (off : Nat) (s : State) : operands (finishWord off s) = operands s := rfl
@[simp] theorem operands_addRace (r : Race) (s : State) : operands (addRace r s) = operands s := rfl
@[simp] theorem operands_showByte (a : Nat) (b : Byte) (s : State) : operands (showByte a b s) = operands s := rfl
@[simp] theorem operands_clearEngine (s : State) : operands (clearEngine s) = operands s := rfl
@[simp] theorem operands_completeCommand (s : State) : operands (completeCommand s) = operands s := rfl
@[simp] theorem operands_acceptCommand (s : State) : operands (acceptCommand s) = operands s := rfl
@[simp] theorem operands_setWign (s : State) : operands (setWign s) = operands s := rfl
@[simp] theorem operands_commandStart (s : State) : operands (commandStart s) = operands s := rfl
@[simp] theorem operands_raiseCmdError (c : ErrCode) (s : State) : operands (raiseCmdError c s) = operands s := rfl
@[simp] theorem operands_acknowledge (f : StatusFields) (s : State) : operands (acknowledge f s) = operands s := rfl
@[simp] theorem operands_readRegister (r : RegName) (s : State) : operands (readRegister r s) = operands s := rfl
@[simp] theorem operands_storeCtrl (f : CtrlFields) (s : State) :
    operands (storeCtrl f s) = { operands s with byteClip := f.byteClip } := rfl

/-! ## Constant registers -/

theorem geomSizeWord_eq : geomSizeWord = 0x0750057C := by decide +kernel
theorem geomMarginWord_eq : geomMarginWord = 0x00080008 := by decide +kernel
theorem geomStrideWord_eq : geomStrideWord = 0x00000580 := by decide +kernel

/-- GEOM_PACK for both values of HAS_FAST_PATH (R89). -/
theorem geomPackWord_eq : geomPackWord = if Config.hasFastPath then 0x05020208 else 0x01020208 := by
  unfold geomPackWord; generalize Config.hasFastPath = b; cases b <;> decide +kernel

/-! ## Register writes -/

/-- An operand write answers a next state: the store while idle, WIGN while busy. -/
theorem operandWrite_next (stored s t : State) (h : operandWrite stored s = .next t) :
    (s.eng = .idle ∧ t = stored) ∨ (s.eng = .busy ∧ t = setWign s) := by
  unfold operandWrite at h
  split at h <;> simp_all

/-- A CTRL write is lost with WIGN while busy; while idle the command acts on the stored fields. -/
theorem ctrlWrite_cases (f : CtrlFields) (command : State → Host.Outcome State Fault Refusal) (s : State) :
    (s.eng = .busy ∧ ctrlWrite f command s = .next (setWign s))
      ∨ (s.eng = .idle ∧ ctrlWrite f command s = command (storeCtrl f s)) := by
  unfold ctrlWrite
  split <;> simp_all

/-- The start of a DRAW_CHAR is rejected with its first failing check, refused on memory with side effects,
or accepted. -/
theorem drawCharStart_cases (s : State) :
    (∃ c, startError (operands s) = some c ∧ drawCharStart s = .next (raiseCmdError c s))
      ∨ (startError (operands s) = none ∧ onDevice s.devices (operands s) = true
          ∧ drawCharStart s = .refused .rangeOnDevice)
      ∨ (startError (operands s) = none ∧ onDevice s.devices (operands s) = false
          ∧ drawCharStart s = .next (acceptCommand s)) := by
  unfold drawCharStart
  cases h : startError (operands s) with
  | some c => exact .inl ⟨c, rfl, rfl⟩
  | none => cases hd : onDevice s.devices (operands s) <;> simp

end Sys2Proof.Machine
end

