-- ==== Sys2Proof/Laws/Lanes.lean ====
section
/-! SUPPORT. Lanes of a word: the shifts of the eight lanes, and sets of lanes written one after the other. -/

namespace Sys2Proof.Machine

/-- The shift of a lane is 14 - 2*i (R126). -/
theorem laneShift_eq (i : Fin 8) : laneShift i = 14 - 2 * i.val := by
  simp only [laneShift, Config.packedPixels, Config.bitsPerPixel]; omega

@[simp] theorem setLanes_nil (v : PixelWord) (p : BitVec 2) : setLanes v [] p = v := rfl

theorem setLanes_cons (v : PixelWord) (i : Fin 8) (lanes : List (Fin 8)) (p : BitVec 2) :
    setLanes v (i :: lanes) p = setLanes (setLane v i p) lanes p := rfl

@[simp] theorem setClipLanes_nil (c : Byte) (p : BitVec 2) : setClipLanes c [] p = c := rfl

theorem setClipLanes_cons (c : Byte) (i : Fin 8) (lanes : List (Fin 8)) (p : BitVec 2) :
    setClipLanes c (i :: lanes) p = setClipLanes (setClipLane c i p) lanes p := rfl

/-- A written lane is one of the word's lanes, under every fate. -/
theorem mem_writtenLanes (order : ByteOrder) (fate : WordFate) (lanes : List (Fin 8)) (i : Fin 8)
    (h : i ∈ writtenLanes order fate lanes) : i ∈ lanes := by
  cases fate with
  | whole => exact h
  | firstByte => exact (List.mem_filter.mp h).1
  | dropped => simp [writtenLanes] at h

/-- The guard: which fate a word has (R127, R128). -/
theorem wordFate_cases (o : Operands) (off : Nat) :
    (wordFate o off = .whole ∧ off + 1 < o.fbLen)
      ∨ (wordFate o off = .firstByte ∧ o.byteClip = true ∧ off + 1 = o.fbLen)
      ∨ (wordFate o off = .dropped ∧ ¬ off + 1 < o.fbLen ∧ (o.byteClip = false ∨ o.fbLen ≤ off)) := by
  unfold wordFate
  simp only [Config.wordBytes]
  by_cases h1 : off + 1 < o.fbLen
  · exact .inl ⟨if_pos (by omega), h1⟩
  · rw [if_neg (by omega)]
    by_cases h2 : o.byteClip = true ∧ off < o.fbLen
    · exact .inr (.inl ⟨if_pos (by simp [h2]), h2.1, by omega⟩)
    · refine .inr (.inr ⟨if_neg (by simpa using h2), h1, ?_⟩)
      cases hb : o.byteClip
      · exact .inl rfl
      · right; exact Nat.le_of_not_lt (fun h => h2 ⟨hb, h⟩)

end Sys2Proof.Machine
end

