-- ==== Sys2Proof/Laws/Operands.lean ====
section
/-! SUPPORT. Address ranges and the start checks as plain arithmetic. -/

namespace Sys2Proof.Machine

theorem Region.covers_iff (r : Region) (a : Nat) : r.covers a = true ↔ r.base ≤ a ∧ a < r.base + r.len := by
  simp [Region.covers]

theorem Region.wraps_iff (r : Region) : r.wraps = true ↔ Config.memSize < r.base + r.len := decide_eq_true_iff

theorem Region.overlaps_iff (r q : Region) :
    r.overlaps q = true ↔ 0 < r.len ∧ 0 < q.len ∧ r.base < q.base + q.len ∧ q.base < r.base + r.len := by
  simp [Region.overlaps, and_assoc]

/-- No check fails exactly when FB_BASE is even, no range wraps and the ranges share no byte. -/
theorem startError_eq_none (o : Operands) :
    startError o = none ↔
      o.fbBase % 2 = 0 ∧ o.fbBase + o.fbLen ≤ Config.memSize ∧ o.bmBase + o.w * o.h ≤ Config.memSize
        ∧ ¬ (0 < o.fbLen ∧ 0 < o.w * o.h ∧ o.fbBase < o.bmBase + o.w * o.h ∧ o.bmBase < o.fbBase + o.fbLen) := by
  have hw := Region.wraps_iff
  have ho := Region.overlaps_iff
  unfold startError
  by_cases h1 : o.fbBase % 2 = 1
  · rw [if_pos h1]; simp only [reduceCtorEq, false_iff]; omega
  by_cases h2 : (frameRange o).wraps = true
  · rw [if_neg h1, if_pos h2]; rw [hw] at h2; simp only [frameRange] at h2
    simp only [reduceCtorEq, false_iff]; omega
  by_cases h3 : (bitmapRange o).wraps = true
  · rw [if_neg h1, if_neg h2, if_pos h3]; rw [hw] at h3; simp only [bitmapRange] at h3
    simp only [reduceCtorEq, false_iff]; omega
  rw [hw] at h2 h3
  by_cases h4 : (frameRange o).overlaps (bitmapRange o) = true
  · rw [if_neg h1, if_neg (by rwa [hw]), if_neg (by rwa [hw]), if_pos h4]
    rw [ho] at h4; simp only [frameRange, bitmapRange] at h4
    simp only [reduceCtorEq, false_iff]; tauto
  · rw [if_neg h1, if_neg (by rwa [hw]), if_neg (by rwa [hw]), if_neg h4]
    rw [ho] at h4; simp only [frameRange, bitmapRange] at h2 h3 h4
    exact ⟨fun _ => ⟨by omega, by omega, by omega, h4⟩, fun _ => rfl⟩

/-- Every error a start check names is one of the codes 2 to 5. -/
theorem startError_ne_none (o : Operands) (c : ErrCode) (h : startError o = some c) : c ≠ .none := by
  unfold startError at h
  split at h <;> [skip; split at h <;> [skip; split at h <;> [skip; split at h]]] <;> simp_all <;>
    (subst h; decide)

end Sys2Proof.Machine
end

