-- ==== Sys2Proof/Laws/Pixels.lean ====
section
/-! SUPPORT. Which pixels the clips keep, where they land, and the addresses of their bytes. -/

namespace Sys2Proof.Machine

theorem rowKept_iff (ypos : Int) : rowKept ypos = true ↔ 0 ≤ ypos ∧ ypos < 1872 := by
  simp [rowKept, Config.bufHeight]

theorem columnKept_iff (bx : Int) : columnKept bx = true ↔ 8 ≤ bx ∧ bx < 1404 := by
  simp [columnKept, Config.leftMargin, Config.bufWidth]

theorem mem_rowPixels (o : Operands) (keep : Bool) (y : Nat) (p : Pixel) :
    p ∈ rowPixels o keep y ↔ p.y = y ∧ p.x < o.w ∧ columnKept (bufferX o.xo p.x) = keep := by
  obtain ⟨px, py⟩ := p
  simp only [rowPixels, List.mem_map, List.mem_filter, List.mem_range, beq_iff_eq, Pixel.mk.injEq]
  constructor
  · rintro ⟨x, ⟨h1, h2⟩, rfl, rfl⟩; exact ⟨rfl, h1, h2⟩
  · rintro ⟨rfl, h1, h2⟩; exact ⟨px, ⟨h1, h2⟩, rfl, rfl⟩

theorem mem_keptRows (o : Operands) (y : Nat) :
    y ∈ keptRows o ↔ y < o.h ∧ 0 ≤ (y : Int) + o.yo ∧ (y : Int) + o.yo < 1872 := by
  simp [keptRows, rowKept_iff, bufferYPos]

/-- The pixels that pass both clips (R116, R119). -/
theorem mem_keptPixels (o : Operands) (p : Pixel) :
    p ∈ keptPixels o ↔ p.x < o.w ∧ p.y < o.h ∧ (0 ≤ (p.y : Int) + o.yo ∧ (p.y : Int) + o.yo < 1872)
      ∧ (8 ≤ (p.x : Int) + o.xo ∧ (p.x : Int) + o.xo < 1404) := by
  simp only [keptPixels, List.mem_flatMap, mem_rowPixels, mem_keptRows, columnKept_iff, bufferX]
  constructor
  · rintro ⟨y, ⟨h1, h2⟩, rfl, h3, h4⟩; exact ⟨h3, h1, h2, h4⟩
  · rintro ⟨h1, h2, h3, h4⟩; exact ⟨p.y, ⟨h2, h3⟩, rfl, h1, h4⟩

/-- The pixels of kept rows that fail the column clip. -/
theorem mem_clippedPixels (o : Operands) (p : Pixel) :
    p ∈ clippedPixels o ↔ p.x < o.w ∧ p.y < o.h ∧ (0 ≤ (p.y : Int) + o.yo ∧ (p.y : Int) + o.yo < 1872)
      ∧ ¬ (8 ≤ (p.x : Int) + o.xo ∧ (p.x : Int) + o.xo < 1404) := by
  simp only [clippedPixels, List.mem_flatMap, mem_rowPixels, mem_keptRows, ← columnKept_iff, bufferX,
    Bool.not_eq_true]
  constructor
  · rintro ⟨y, ⟨h1, h2⟩, rfl, h3, h4⟩; exact ⟨h3, h1, h2, h4⟩
  · rintro ⟨h1, h2, h3, h4⟩; exact ⟨p.y, ⟨h2, h3⟩, rfl, h1, h4⟩

/-- No pixel occurs twice among the kept ones. -/
theorem keptPixels_nodup (o : Operands) : (keptPixels o).Nodup := by
  rw [keptPixels, List.nodup_flatMap]
  refine ⟨fun y _ => ?_, ?_⟩
  · exact (List.nodup_range.filter _).map (fun a b h => by simpa using h)
  · refine (List.nodup_range.filter _).imp ?_
    intro a b hab p hpa hpb
    rw [mem_rowPixels] at hpa hpb
    exact hab (hpa.1.symm.trans hpb.1)

/-- The byte of a bitmap pixel lies in the bitmap range (R52). -/
theorem bitmapAddr_in_range (o : Operands) (p : Pixel) (hx : p.x < o.w) (hy : p.y < o.h) :
    (bitmapRange o).covers (bitmapAddr o p) = true := by
  have h1 : p.y * o.w + o.w ≤ o.w * o.h := by
    calc p.y * o.w + o.w = (p.y + 1) * o.w := by ring
      _ ≤ o.h * o.w := Nat.mul_le_mul_right _ hy
      _ = o.w * o.h := Nat.mul_comm _ _
  rw [Region.covers_iff]
  simp only [bitmapRange, bitmapAddr]
  omega

end Sys2Proof.Machine
end

