-- ==== Sys2Proof/Laws/Engine.lean ====
section
/-! SUPPORT. What an engine move can be and what each move does: one inversion lemma for the choice, one for
each action, membership in the landed pixels and in the pending words. -/

namespace Sys2Proof.Machine

/-! ## The choice -/

theorem pickAction_mem (k : Nat) (l : List Action) (a : Action) (h : pickAction k l = some a) : a ∈ l := by
  match l, h with
  | [b], h => simp only [pickAction, Option.some.injEq] at h; simp [h]
  | b :: c :: l, h => exact List.mem_of_getElem? h

/-- A choice always names a move when there is one. -/
theorem pickAction_isSome (k : Nat) (l : List Action) (h : l ≠ []) : (pickAction k l).isSome = true := by
  match l, h with
  | [b], _ => rfl
  | b :: c :: l, _ =>
    have hk : k % (l.length + 2) < (b :: c :: l).length := Nat.mod_lt _ (by omega)
    simp only [pickAction, List.getElem?_eq_getElem hk, Option.isSome_some]

/-! ## The work -/

theorem mem_landed (s : State) (p : Pixel) :
    p ∈ landed s ↔ p ∈ keptPixels (operands s) ∧ drawsAt s (bitmapAddr (operands s) p) = true := by
  simp [landed, List.mem_filter]

/-- A pixel draws by the byte at acceptance where no other agent has written before its read. -/
theorem drawsAt_of_raceAt_none (s : State) (a : Nat) (h : raceAt s a = none) : drawsAt s a = opaqueAt s.atStart a := by
  simp [drawsAt, h]

theorem landed_of_raceAt_none (s : State) (h : ∀ p ∈ keptPixels (operands s), raceAt s (bitmapAddr (operands s) p) = none) :
    landed s = landedPixels (operands s) s.atStart :=
  List.filter_congr fun p hp => drawsAt_of_raceAt_none s _ (h p hp)

/-- With no byte written by another agent the landed pixels are those of memory at acceptance. -/
theorem landed_of_raced_nil (s : State) (h : s.raced = []) : landed s = landedPixels (operands s) s.atStart :=
  landed_of_raceAt_none s fun _ _ => by simp [raceAt, h]

/-- A word is raced when another agent has written one of its bytes. -/
theorem racedWord_eq_none (s : State) (off : Nat) :
    racedWord s off = none ↔ ∀ r ∈ s.raced, r.addr ∉ wordAddrs (operands s) off := by
  simp [racedWord]

theorem mem_addOffset (off b : Nat) (offs : List Nat) : b ∈ addOffset off offs ↔ b = off ∨ b ∈ offs := by
  unfold addOffset
  split
  · rename_i h
    constructor
    · exact .inr
    · rintro (rfl | hb)
      · simpa using h
      · exact hb
  · simp

theorem nodup_addOffset (off : Nat) (offs : List Nat) (h : offs.Nodup) : (addOffset off offs).Nodup := by
  unfold addOffset
  split
  · exact h
  · rename_i hc; exact List.nodup_cons.mpr ⟨by simpa using hc, h⟩

/-- The offsets of a list of pixels, each once. -/
theorem mem_foldr_addOffset (o : Operands) (b : Nat) (ps : List Pixel) :
    b ∈ ps.foldr (fun p offs => addOffset (pixelOffset o p) offs) [] ↔ ∃ p ∈ ps, pixelOffset o p = b := by
  induction ps with
  | nil => simp
  | cons p ps ih =>
    rw [List.foldr_cons, mem_addOffset, ih]
    simp [eq_comm]

/-- The words still to update: a landed pixel that is not dropped lies in them, and they are not written. -/
theorem mem_pendingWords (s : State) (off : Nat) :
    off ∈ pendingWords s ↔
      (∃ p ∈ landed s, pixelDropped (operands s) p = false ∧ pixelOffset (operands s) p = off)
        ∧ off ∉ s.work.updated := by
  rw [pendingWords, List.mem_filter, mem_foldr_addOffset]
  simp [List.mem_filter, and_assoc]

theorem nodup_pendingWords (s : State) : (pendingWords s).Nodup := by
  refine List.Nodup.filter _ ?_
  generalize (landed s).filter (fun p => !pixelDropped (operands s) p) = ps
  induction ps with
  | nil => simp
  | cons p ps ih => exact nodup_addOffset _ _ ih

/-- A word may be written when no pixel landing in it is still to be read. -/
theorem settled_iff (s : State) (off : Nat) :
    settled s off = true ↔ ∀ p ∈ s.work.toRead, pixelOffset (operands s) p = off → p ∉ landed s := by
  simp [settled, imp_iff_not_or]

/-- What a pending word admits. -/
theorem mem_wordActions (s : State) (off : Nat) (a : Action) :
    a ∈ wordActions s off ↔
      (a = .readFrame off ∧ heldValue off s.work.held = none)
        ∨ (a = .writeFrame off ∧ (heldValue off s.work.held).isSome = true ∧ settled s off = true) := by
  unfold wordActions
  cases heldValue off s.work.held with
  | none => simp
  | some v => by_cases h : settled s off = true <;> simp [h]

/-- What the engine may do next. -/
theorem mem_engineActions (s : State) (a : Action) :
    a ∈ engineActions s ↔
      (∃ p ∈ s.work.toRead, a = .readPixel p) ∨ (∃ p ∈ s.work.mayRead, a = .readClipped p)
        ∨ (∃ off ∈ pendingWords s, a ∈ wordActions s off)
        ∨ (a = .complete ∧ s.work.toRead = [] ∧ pendingWords s = []) := by
  simp only [engineActions, List.mem_append, List.mem_map, List.mem_flatMap, Bool.and_eq_true,
    List.isEmpty_iff, eq_comm (b := a), or_assoc]
  refine or_congr_right (or_congr_right (or_congr_right ?_))
  split
  · rename_i h; simp [h]
  · rename_i h; simp [h]

/-- A busy engine always has a move: nothing but an unbacked address can hold it. -/
theorem engineActions_ne_nil (s : State) : engineActions s ≠ [] := by
  intro h
  have none_mem : ∀ a, a ∉ engineActions s := by simp [h]
  cases hr : s.work.toRead with
  | cons p _ => exact none_mem (.readPixel p) ((mem_engineActions s _).mpr (.inl ⟨p, by simp [hr], rfl⟩))
  | nil =>
    cases hp : pendingWords s with
    | nil => exact none_mem .complete ((mem_engineActions s _).mpr (.inr (.inr (.inr ⟨rfl, hr, hp⟩))))
    | cons off _ =>
      have hs : settled s off = true := by simp [settled, hr]
      have admits : ∀ a, a ∉ wordActions s off := fun a ha =>
        none_mem a ((mem_engineActions s a).mpr (.inr (.inr (.inl ⟨off, by simp [hp], ha⟩))))
      cases hv : heldValue off s.work.held with
      | none => exact admits (.readFrame off) ((mem_wordActions s off _).mpr (.inl ⟨rfl, hv⟩))
      | some v => exact admits (.writeFrame off) ((mem_wordActions s off _).mpr (.inr ⟨rfl, by simp [hv], hs⟩))

/-! ## The move -/

/-- An engine move: nothing while idle, else one of the admissible actions. -/
theorem engineMove_cases (k : Nat) (s : State) :
    (s.eng = .idle ∧ engineMove k s = .ok s)
      ∨ (s.eng = .busy ∧ ∃ a, pickAction k (engineActions s) = some a ∧ a ∈ engineActions s
          ∧ engineMove k s = performAction a s) := by
  unfold engineMove
  cases h : s.eng with
  | idle => exact .inl ⟨rfl, rfl⟩
  | busy =>
    obtain ⟨a, ha⟩ := Option.isSome_iff_exists.mp (pickAction_isSome k _ (engineActions_ne_nil s))
    exact .inr ⟨rfl, a, ha, pickAction_mem _ _ _ ha, by simp [ha]⟩

/-- The state after an engine move: unchanged, or the result of one admissible action. -/
theorem afterEngine_cases (k : Nat) (s : State) :
    afterEngine k s = s
      ∨ (s.eng = .busy ∧ ∃ a ∈ engineActions s, performAction a s = .ok (afterEngine k s)) := by
  unfold afterEngine
  rcases engineMove_cases k s with ⟨_, he⟩ | ⟨hb, a, -, ha, he⟩
  · rw [he]; exact .inl rfl
  · rw [he]
    cases hp : performAction a s with
    | ok t => exact .inr ⟨hb, a, ha, hp⟩
    | error b => exact .inl rfl

/-- A property of states that each admissible action of a busy engine and each draw keep holds after a run of
engine moves. -/
theorem engineRun_induct (P : State → Prop)
    (draw : ∀ s, P s → P { s with draws := s.draws + 1 })
    (act : ∀ s a t, P s → s.eng = .busy → a ∈ engineActions s → performAction a s = .ok t → P t)
    (n : Nat) (s : State) (h : P s) : P (engineRun n s) := by
  induction n generalizing s with
  | zero => exact h
  | succ n ih =>
    refine ih _ ?_
    rcases afterEngine_cases (Config.engineOrder s.draws) { s with draws := s.draws + 1 } with e | ⟨hb, a, ha, hp⟩
    · rw [e]; exact draw s h
    · exact act _ a _ (draw s h) hb ha hp

/-! ## Each action -/

/-- A bitmap read of either kind: its pixel leaves its list, and the read enters the history. -/
theorem readPixelStep_ok (p : Pixel) (s t : State) (h : readPixelStep p s = .ok t) :
    ∃ b, bitmapByte s (bitmapAddr (operands s) p) = some b ∧
      t = logEngine .read (bitmapAddr (operands s) p) 1 (b.setWidth 16)
        { s with work := { s.work with toRead := s.work.toRead.erase p } } := by
  simp only [readPixelStep] at h
  split at h
  · simp at h
  · rename_i b hb; exact ⟨b, hb, by simpa using h.symm⟩

theorem readClippedStep_ok (p : Pixel) (s t : State) (h : readClippedStep p s = .ok t) :
    ∃ b, bitmapByte s (bitmapAddr (operands s) p) = some b ∧
      t = logEngine .read (bitmapAddr (operands s) p) 1 (b.setWidth 16)
        { s with work := { s.work with mayRead := s.work.mayRead.erase p } } := by
  simp only [readClippedStep] at h
  split at h
  · simp at h
  · rename_i b hb; exact ⟨b, hb, by simpa using h.symm⟩

/-- A frame read: the size of the access is the fate's, the value enters the holding register, and nothing
else of the machine changes. -/
theorem readFrameStep_ok (off : Nat) (s t : State) (h : readFrameStep off s = .ok t) :
    ∃ size v,
      ((wordFate (operands s) off = .whole ∧ size = 2
          ∧ s.mem.readWord ((operands s).fbBase + off) = some v)
        ∨ (wordFate (operands s) off ≠ .whole ∧ size = 1
          ∧ ∃ b, s.mem.read ((operands s).fbBase + off) = some b ∧ v = b.setWidth 16))
      ∧ t = logEngine .read ((operands s).fbBase + off) size v (holdWord off v s) := by
  simp only [readFrameStep] at h
  cases hf : wordFate (operands s) off <;> simp only [hf] at h
  · cases hv : s.mem.readWord ((operands s).fbBase + off) <;> simp only [hv] at h
    · simp at h
    · exact ⟨2, _, .inl ⟨rfl, rfl, rfl⟩, by simpa using h.symm⟩
  all_goals
    cases hv : s.mem.read ((operands s).fbBase + off) <;> simp only [hv] at h
    · simp at h
    · exact ⟨1, _, .inr ⟨by simp, rfl, _, rfl, rfl⟩, by simpa using h.symm⟩

/-- A frame write: the word is finished, and it or its byte holds the held value with the lanes set, or the
free value of a raced word. -/
theorem writeFrameStep_ok (off : Nat) (s t : State) (held : PixelWord)
    (hj : heldValue off s.work.held = some held) (h : writeFrameStep off s = .ok t) :
    let o := operands s
    let lanes := wordLanes o (landed s) off
    ∃ size v m,
      ((wordFate o off = .whole ∧ size = 2 ∧ m = s.mem.writeWord (o.fbBase + off) v
          ∧ v = (racedWord s off).getD (setLanes held lanes o.phase))
        ∨ (wordFate o off ≠ .whole ∧ size = 1
          ∧ ∃ c : Byte, v = c.setWidth 16 ∧ m = s.mem.write (o.fbBase + off) c
            ∧ c = ((racedWord s off).map (fun w => w.setWidth 8)).getD
                (setClipLanes (held.setWidth 8) lanes o.phase)))
      ∧ t = logEngine .write (o.fbBase + off) size v { finishWord off s with mem := m } := by
  intro o lanes
  simp only [writeFrameStep, hj] at h
  cases hf : wordFate (operands s) off <;> simp only [hf] at h
  · exact ⟨2, _, _, .inl ⟨rfl, rfl, rfl, rfl⟩, by simpa [lanes, o] using h.symm⟩
  · exact ⟨1, _, _, .inr ⟨by simp, rfl, _, rfl, rfl, rfl⟩, by simpa [lanes, o] using h.symm⟩
  · exact ⟨1, _, _, .inr ⟨by simp, rfl, _, rfl, rfl, rfl⟩, by simpa [lanes, o] using h.symm⟩

end Sys2Proof.Machine
end

