-- ==== Sys2Proof/Laws/PerInstr.lean ====
section
/-! SUPPORT. For every constructor of Instr: its encoding matches its row of spec/opcode_table.json. -/

namespace Sys2Proof.Laws

/-- The mask of an instruction's row. -/
def rowMask : Instr → Txn
  | .nop _ | .drawChar _ => 0x1F0000000F
  | .reservedCmd23 _ _ => 0x1F0000000E
  | .reservedCmd47 _ _ => 0x1F0000000C
  | .reservedCmd8F _ _ => 0x1F00000008
  | .wrStatus _ | .wrFbBase _ | .wrFbLen _ | .wrBmBase _ | .wrBmSize _ _ | .wrXOffset _ | .wrYOffset _
  | .wrPhase _ _ | .wrRo9 _ => 0x1F00000000
  | .wrRoAB _ _ => 0x1E00000000
  | .wrRoCF _ _ => 0x1C00000000
  | .rd _ => 0x1000000000

/-- The match value of an instruction's row. -/
def rowMatch : Instr → Txn
  | .nop _ => 0x1000000000
  | .drawChar _ => 0x1000000001
  | .reservedCmd23 _ _ => 0x1000000002
  | .reservedCmd47 _ _ => 0x1000000004
  | .reservedCmd8F _ _ => 0x1000000008
  | .wrStatus _ => 0x1100000000
  | .wrFbBase _ => 0x1200000000
  | .wrFbLen _ => 0x1300000000
  | .wrBmBase _ => 0x1400000000
  | .wrBmSize _ _ => 0x1500000000
  | .wrXOffset _ => 0x1600000000
  | .wrYOffset _ => 0x1700000000
  | .wrPhase _ _ => 0x1800000000
  | .wrRo9 _ => 0x1900000000
  | .wrRoAB _ _ => 0x1A00000000
  | .wrRoCF _ _ => 0x1C00000000
  | .rd _ => 0x0000000000

/-- A mask over kind and index sees nothing of the data. -/
theorem txn_and_high (a m : BitVec 5) (d : Word) :
    ((a ++ d : BitVec 37) &&& (m ++ 0#32 : BitVec 37)) = (a &&& m) ++ 0#32 := by
  apply BitVec.eq_of_getLsbD_eq
  intro i hi
  simp only [BitVec.getLsbD_and, BitVec.getLsbD_append]
  by_cases h : i < 32 <;> simp [h]

/-- A mask over kind, index and command code sees the command code of a CTRL write. -/
theorem txn_and_ctrl (a m : BitVec 5) (f : CtrlFields) (c k : BitVec 4) :
    ((a ++ ctrlData f c : BitVec 37) &&& (m ++ (0#28 ++ k : BitVec 32) : BitVec 37))
      = (a &&& m) ++ (0#28 ++ (c &&& k) : BitVec 32) := by
  apply BitVec.eq_of_getLsbD_eq
  intro i hi
  simp only [ctrlData, BitVec.getLsbD_and, BitVec.getLsbD_append]
  by_cases h : i < 32
  · by_cases h4 : i < 4 <;> simp [h, h4]
  · simp [h]

theorem writeTxn_high (r : RegName) (d : Word) (m : BitVec 5) :
    writeTxn r d &&& (m ++ 0#32 : BitVec 37) = ((1#1 ++ regIndexOf r : BitVec 5) &&& m) ++ 0#32 :=
  txn_and_high _ m d

theorem writeTxn_ctrl (f : CtrlFields) (c k : BitVec 4) :
    writeTxn .ctrl (ctrlData f c) &&& (0x1F#5 ++ (0#28 ++ k : BitVec 32) : BitVec 37)
      = 0x10#5 ++ (0#28 ++ (c &&& k) : BitVec 32) :=
  txn_and_ctrl (0x10#5) (0x1F#5) f c k

namespace TableRow

/-- A well-formed instruction's transaction matches its row: masked, it is the row's match value. -/
def Statement (i : Instr) : Prop := i.wellFormed = true → encodeTxn i &&& rowMask i = rowMatch i

theorem nop (f : CtrlFields) : Statement (.nop f) := fun _ => writeTxn_ctrl f 0x0 0xF
theorem drawChar (f : CtrlFields) : Statement (.drawChar f) := fun _ => writeTxn_ctrl f 0x1 0xF
theorem reservedCmd23 (f : CtrlFields) (cmd : BitVec 4) : Statement (.reservedCmd23 f cmd) := by
  intro h
  refine (writeTxn_ctrl f cmd 0xE).trans ?_
  have : cmd &&& 0xE = 0x2 := by revert h; simp only [Instr.wellFormed]; revert cmd; decide
  rw [this]; rfl
theorem reservedCmd47 (f : CtrlFields) (cmd : BitVec 4) : Statement (.reservedCmd47 f cmd) := by
  intro h
  refine (writeTxn_ctrl f cmd 0xC).trans ?_
  have : cmd &&& 0xC = 0x4 := by revert h; simp only [Instr.wellFormed]; revert cmd; decide
  rw [this]; rfl
theorem reservedCmd8F (f : CtrlFields) (cmd : BitVec 4) : Statement (.reservedCmd8F f cmd) := by
  intro h
  refine (writeTxn_ctrl f cmd 0x8).trans ?_
  have : cmd &&& 0x8 = 0x8 := by revert h; simp only [Instr.wellFormed]; revert cmd; decide
  rw [this]; rfl
theorem wrStatus (f : StatusFields) : Statement (.wrStatus f) := fun _ => writeTxn_high .status (statusData f) 0x1F
theorem wrFbBase (v : Word) : Statement (.wrFbBase v) := fun _ => writeTxn_high .fbBase v 0x1F
theorem wrFbLen (v : Word) : Statement (.wrFbLen v) := fun _ => writeTxn_high .fbLen v 0x1F
theorem wrBmBase (v : Word) : Statement (.wrBmBase v) := fun _ => writeTxn_high .bmBase v 0x1F
theorem wrBmSize (h w : BitVec 16) : Statement (.wrBmSize h w) := fun _ => writeTxn_high .bmSize (h ++ w) 0x1F
theorem wrXOffset (v : Word) : Statement (.wrXOffset v) := fun _ => writeTxn_high .xOffset v 0x1F
theorem wrYOffset (v : Word) : Statement (.wrYOffset v) := fun _ => writeTxn_high .yOffset v 0x1F
theorem wrPhase (d : BitVec 30) (p : BitVec 2) : Statement (.wrPhase d p) :=
  fun _ => writeTxn_high .phase (d ++ p) 0x1F
theorem wrRo9 (v : Word) : Statement (.wrRo9 v) := fun _ => writeTxn_high .dropCount v 0x1F
theorem wrRoAB (r : RegName) (v : Word) : Statement (.wrRoAB r v) := by
  intro h
  refine (writeTxn_high r v 0x1E).trans ?_
  cases r <;> first | rfl | simp [Instr.wellFormed] at h
theorem wrRoCF (r : RegName) (v : Word) : Statement (.wrRoCF r v) := by
  intro h
  refine (writeTxn_high r v 0x1C).trans ?_
  cases r <;> first | rfl | simp [Instr.wellFormed] at h
theorem rd (r : RegName) : Statement (.rd r) := by
  intro _; cases r <;> rfl

end TableRow

end Sys2Proof.Laws
end

