-- ==== Sys2Proof/Laws/Platform.lean ====
section
/-! SUPPORT. What the operations of the other agents can do to memory: host writes with their races, and the
words of an abandoned command. Both keep memory's canonical form. -/

namespace Sys2Proof.Machine

/-- The word an address of the frame lies in. -/
theorem frameWordOf_eq_some (o : Operands) (a off : Nat) :
    frameWordOf o a = some off ↔ (o.fbBase ≤ a ∧ a < o.fbBase + o.fbLen) ∧ (a - o.fbBase) / 2 * 2 = off := by
  have hc : (frameRange o).covers a = true ↔ o.fbBase ≤ a ∧ a < o.fbBase + o.fbLen := by
    rw [Region.covers, Bool.and_eq_true, decide_eq_true_iff, decide_eq_true_iff]; rfl
  rw [← hc, frameWordOf]
  by_cases h : (frameRange o).covers a = true <;> simp [h]

/-- An address that no other agent had written is raced by the entry that joins the list; one that was keeps its
first entry. -/
theorem raceAt_addRace (r : Race) (s : State) (a : Nat) :
    raceAt (addRace r s) a = (raceAt s a).or (if r.addr = a then some r else none) := by
  simp only [raceAt, addRace, List.find?_append]
  by_cases h : r.addr = a <;> simp [h]

/-- A word that no other agent had written takes the free word of the entry that joins the list; one that was
raced keeps its own. -/
theorem racedWord_addRace (r : Race) (s : State) (off : Nat) :
    racedWord (addRace r s) off
      = (racedWord s off).or (if r.addr ∈ wordAddrs (operands s) off then some r.word else none) := by
  simp only [racedWord, operands_addRace]
  rw [addRace, List.find?_append, Option.map_or]
  by_cases h : r.addr ∈ wordAddrs (operands s) off <;> simp [h]

/-- Memory after a host write during a command: the byte as written; or, of a word the command has already
updated, the word or its one byte in range at its free value (R75 (a)). -/
theorem racedWrite_cases (s : State) (a : Nat) (v : Byte) :
    racedWrite s a v = s.mem.write a v
      ∨ ∃ off w, frameWordOf (operands s) a = some off ∧ off ∈ s.work.updated ∧ racedWord s off = some w
          ∧ (wordFate (operands s) off = .whole
                ∧ racedWrite s a v = s.mem.writeWord ((operands s).fbBase + off) w
              ∨ wordFate (operands s) off ≠ .whole
                ∧ racedWrite s a v = s.mem.write ((operands s).fbBase + off) (w.setWidth 8)) := by
  cases hf : frameWordOf (operands s) a with
  | none => left; simp only [racedWrite, hf]
  | some off =>
    by_cases hu : off ∈ s.work.updated
    · cases hr : racedWord s off with
      | none => left; simp [racedWrite, hf, hr]
      | some w =>
        refine .inr ⟨off, w, rfl, hu, hr, ?_⟩
        cases hw : wordFate (operands s) off <;> simp [racedWrite, hf, hu, hr, hw]
    · left; simp [racedWrite, hf, hu]

theorem wf_racedWrite (s : State) (a : Nat) (v : Byte) (h : s.mem.wf = true) : (racedWrite s a v).wf = true := by
  rcases racedWrite_cases s a v with e | ⟨off, w, -, -, -, ⟨-, e⟩ | ⟨-, e⟩⟩ <;> rw [e]
  · exact Memory.wf_write _ _ _ h
  · exact Memory.wf_writeWord _ _ _ h
  · exact Memory.wf_write _ _ _ h

/-- The kept pixel whose byte lies at an address. -/
theorem pixelAt_some (o : Operands) (a : Nat) (p : Pixel) (h : pixelAt o a = some p) :
    p ∈ keptPixels o ∧ bitmapAddr o p = a :=
  ⟨List.mem_of_find?_eq_some h, by simpa using List.find?_some (p := fun q => bitmapAddr o q == a) h⟩

/-- What a host write during a command does: the race joins the list with one draw, memory is as `racedWrite`
says, a byte the command does not write is no longer among those shown, and the event enters the history. -/
theorem hostWrite_busy (a : Word) (v : Byte) (s : State) (h : s.eng = .busy) :
    hostWrite a v s =
      let t := addRace (raceOf s a.toNat) s
      logHost .write a.toNat v
        { t with
          mem := racedWrite t a.toNat v
          shown := if inDispute s a.toNat then s.shown else s.shown.filter (fun c => c.1 != a.toNat) } := by
  simp only [hostWrite, h]

theorem hostWrite_idle (a : Word) (v : Byte) (s : State) (h : s.eng = .idle) :
    hostWrite a v s = logHost .write a.toNat v { s with mem := s.mem.write a.toNat v } := by
  simp only [hostWrite, h]

/-- A host read has a value exactly where memory backs the byte. -/
theorem hostReadValue_isSome (s : State) (a : Nat) : (hostReadValue s a).isSome = (s.mem.read a).isSome := by
  unfold hostReadValue
  cases s.mem.read a with
  | none => rfl
  | some b => simp only; split <;> rfl

/-- A word none of whose bytes a host read has shown takes any value. -/
theorem raceWordAt_of_unshown (s : State) (a off : Nat) (hf : frameWordOf (operands s) a = some off)
    (h : ∀ b ∈ wordAddrs (operands s) off, shownAt s b = none) (hd : wordFate (operands s) off ≠ .dropped) :
    raceWordAt s a = Config.raceWord s.draws := by
  cases hw : wordFate (operands s) off with
  | dropped => exact absurd hw hd
  | whole =>
    simp only [wordAddrs, hw, List.mem_cons, List.not_mem_nil, or_false, forall_eq_or_imp, forall_eq] at h
    simp only [raceWordAt, hf, hw, h, Option.getD_none, assembleWord_wordByte]
  | firstByte =>
    simp only [wordAddrs, hw, List.mem_cons, List.not_mem_nil, or_false, forall_eq] at h
    simp [raceWordAt, hf, hw, h]

/-- What it is for a state to agree with what has already happened. -/
theorem keepsPast_iff (s : State) :
    keepsPast s = true ↔
      (∀ h ∈ s.work.held, h.off ∈ pendingWords s)
        ∧ (∀ p ∈ s.work.toRead, pixelOffset (operands s) p ∈ s.work.updated → p ∉ landed s)
        ∧ ∀ c ∈ s.shown, finalByte s c.1 = some c.2 := by
  simp [keepsPast, and_assoc, imp_iff_not_or]

/-- The free byte of a race is the drawn one, where that agrees with what has already happened, or else one by
which the byte draws its pixel as it did before. -/
theorem raceByteAt_cases (s : State) (a : Nat) :
    (keepsPast (addRace (raceWith s a (Config.raceByte s.draws)) s) = true
        ∧ raceByteAt s a = Config.raceByte s.draws)
      ∨ (keepsPast (addRace (raceWith s a (Config.raceByte s.draws)) s) = false
        ∧ (raceByteAt s a != 0) = drawsAt s a) := by
  by_cases hk : keepsPast (addRace (raceWith s a (Config.raceByte s.draws)) s) = true
  · exact .inl ⟨hk, by simp only [raceByteAt, hk, if_true]⟩
  · refine .inr ⟨by simpa using hk, ?_⟩
    simp only [raceByteAt, hk]
    cases hd : drawsAt s a
    · simp
    · have hl := (Config.raceOpaqueByte s.draws).isLt
      simp only [Bool.false_eq_true, if_false, if_true, bne_iff_ne, ne_eq]
      intro h
      have := congrArg BitVec.toNat h
      rw [BitVec.toNat_ofNat, show (0 : Byte).toNat = 0 from rfl] at this
      omega

/-- In a word that no other agent has written the command gives each byte what the landed pixels make of it. -/
theorem commandByte_of_unraced (s : State) (a : Nat)
    (h : racedWord s ((a - (operands s).fbBase) / 2 * 2) = none) :
    commandByte s a = paintByte (operands s) (landed s) s.atStart a := by
  simp only [commandByte, h]

/-- What a host read can return: memory's byte where the command has no say, else the byte before the command or
the byte the command gives it, or memory's where neither has a value. -/
theorem hostReadValue_cases (s : State) (a : Nat) (b : Byte) (h : hostReadValue s a = some b) :
    (inDispute s a = false ∧ s.mem.read a = some b)
      ∨ (inDispute s a = true ∧ (s.mem.read a).isSome = true
          ∧ (s.atStart.read a = some b ∨ commandByte s a = some b
            ∨ (s.atStart.read a = none ∧ commandByte s a = none ∧ s.mem.read a = some b))) := by
  unfold hostReadValue at h
  cases hm : s.mem.read a with
  | none => simp [hm] at h
  | some c =>
    cases hd : inDispute s a <;> simp only [hm, hd] at h
    · exact .inl ⟨rfl, by simpa using h⟩
    · refine .inr ⟨rfl, rfl, ?_⟩
      cases hb : s.atStart.read a <;> cases hc : commandByte s a <;> simp only [hb, hc, if_true] at h
      · exact .inr (.inr ⟨rfl, rfl, by simpa using h⟩)
      · exact .inr (.inl (by simpa using h))
      · exact .inl (by simpa using h)
      · split at h
        · exact .inr (.inl (by simpa using h))
        · exact .inl (by simpa using h)

/-- The engine when reset comes: as it was while idle, else after a run of its own moves. -/
theorem abandonCommand_cases (s : State) :
    (s.eng = .idle ∧ abandonCommand s = s)
      ∨ (s.eng = .busy
          ∧ abandonCommand s = engineRun (Config.movesAtReset s.draws) { s with draws := s.draws + 1 }) := by
  unfold abandonCommand
  cases h : s.eng
  · exact .inl ⟨rfl, rfl⟩
  · exact .inr ⟨rfl, rfl⟩

/-- An access that reaches the block begins in the window or runs into it. -/
theorem busToReg_isSome (b : BusAccess) :
    (busToReg b).isSome = (startsInWindow b || runsIntoWindow b) := by
  unfold busToReg
  split
  · rename_i h; simp [h]
  · rename_i h; simpa using h

end Sys2Proof.Machine
end

