-- ==== Sys2Proof/Laws/Step.lean ====
section
/-! SUPPORT. What one step can be, said once: the move served, and what each move does to the state. -/

namespace Sys2Proof.Machine

/-- The engine's own move answers the result of one admissible action. -/
theorem engineAlone_next (s t : State) (hb : s.eng = .busy) (h : engineAlone s = .next t) :
    ∃ a ∈ engineActions { s with draws := s.draws + 1 },
      performAction a { s with draws := s.draws + 1 } = .ok t := by
  unfold engineAlone at h
  rcases engineMove_cases (Config.engineOrder s.draws) { s with draws := s.draws + 1 } with
    ⟨hi, _⟩ | ⟨_, a, _, ha, he⟩
  · simp [hb] at hi
  · rw [he] at h
    split at h
    · rename_i t' ht
      refine ⟨a, ha, ?_⟩
      rw [ht]; simpa using h
    · simp at h

/-- A REG access that is served runs the instruction its bytes decode to. -/
theorem serveReg_next (a : RegAccess) (s t : State) (h : serveReg a s = .next t) :
    (s.rst = true ∧ t = s) ∨ (s.rst = false ∧ ∃ i, fetchReg a = .ok i ∧ exec i s = .next t) := by
  unfold serveReg at h
  cases hr : s.rst <;> simp only [hr, Bool.false_eq_true, if_false, if_true] at h
  · right
    split at h
    · rename_i i hi; exact ⟨rfl, i, hi, h⟩
    · simp at h
  · left; exact ⟨rfl, by simpa using h.symm⟩

/-- A fetched access is a 32-bit access at a multiple of 4 whose bytes decode. -/
theorem fetchReg_ok (a : RegAccess) (i : Instr) :
    fetchReg a = .ok i ↔ a.size = 4 ∧ a.low = 0 ∧ decode a.txn = .ok i := by
  unfold fetchReg
  by_cases h : a.size = 4 ∧ a.low = 0
  · rw [if_pos h]
    cases hd : decode a.txn <;> simp [h]
  · rw [if_neg h]; simp; tauto

/-- A host read answers the value it finds, which enters the history and, of a frame byte during a command, the
list of the bytes shown; nothing else but the draw counter changes. -/
theorem hostRead_next (addr : Word) (s t : State) (h : hostRead addr s = .next t) :
    ∃ b, hostReadValue s addr.toNat = some b
      ∧ t = logHost .read addr.toNat b (drawIf (inDispute s addr.toNat) (showByte addr.toNat b s)) := by
  simp only [hostRead] at h
  split at h
  · simp at h
  · rename_i b hb; exact ⟨b, hb, by simpa using h.symm⟩

/-- One step: what each kind of move answers as a next state, the move taken off the list. -/
theorem step_next (s t : State) (h : step s = .next t) :
    (s.moves = [] ∧ ((s.rst = true ∨ s.eng = .idle) ∧ t = s
        ∨ s.rst = false ∧ s.eng = .busy ∧ engineAlone s = .next t))
      ∨ ∃ m rest, s.moves = m :: rest ∧ serve m { s with moves := rest } = .next t := by
  unfold step at h
  split at h
  · rename_i m rest hm; exact .inr ⟨m, rest, hm, h⟩
  · rename_i hm
    left; refine ⟨hm, ?_⟩
    cases hr : s.rst <;> simp only [hr, Bool.false_eq_true, if_false, if_true] at h
    · cases he : s.eng <;> simp only [he] at h
      · exact .inl ⟨.inr rfl, by simpa using h.symm⟩
      · exact .inr ⟨rfl, rfl, h⟩
    · exact .inl ⟨.inl rfl, by simpa using h.symm⟩

end Sys2Proof.Machine
end

