-- ==== Sys2Proof/Tests/Slice0.lean ====
section
/-! SUPPORT. Tests: ill-formed terms refused, words of the spec's encodings decoded, one-step results taken
from the vectors of spec/95_test_vectors.md (named V-... in the comments), and for each statement with
hypotheses a witness that meets them. -/

namespace Sys2Proof.Tests

open Sys2Proof Sys2Proof.Machine

/-! ## Ill-formed terms -/

def noFields : CtrlFields := { reserved := 0, byteClip := false, fast := false, irqEn := false }

theorem test_wf_refuses_cmd23 : (Instr.reservedCmd23 noFields 0x4).wellFormed = false := by decide
theorem test_wf_refuses_cmd47 : (Instr.reservedCmd47 noFields 0x8).wellFormed = false := by decide
theorem test_wf_refuses_cmd47_low : (Instr.reservedCmd47 noFields 0x3).wellFormed = false := by decide
theorem test_wf_refuses_cmd8F : (Instr.reservedCmd8F noFields 0x7).wellFormed = false := by decide
theorem test_wf_refuses_roAB : (Instr.wrRoAB .dropCount 0).wellFormed = false := by decide
theorem test_wf_refuses_roCF : (Instr.wrRoCF .geomMargin 0).wellFormed = false := by decide

/-! ## Decoding: kind bit 36, index bits 35:32, data bits 31:0 (R80), fields by R81 to R88 -/

theorem test_decode_nop : decodeTxn 0x1000000070 =
    .nop { reserved := 0, byteClip := true, fast := true, irqEn := true } := by decide
theorem test_decode_drawChar : decodeTxn 0x1000000011 =
    .drawChar { reserved := 0, byteClip := false, fast := false, irqEn := true } := by decide
theorem test_decode_reservedCmd23 : decodeTxn 0x1000000022 =
    .reservedCmd23 { reserved := 0, byteClip := false, fast := true, irqEn := false } 0x2 := by decide
theorem test_decode_reservedCmd47 : decodeTxn 0x1000000087 =
    .reservedCmd47 { reserved := 1, byteClip := false, fast := false, irqEn := false } 0x7 := by decide
theorem test_decode_reservedCmd8F : decodeTxn 0x1000000048 =
    .reservedCmd8F { reserved := 0, byteClip := true, fast := false, irqEn := false } 0x8 := by decide
theorem test_decode_wrStatus : decodeTxn 0x1100000014 =
    .wrStatus { ignoredHigh := 1, clrWign := false, clrErr := true, clrDone := false, ignoredBit0 := false } := by
  decide
theorem test_decode_wrFbBase : decodeTxn 0x1210000000 = .wrFbBase 0x10000000 := by decide
theorem test_decode_wrFbLen : decodeTxn 0x1300286400 = .wrFbLen 2647040 := by decide
theorem test_decode_wrBmBase : decodeTxn 0x1420000000 = .wrBmBase 0x20000000 := by decide
theorem test_decode_wrBmSize : decodeTxn 0x1500010004 = .wrBmSize 1 4 := by decide
theorem test_decode_wrXOffset : decodeTxn 0x16FFFFFFFF = .wrXOffset 0xFFFFFFFF := by decide
theorem test_decode_wrYOffset : decodeTxn 0x1700000064 = .wrYOffset 100 := by decide
theorem test_decode_wrPhase : decodeTxn 0x1800000007 = .wrPhase 1 3 := by decide
theorem test_decode_wrRo9 : decodeTxn 0x1900000005 = .wrRo9 5 := by decide
theorem test_decode_wrRoAB : decodeTxn 0x1B00000005 = .wrRoAB .geomMargin 5 := by decide
theorem test_decode_wrRoCF : decodeTxn 0x1F00000005 = .wrRoCF .rsvd3C 5 := by decide
theorem test_decode_rd : decodeTxn 0x0912345678 = .rd .dropCount := by decide
theorem test_decode_bytes : decode [0x11, 0x00, 0x00, 0x00, 0x10] = .ok (decodeTxn 0x1000000011) := by rfl
theorem test_decode_stray : decode [0x11, 0x00, 0x00, 0x00, 0x30] = .error .strayBits := by rfl
theorem test_decode_short : decode [0x11, 0x00, 0x00, 0x10] = .error .badLength := by rfl
/-- Program 1's listing (R95). -/
theorem test_listing : listingLine 0x1300286400 = "W 0x0C 0x00286400".toList := by decide

/-! ## Small states -/

/-- The state of an outcome; the reset state when the machine stops. -/
def after (r : Host.Outcome State Fault Refusal) : State :=
  match r with
  | .next t => t
  | _ => State.reset

/-- V-D1: a 1x1 bitmap [1] at x_offset 8, y_offset 0, phase 2, in a full frame whose one word that
matters is listed. -/
def oneS : State :=
  { State.reset with
    fbBase := 0x10000000, fbLen := 2647040, bmBase := 0x20000000, bmSize := 0x00010001
    xOffset := 8, yOffset := 0, phase := 2
    mem := [(0x10285E84, 0), (0x10285E85, 0), (0x20000000, 1)] }

/-- V-D1 accepted. -/
def busyS : State := acceptCommand oneS

/-- A rejected command's record: V-C9. -/
def rejectedS : State := after (exec (.reservedCmd23 noFields 0x3) State.reset)

/-! ## Lanes and addresses -/

theorem test_setLane_V_L2 : setLane 0xFFFF 0 0 = 0x3FFF := by decide
theorem test_setLane_V_L3 : setLane 0x5555 7 2 = 0x5556 := by decide
theorem test_setLanes_V_L6 : setLanes 0 [0, 2, 4, 6] 1 = 0x4444 := by decide
theorem test_laneMask_V_L6 : laneMask [0, 2, 4, 6] = 0xCCCC := by decide
theorem test_setLanes_V_L8 : setLanes 0xFFFF [3] 0 = 0xFCFF := by decide
theorem test_offset_V_A4 : wordOffset (bufferRow 0) 1403 = 2645984 ∧ laneIndex 1403 = 3 := by decide
theorem test_offset_V_A8 : wordOffset (bufferRow 100) 14 = 2504836 ∧ laneIndex 14 = 6 := by decide
theorem test_clipLanes_V_B2 : setClipLanes 0 (writtenLanes .little .firstByte [0, 1, 2, 3, 4, 5, 6, 7]) 2 = 0xAA := by
  decide
theorem test_clipLanes_V_B3 : setClipLanes 0 (writtenLanes .big .firstByte [0, 1, 2, 3, 4, 5, 6, 7]) 2 = 0xAA := by
  decide
theorem test_clipLanes_V_B4 : setClipLanes 0 (writtenLanes .little .firstByte [0, 5]) 1 = 0x10 := by decide
theorem test_draw_V_D1 : drawByte (operands oneS) oneS.mem 0x10285E85 = some 0x80 := by decide
theorem test_drop_V_D2 : drawDropCount (operands { oneS with fbLen := 2635776 }) oneS.mem = 1 := by decide

/-! ## One step -/

/-- V-C7: CTRL reads 0x70 after a write of 0xFFFFFF70. -/
theorem test_nop_V_C7 : ctrlWord (after (exec (decodeTxn 0x10FFFFFF70) State.reset)) = 0x70 := by decide
/-- V-C14: IRQ falls when IRQ_EN is cleared, DONE stays. -/
theorem test_nop_V_C14 :
    let t := after (exec (.nop noFields) { State.reset with done := true, irqEn := true })
    t.irq = false ∧ t.done = true := by decide
/-- V-C9. -/
theorem test_cmd3_V_C9 : statusWord (after (exec (decodeTxn 0x1000000003) State.reset)) = 0x16 := by decide
/-- V-C18. -/
theorem test_cmd3_V_C18 : statusWord (after (exec (decodeTxn 0x1000000003) busyS)) = 0x9 := by decide
theorem test_cmd5_illegal : statusWord (after (exec (decodeTxn 0x1000000005) State.reset)) = 0x16 := by decide
/-- V-E1. -/
theorem test_cmdF_V_E1 : statusWord (after (exec (decodeTxn 0x100000000F) State.reset)) = 0x16 := by decide
/-- V-C11 and V-C12. -/
theorem test_ack_V_C11 : statusWord (after (exec (decodeTxn 0x1100000002) rejectedS)) = 0x14 := by decide
theorem test_ack_V_C12 : statusWord (after (exec (decodeTxn 0x1100000004) rejectedS)) = 0x2 := by decide
theorem test_fbBase : (after (exec (.wrFbBase 0x10000000) State.reset)).fbBase = 0x10000000 := by decide
/-- V-C16. -/
theorem test_fbLen_V_C16 :
    let t := after (exec (.wrFbLen 0) busyS)
    t.fbLen = 2647040 ∧ statusWord t = 0x9 := by decide
theorem test_bmBase : (after (exec (.wrBmBase 0x20000000) State.reset)).bmBase = 0x20000000 := by decide
theorem test_bmSize : (after (exec (decodeTxn 0x1500010004) State.reset)).bmSize = 0x00010004 := by decide
/-- V-C6. -/
theorem test_xOffset_V_C6 : (operands (after (exec (.wrXOffset 0xFFFFFFFF) State.reset))).xo = -1 := by decide
/-- V-D17's offset. -/
theorem test_yOffset_V_D17 : (operands (after (exec (.wrYOffset 0x80000000) State.reset))).yo = -2147483648 := by
  decide
/-- V-C4 and V-C5. -/
theorem test_phase_V_C4 : regRead .phase (after (exec (decodeTxn 0x1800000007) State.reset)) = 3 := by decide
theorem test_phase_V_C5 : regRead .phase (after (exec (decodeTxn 0x18FFFFFFFC) State.reset)) = 0 := by decide
/-- V-C8. -/
theorem test_ro9_V_C8 : (after (exec (.wrRo9 5) State.reset)).dropCount = 0 := by decide
theorem test_roAB_busy : (after (exec (.wrRoAB .geomSize 0) busyS)).wign = false := by decide
theorem test_roCF_V_C8 : regRead .geomStride (after (exec (.wrRoCF .geomStride 0) State.reset)) = 0x580 := by
  decide +kernel
/-- V-C2. -/
theorem test_rd_V_C2 : (after (exec (.rd .geomSize) State.reset)).regData = 0x0750057C := by decide +kernel
theorem test_rd_status_busy : (after (exec (.rd .status) busyS)).regData = 0x1 := by decide
/-- V-E7. -/
theorem test_draw_V_E7 :
    statusWord (after (exec (.drawChar noFields)
      { oneS with fbLen := 0x1000, bmBase := 0x10000FFF })) = 0x56 := by decide
/-- V-E8: ranges that touch only. -/
theorem test_draw_V_E8 :
    (after (exec (.drawChar noFields) { oneS with fbLen := 0x1000, bmBase := 0x10001000 })).eng = .busy := by
  decide

/-! ## Witnesses: concrete states and operands that meet the hypotheses of each statement -/

theorem oneS_inv : oneS.Inv where
  mem_wf := by decide
  errCode_iff := by decide
  busy_flags := by decide
  idle_clear := by decide
  busy_checked := by decide
  busy_work := fun h => absurd h (by decide)
  busy_touched := by decide
  busy_held := by decide
  busy_order := by decide
  busy_late := by decide
  rst_block := fun h => absurd h (by decide)

theorem kept_one : keptPixels (operands oneS) = [{ x := 0, y := 0 }] := by decide

theorem busyS_work : workValid (operands busyS) busyS.work :=
  ⟨by decide, by decide, by decide, by decide⟩

theorem busyS_inv_now : busyS.Inv where
  mem_wf := by decide
  errCode_iff := by decide
  busy_flags := by decide
  idle_clear := fun h => absurd h (by decide)
  busy_checked := by decide
  busy_work := fun _ => busyS_work
  busy_touched := by decide
  busy_held := by decide
  busy_order := by decide
  busy_late := by decide
  rst_block := fun h => absurd h (by decide)

/-- The moves to come are no part of the invariant. -/
theorem busyS_inv (moves : List Move) : ({ busyS with moves := moves } : State).Inv :=
  have h := busyS_inv_now
  ⟨h.mem_wf, h.errCode_iff, h.busy_flags, h.idle_clear, h.busy_checked, h.busy_work, h.busy_touched, h.busy_held,
    h.busy_order, h.busy_late, fun hr => absurd hr (by decide : busyS.rst ≠ true)⟩

/-- At acceptance memory is what it was at acceptance. -/
theorem busyS_faithful (moves : List Move) : ({ busyS with moves := moves } : State).Faithful where
  held_value := fun _ _ h => absurd h List.not_mem_nil
  updated_value := fun _ _ h => absurd h List.not_mem_nil
  pending_value := fun _ _ _ _ _ _ _ => rfl
  other_bytes := fun _ _ _ _ => rfl
  shown_value := fun _ _ h => absurd h List.not_mem_nil

theorem busyS_duty (moves : List Move) : ({ busyS with moves := moves } : State).dutyKept := fun _ _ => rfl

/-- The pixel of a 1x1 bitmap at the origin lands in one word only. -/
theorem touched_one (m : Memory) (off : Nat) (h : off ≠ 2645636) : touchedLanes (operands oneS) m off = [] := by
  have hp : pixelOffset (operands oneS) { x := 0, y := 0 } = 2645636 := by decide
  have hl : lanesOf (operands oneS) (landedPixels (operands oneS) m) off = [] := by
    simp [lanesOf, landedPixels, kept_one, hp, Ne.symm h]
  rw [touchedLanes, wordLanes, hl]
  cases wordFate (operands oneS) off <;> rfl

theorem oneS_covers (a : Nat) (h : (bitmapRange (operands oneS)).covers a = true) : a = 0x20000000 := by
  have hb : bitmapRange (operands oneS) = { base := 0x20000000, len := 1 } := by decide
  rw [hb] at h
  simp only [Region.covers, Bool.and_eq_true, decide_eq_true_eq] at h
  omega

theorem oneS_backed : commandBacked (operands oneS) oneS.mem := by
  refine ⟨fun a h => ?_, fun off h => ?_⟩
  · rw [oneS_covers a h]; decide
  · by_cases ho : off = 2645636
    · subst ho; decide
    · exact absurd (touched_one _ _ ho) h

theorem witness_StepRunsDecodedTransaction :
    (let a : RegAccess := { size := 4, low := 0, txn := [0x11, 0, 0, 0, 0x10] }
     let s : State := { oneS with moves := [.reg a] }
     s.rst = false ∧ s.moves = [.reg a] ∧ a.size = 4 ∧ a.low = 0 ∧ decode a.txn = .ok (decodeTxn 0x1000000011)) ∧
    decodeTableWord 37 0x1F00000000 = some (.wrRoCF .rsvd3C 0) := ⟨⟨rfl, rfl, rfl, rfl, rfl⟩, by decide⟩

theorem witness_DecodeEncodeRoundTrip :
    (Instr.reservedCmd47 noFields 0x7).wellFormed = true ∧ (Instr.reservedCmd8F noFields 0xF).wellFormed = true ∧
    (Instr.wrRoCF .geomStride 0).wellFormed = true := by decide

theorem witness_EveryTransactionDecodes :
    BitVec.getLsbD (0x1000000000 : Txn) 36 = true ∧ BitVec.getLsbD (0x0FFFFFFFFF : Txn) 36 = false := by decide

theorem witness_UnsupportedRegAccessRefused :
    (let a : RegAccess := { size := 2, low := 0, txn := [0, 0, 0, 0, 0x10] }
     let s : State := { oneS with moves := [.reg a] }
     s.rst = false ∧ s.moves = [.reg a] ∧ ¬ (a.size = 4 ∧ a.low = 0)) ∧
    (let a : RegAccess := { size := 4, low := 3, txn := [0, 0, 0, 0, 0x10] }
     let s : State := { oneS with moves := [.reg a] }
     s.rst = false ∧ s.moves = [.reg a] ∧ ¬ (a.size = 4 ∧ a.low = 0)) := by decide

/-- The window's first address, one on either side of the window, and, where the window does not start the address
space, four bytes that run into it. The window's first address with a size of 1 serves
UnsupportedRegAccessRefused too. -/
theorem witness_BusWindowSelectsTheBlock :
    State.reset.rst = false ∧
    ((Config.blitBase + 0#32) &&& ~~~(0x3F#32)) = Config.blitBase ∧ Config.blitBase.extractLsb' 0 2 = 0 ∧
    (Config.blitBase.toNat + 64 ≤ (0xFFFFFFC0 : Word).toNat ∨ (0x0000003F : Word).toNat + 1 ≤ Config.blitBase.toNat) ∧
    ((0x0000003F : Word).toNat < Config.blitBase.toNat →
      Config.blitBase.toNat < (Config.blitBase - 2).toNat + 4 ∧ (Config.blitBase - 2).toNat < Config.blitBase.toNat) := by
  refine ⟨rfl, ?_, ?_, ?_, ?_⟩
  · apply BitVec.eq_of_getLsbD_eq
    intro i hi
    have : BitVec.getLsbD (0x3F#32) i = decide (i < 6) := by
      revert hi; revert i; decide
    simp only [BitVec.add_zero, BitVec.getLsbD_and, BitVec.getLsbD_not, this, Config.blitBase,
      BitVec.getLsbD_append]
    by_cases h : i < 6 <;> simp [h, hi]
  · apply BitVec.eq_of_getLsbD_eq
    intro i hi
    have : i < 6 := by omega
    rw [BitVec.getLsbD_extractLsb', Config.blitBase, BitVec.getLsbD_append]
    simp [this]
  · have hb : Config.blitBase.toNat = Config.blitBlock.toNat * 64 := by
      rw [Config.blitBase, BitVec.toNat_append, Nat.shiftLeft_eq]; simp
    have hl := Config.blitBlock.isLt
    rw [hb, show (0xFFFFFFC0 : Word).toNat = 0xFFFFFFC0 from rfl, show (0x3F : Word).toNat = 0x3F from rfl]
    omega
  · intro h
    have hl := Config.blitBase.isLt
    rw [show (0x3F : Word).toNat = 0x3F from rfl] at h
    have : (Config.blitBase - 2).toNat = Config.blitBase.toNat - 2 := by
      rw [BitVec.toNat_sub_of_le (by rw [BitVec.le_def, show (2 : Word).toNat = 2 from rfl]; omega)]
      rfl
    omega

theorem witness_ResetAnyState :
    ({ busyS with moves := [.rst true] } : State).Inv ∧ busyS.eng = .busy ∧
    oneS.Inv ∧ oneS.eng = .idle ∧ (bitmapRange (operands oneS)).covers 0x20000000 = true :=
  ⟨busyS_inv _, by decide, oneS_inv, by decide, by decide⟩

theorem witness_ResetDuringCommand :
    let s : State := { busyS with moves := [.rst true] }
    s.Inv ∧ s.Faithful ∧ s.eng = .busy ∧ s.dutyKept ∧ touchedLanes (operands s) s.atStart 2645636 ≠ [] :=
  ⟨busyS_inv _, busyS_faithful _, by decide, busyS_duty _, by decide⟩

/-- A block held in reset. -/
def heldS : State := { State.reset with rst := true, moves := [.rst false] }

theorem witness_ReleaseLeavesResetState :
    heldS.Inv ∧ heldS.rst = true ∧ heldS.moves = [.rst false] ∧ ∃ t, step heldS = .next t :=
  ⟨⟨by decide, by decide, by decide, by decide, by decide, fun h => absurd h (by decide), by decide, by decide,
      by decide, by decide, fun _ => rfl⟩,
    rfl, rfl, _, rfl⟩

theorem witness_HeldResetServesNothing :
    let s : State := { heldS with moves := [.grant 0] }
    s.rst = true ∧ s.moves = [.grant 0] := ⟨rfl, rfl⟩

theorem witness_OperandWritesStore : State.reset.eng = .idle := by decide

theorem witness_BusyWritesIgnored : busyS.eng = .busy ∧ isGuardedWrite (.wrPhase 0 3) = true := by decide

theorem witness_NopStoresFields :
    oneS.eng = .idle ∧ busyS.eng = .busy ∧ ∃ t, exec (.nop noFields) oneS = .next t := ⟨by decide, by decide, _, rfl⟩

theorem witness_ReservedCommandsRejected :
    State.reset.eng = .idle ∧ State.reset.wign = false ∧
    ∃ t, exec (.reservedCmd8F noFields 0xF) State.reset = .next t := ⟨rfl, rfl, _, rfl⟩

theorem witness_StatusWriteAcknowledges : busyS.Inv ∧ busyS.eng = .busy := ⟨busyS_inv [], by decide⟩

theorem witness_ReadsReturnTheirSlot :
    busyS.eng = .busy ∧ ¬ (RegName.dropCount = .dropCount ∧ oneS.eng = .busy) ∧
    ¬ (RegName.status = .dropCount ∧ busyS.eng = .busy) := by decide

/-- V-E2, V-E3, V-E5 and V-E7, one for each clause, each at the boundary of its range. -/
theorem witness_DrawCharRejections :
    (0x10000001 % 2 = 1 ∧ ({ oneS with fbBase := 0x10000001 } : State).eng = .idle) ∧
    (let o := operands { oneS with fbBase := 0xFFFF0000, fbLen := 0x10001 }
     o.fbBase % 2 = 0 ∧ o.fbBase + o.fbLen = 2 ^ 32 + 1) ∧
    (let o := operands { oneS with bmBase := 0xFFFFFFFF, bmSize := 0x00010002 }
     o.fbBase % 2 = 0 ∧ o.fbBase + o.fbLen ≤ 2 ^ 32 ∧ o.bmBase + o.w * o.h = 2 ^ 32 + 1) ∧
    (let o := operands { oneS with fbLen := 0x1000, bmBase := 0x10000FFF }
     o.fbBase % 2 = 0 ∧ o.fbBase + o.fbLen ≤ 2 ^ 32 ∧ o.bmBase + o.w * o.h ≤ 2 ^ 32 ∧
       0 < o.w * o.h ∧ 0 < o.fbLen ∧ o.fbBase < o.bmBase + o.w * o.h ∧
       o.bmBase + 1 = o.fbBase + o.fbLen) := by decide

/-- V-E4, V-E6 and V-E8: the boundaries on the accepted side. -/
theorem witness_DrawCharAccepted :
    (let s : State := { oneS with fbBase := 0xFFFF0000, fbLen := 0x10000 }
     s.eng = .idle ∧ startError (operands s) = none ∧ onDevice s.devices (operands s) = false) ∧
    (let s : State := { oneS with bmBase := 0xFFFFFFFF }
     s.eng = .idle ∧ startError (operands s) = none ∧ onDevice s.devices (operands s) = false) ∧
    (let o := operands { oneS with fbLen := 0x1000, bmBase := 0x10001000 }
     o.fbBase % 2 = 0 ∧ o.fbBase + o.fbLen ≤ 2 ^ 32 ∧ o.bmBase + o.w * o.h ≤ 2 ^ 32 ∧
       ¬ (0 < o.w * o.h ∧ 0 < o.fbLen ∧ o.fbBase < o.bmBase + o.w * o.h ∧ o.bmBase < o.fbBase + o.fbLen)) := by
  decide

theorem witness_LaunchOnDeviceRefused :
    let d : Region := { base := 0x20000000, len := 4 }
    let s : State := { oneS with devices := [d] }
    s.eng = .idle ∧ startError (operands s) = none ∧ d ∈ s.devices ∧ (bitmapRange (operands s)).overlaps d = true := by
  decide

theorem witness_TransactionsLeaveMemory : ∃ t, exec (.drawChar noFields) oneS = .next t := ⟨_, rfl⟩

theorem witness_StepKeepsInvariant :
    ({ busyS with moves := [.grant 0] } : State).Inv ∧ ∃ t, step { busyS with moves := [.grant 0] } = .next t :=
  ⟨busyS_inv _, _, rfl⟩

theorem witness_StepKeepsContract :
    let s : State := { busyS with moves := [.grant 0] }
    s.Inv ∧ s.Faithful ∧ ∃ t, step s = .next t ∧ t.eng = .busy :=
  ⟨busyS_inv _, busyS_faithful _, _, rfl, by decide⟩

theorem witness_AcceptanceStartsContract :
    oneS.eng = .idle ∧ oneS.Inv ∧ oneS.rst = false ∧ ∃ t, exec (.drawChar noFields) oneS = .next t ∧ t.eng = .busy :=
  ⟨by decide, oneS_inv, by decide, _, rfl, by decide⟩

/-- The busy state with its work done. -/
def doneS : State :=
  { busyS with
    mem := [(0x10285E84, 0), (0x10285E85, 0x80), (0x20000000, 1)]
    work := { toRead := [], mayRead := [], held := [], updated := [2645636] }, moves := [.grant 0] }

theorem witness_EngineStateChangesOnlyBySpec :
    (∃ t, step (oneS.withFetchWord 37 0x1000000001) = .next t ∧ t.eng = .busy) ∧
    (∃ t, step doneS = .next t ∧ doneS.eng = .busy ∧ t.eng = .idle) ∧
    ∃ t, step { busyS with moves := [.rst true] } = .next t ∧ t.eng = .idle :=
  ⟨⟨_, rfl, by decide⟩, ⟨_, rfl, by decide, by decide⟩, ⟨_, rfl, rfl⟩⟩

theorem witness_WignSetAndClearedOnlyBySpec :
    (∃ t, step (({ oneS with wign := true } : State).withFetchWord 37 0x1100000008) = .next t ∧ t.wign = false) ∧
    ∃ t, step (busyS.withFetchWord 37 0x1300000000) = .next t ∧ busyS.wign = false ∧ t.wign = true :=
  ⟨⟨_, rfl, by decide⟩, ⟨_, rfl, by decide, by decide⟩⟩

theorem witness_ErrorsOnlyByCommandWrites :
    ∃ t, step (oneS.withFetchWord 37 0x1000000003) = .next t ∧ oneS.err = false ∧ t.err = true :=
  ⟨_, rfl, by decide, by decide⟩

theorem witness_OperandsFrozenWhileBusy :
    (∃ t, step (busyS.withFetchWord 37 0x1300000000) = .next t ∧ t.eng = .busy) ∧
    (∃ t, step doneS = .next t ∧ t.eng = .idle) ∧ busyS.eng = .busy ∧ doneS.eng = .busy ∧
    ∀ rest, doneS.moves ≠ .rst true :: rest :=
  ⟨⟨_, rfl, by decide⟩, ⟨_, rfl, by decide⟩, by decide, by decide, by simp [doneS]⟩

theorem witness_IdleBlockWaits :
    (oneS.eng = .idle ∧ oneS.moves = []) ∧ ({ oneS with moves := [.grant 3] } : State).eng = .idle := by decide

theorem witness_IrqFollowsDoneAndEnable :
    (rejectedS.eng = .idle ∧ rejectedS.done = true ∧ ∃ t, exec (.nop noFields) rejectedS = .next t) ∧
    (∃ f t, f.clrDone = true ∧ exec (.wrStatus f) rejectedS = .next t) ∧
    (∃ t, exec (.reservedCmd8F noFields 0x8) oneS = .next t) ∧
    (∃ t, exec (.drawChar noFields) oneS = .next t ∧ startError (operands oneS) = none) ∧
    (let s : State := { oneS with fbBase := 0x10000001 }
     ∃ t, exec (.drawChar noFields) s = .next t ∧ startError (operands s) ≠ none) ∧
    (∃ t, step doneS = .next t ∧ doneS.eng = .busy ∧ t.eng = .idle ∧ ∀ rest, doneS.moves ≠ .rst true :: rest) ∧
    ∃ t, step { rejectedS with moves := [.rst true] } = .next t :=
  ⟨⟨by decide, by decide, _, rfl⟩,
   ⟨{ ignoredHigh := 0, clrWign := false, clrErr := false, clrDone := true, ignoredBit0 := false }, _, rfl, rfl⟩,
   ⟨_, rfl⟩, ⟨_, rfl, by decide⟩, ⟨_, rfl, by decide⟩, ⟨_, rfl, by decide, by decide, by simp [doneS]⟩, ⟨_, rfl⟩⟩

theorem witness_FastIsOnlyAHint :
    servedInstr { busyS with moves := [.grant 0] } ≠ some (.rd .ctrl) ∧
    servedInstr (oneS.withFetchWord 37 0x0000000000) = some (.rd .ctrl) := by decide

theorem witness_SetLaneChangesOnlyItsLane : 15 < 16 ∧ 7 < 8 := by decide

theorem witness_LaneFormEqualsLaneByLane :
    (∀ i : Fin 8, i ∈ [0, 7, 3] ↔ i ∈ [3, 0, 7, 0]) ∧
    (∀ i : Fin 8, i ∈ [7, 4] ↔ i ∈ [0, 3, 4, 7] ∧ 4 ≤ i.val) ∧
    ∀ i : Fin 8, i ∈ [3, 0] ↔ i ∈ [0, 3, 4, 7] ∧ i.val ≤ 3 := by decide

/-- R121's example: W = 4, y = 1, x = 2 reads BM_BASE + 6. -/
theorem test_bitmapAddr : bitmapAddr (operands { oneS with bmSize := 0x00020004 }) { x := 2, y := 1 } = 0x20000006 := by
  decide

/-- V-A4 and V-A11: the largest offset and the smallest. -/
theorem witness_PixelLandingArithmetic :
    (let o := operands { oneS with xOffset := 1403 }
     { x := 0, y := 0 } ∈ keptPixels o ∧ pixelOffset o { x := 0, y := 0 } = 2645984) ∧
    (let o := operands { oneS with yOffset := 1871 }
     { x := 0, y := 0 } ∈ keptPixels o ∧ pixelOffset o { x := 0, y := 0 } = 11268) := by decide

theorem witness_DistinctPixelsDistinctLanes :
    let o := operands { oneS with bmSize := 0x00010002 }
    { x := 0, y := 0 } ∈ keptPixels o ∧ { x := 1, y := 0 } ∈ keptPixels o ∧
      ({ x := 0, y := 0 } : Pixel) ≠ { x := 1, y := 0 } := by decide

theorem witness_NextRowOneStrideBefore :
    let o := operands { oneS with bmSize := 0x00020001 }
    { x := 0, y := 0 } ∈ keptPixels o ∧ { x := 0, y := 1 } ∈ keptPixels o := by decide

/-- A transparent pixel; a word with a landed pixel in lane 0 and none in lane 7; and V-B2's last byte of the frame
with a landed pixel in lane 4 and none in lane 7. -/
theorem witness_DrawnLanesHoldThePhaseOthersKeepTheirs :
    (let m : Memory := [(0x10285E84, 0), (0x10285E85, 0x40), (0x20000000, 0)]
     let o := operands oneS
     { x := 0, y := 0 } ∈ keptPixels o ∧ m.read (bitmapAddr o { x := 0, y := 0 }) = some 0 ∧
     m.readWord (o.fbBase + pixelOffset o { x := 0, y := 0 }) = some 0x4000 ∧
     drawnWord o m (pixelOffset o { x := 0, y := 0 }) = some 0x4000 ∧
     15 = 15 - 2 * (pixelLane o { x := 0, y := 0 }).val) ∧
    (let o := operands oneS
     oneS.mem.readWord (o.fbBase + 2645636) = some 0 ∧
     (∃ p ∈ landedPixels o oneS.mem, pixelOffset o p = 2645636 ∧ (pixelLane o p).val = 7 - 15 / 2 ∧
       pixelDropped o p = false) ∧
     ∀ p ∈ landedPixels o oneS.mem, pixelOffset o p = 2645636 → (pixelLane o p).val = 7 - 0 / 2 →
       pixelDropped o p = true) ∧
    (let o := operands { oneS with byteClip := true, fbLen := 2645637, xOffset := 12 }
     o.byteClip = true ∧ 2645636 + 1 = o.fbLen ∧ oneS.mem.read (o.fbBase + 2645636) = some 0 ∧
     (∃ p ∈ landedPixels o oneS.mem, pixelOffset o p = 2645636 ∧ (pixelLane o p).val = 7 - 7 / 2) ∧
     ∀ p ∈ landedPixels o oneS.mem, pixelOffset o p = 2645636 → (pixelLane o p).val ≠ 7 - 0 / 2) := by decide

/-- V-D1's memory after the command. -/
theorem witness_DrawIsIdempotent :
    startError (operands oneS) = none ∧
    ∀ a, Memory.read [(0x10285E84, 0), (0x10285E85, 0x80), (0x20000000, 1)] a
      = drawByte (operands oneS) oneS.mem a := by
  refine ⟨by decide, fun a => ?_⟩
  by_cases h4 : a = 0x10285E84
  · subst h4; decide
  by_cases h5 : a = 0x10285E85
  · subst h5; decide
  have hb : (operands oneS).fbBase = 0x10000000 := by decide
  have hr : Memory.read [(0x10285E84, 0), (0x10285E85, 0x80), (0x20000000, 1)] a = oneS.mem.read a := by
    simp [oneS, Memory.read, Ne.symm h4, Ne.symm h5]
  rw [hr, drawByte, paintByte, hb]
  split
  · rfl
  · have hl : wordLanes (operands oneS) (landedPixels (operands oneS) oneS.mem) ((a - 0x10000000) / 2 * 2) = [] :=
      touched_one _ _ (by omega)
    simp only [hl, List.isEmpty_nil, if_true]

theorem witness_ClippingAndDropCorners :
    2645986 ≤ (operands { oneS with fbLen := 2645986 }).fbLen ∧
    ({ oneS with yOffset := 0x80000000 } : State).yOffset = 0x80000000 ∧
    { x := 0, y := 0 } ∈ keptPixels (operands oneS) := by decide

/-- R119's and R144's corners, and R116's: buffer_x 7 and 1404 are clipped, 8 and 1403 kept, buffer_y_pos -1 and
1872 skipped, 0 and 1871 kept. -/
theorem test_clip_corners :
    let kept (x y : Word) : Nat := (keptPixels (operands { oneS with xOffset := x, yOffset := y })).length
    kept 7 0 = 0 ∧ kept 8 0 = 1 ∧ kept 1403 0 = 1 ∧ kept 1404 0 = 0 ∧
    kept 8 0xFFFFFFFF = 0 ∧ kept 8 1871 = 1 ∧ kept 8 1872 = 0 := by decide

/-- The guard at the end of the frame: a frame that ends with the word, one byte before its end (with the byte-clip
policy and without it, in lanes 0 and 4), and where the word begins. -/
theorem test_guard_corners :
    let dropped (len x : Word) (clip : Bool) : Bool :=
      pixelDropped (operands { oneS with fbLen := len, xOffset := x, byteClip := clip }) { x := 0, y := 0 }
    dropped 2645638 8 false = false ∧ dropped 2645637 12 false = true ∧ dropped 2645637 12 true = false ∧
    dropped 2645637 11 true = true ∧ dropped 2645636 12 true = true := by decide

theorem witness_EngineAccessesStayInRange :
    let s : State := { busyS with moves := [.grant 0] }
    s.Inv ∧ ∃ t e, step s = .next t ∧ t.history = e :: s.history ∧ e.agent = .engine :=
  ⟨busyS_inv _, _, _, rfl, rfl, rfl⟩

theorem witness_EngineWritesOnlyTheFrame :
    let s : State := { busyS with moves := [.grant 0] }
    s.Inv ∧ engineMovesNext s ∧ (∃ t, step s = .next t) ∧
      (frameRange (operands s)).covers 0x0FFFFFFF = false ∧ (frameRange (operands s)).covers 0x10286400 = false :=
  ⟨busyS_inv _, .inr ⟨0, [], rfl⟩, ⟨_, rfl⟩, by decide, by decide⟩

theorem witness_CompletionEndsTheCommand :
    doneS.rst = false ∧ doneS.eng = .busy ∧ engineMovesNext doneS ∧ doneS.work.toRead = [] ∧
      doneS.work.mayRead = [] ∧ pendingWords doneS = [] :=
  ⟨by decide, by decide, .inr ⟨0, [], rfl⟩, by decide, by decide, by decide⟩

theorem witness_UnbackedAddressStopsTheEngine :
    (let s : State := acceptCommand { oneS with mem := [] }
     s.rst = false ∧ s.eng = .busy ∧ stuckAt s (.readPixel { x := 0, y := 0 }) = some 0x20000000 ∧ s.moves = [] ∧
       pickAction (Config.engineOrder s.draws) (engineActions s) = some (.readPixel { x := 0, y := 0 })) ∧
    (let s : State := acceptCommand { oneS with mem := [(0x10285E84, 0), (0x20000000, 1)] }
     stuckAt s (.readFrame 2645636) = some 0x10285E84 ∧
       pickAction 1 (engineActions s) = some (.readFrame 2645636)) ∧
    (let s : State := acceptCommand { oneS with bmSize := 0x00010002, xOffset := 7, mem := [(0x20000001, 0)] }
     stuckAt s (.readClipped { x := 0, y := 0 }) = some 0x20000000 ∧
       pickAction 1 (engineActions s) = some (.readClipped { x := 0, y := 0 })) := by decide

/-- V-D2 with a frame of two bytes, all backed. -/
def tinyS : State :=
  { acceptCommand { oneS with fbLen := 2, mem := [(0x10000000, 0), (0x10000001, 0), (0x20000000, 1)] } with
    moves := [.grant 0] }

theorem witness_EveryEngineMoveMakesProgress :
    tinyS.Inv ∧ tinyS.rst = false ∧ tinyS.eng = .busy ∧ rangesBacked (operands tinyS) tinyS.mem ∧
      engineMovesNext tinyS := by
  refine ⟨⟨by decide, by decide, by decide, fun h => absurd h (by decide), by decide,
    fun _ => ⟨by decide, by decide, by decide, by decide⟩, by decide, by decide, by decide, by decide,
    fun h => absurd h (by decide)⟩, by decide, by decide,
    fun a h => ?_, .inr ⟨0, [], rfl⟩⟩
  have hb : bitmapRange (operands tinyS) = { base := 0x20000000, len := 1 } := by decide
  have hf : frameRange (operands tinyS) = { base := 0x10000000, len := 2 } := by decide
  rw [hb, hf] at h
  simp only [Region.covers, Bool.and_eq_true, decide_eq_true_eq] at h
  have : a = 0x20000000 ∨ a = 0x10000000 ∨ a = 0x10000001 := by omega
  rcases this with rfl | rfl | rfl <;> decide

/-- V-D1 accepted, with a poll, an ignored write and host accesses outside the ranges among the grants. -/
def mixedMoves : List Move :=
  [.grant 0, .reg { size := 4, low := 0, txn := txnBytes (readTxn .status) },
   .reg { size := 4, low := 0, txn := txnBytes (writeTxn .fbLen 0) }, .grant 0, .memWrite 0x30000000 7,
   .memRead 0x20000000, .grant 0, .grant 0]

/-- The state after a number of steps. -/
def runS (n : Nat) (s : State) : State := after (Host.Core.run Sys2Proof.core n s)

/-- Steps make a run where each state before the last is busy and each move is admitted. -/
theorem busyRun_of_steps (ok : Operands → Move → Bool) (s : State) :
    ∀ n, (∀ k < n, (runS k s).eng = .busy ∧
        (∀ m, (runS k s).moves.head? = some m → ok (operands (runS k s)) m = true) ∧
        step (runS k s) = .next (runS (k + 1) s)) → BusyRun ok s (runS n s)
  | 0, _ => .start
  | n + 1, h =>
    have hn := h n (Nat.lt_succ_self n)
    .next (busyRun_of_steps ok s n (fun k hk => h k (Nat.lt_succ_of_lt hk))) hn.1 hn.2.1 hn.2.2

/-- The accepted V-D1 with the mixed moves to come. -/
def mixedS : State := { busyS with moves := mixedMoves }

theorem mixed_run : CommandRun mixedS (runS 8 mixedS) := by
  refine busyRun_of_steps keepsDuty mixedS 8 (fun k hk => ?_)
  have : k = 0 ∨ k = 1 ∨ k = 2 ∨ k = 3 ∨ k = 4 ∨ k = 5 ∨ k = 6 ∨ k = 7 := by omega
  rcases this with rfl | rfl | rfl | rfl | rfl | rfl | rfl | rfl <;>
    exact ⟨rfl, fun m hm => by cases hm; rfl, rfl⟩

theorem mixed_accepted :
    exec (.drawChar noFields) { oneS with moves := mixedMoves } = .next mixedS ∧ mixedS.eng = .busy := ⟨rfl, rfl⟩

/-- The bitmap byte is read and the word read; another agent then writes both, and the engine writes the word. -/
def racyMoves : List Move :=
  [.grant 0, .grant 0, .memWrite 0x20000000 0, .memWrite 0x10285E85 0xFF, .grant 0]

/-- The accepted V-D1 with the racing moves to come. -/
def racyS : State := { busyS with moves := racyMoves }

theorem racy_run : RacyRun racyS (runS 5 racyS) := by
  refine busyRun_of_steps noReset racyS 5 (fun k hk => ?_)
  have : k = 0 ∨ k = 1 ∨ k = 2 ∨ k = 3 ∨ k = 4 := by omega
  rcases this with rfl | rfl | rfl | rfl | rfl <;> exact ⟨rfl, fun m hm => by cases hm; rfl, rfl⟩

theorem racy_accepted :
    exec (.drawChar noFields) { oneS with moves := racyMoves } = .next racyS ∧ racyS.eng = .busy := ⟨rfl, rfl⟩

theorem witness_BitmapReadsBounded :
    ({ oneS with moves := racyMoves } : State).eng = .idle ∧ oneS.rst = false ∧ RacyRun racyS (runS 5 racyS) :=
  ⟨rfl, rfl, racy_run⟩

theorem witness_AcceptedCommandCompletes :
    oneS.eng = .idle ∧ oneS.rst = false ∧ exec (.drawChar noFields) oneS = .next busyS ∧ busyS.eng = .busy ∧
      commandBacked (operands busyS) oneS.mem ∧ ∀ m ∈ mixedMoves, servable (operands busyS) oneS.mem m = true :=
  ⟨by decide, by decide, rfl, by decide, oneS_backed, by decide⟩

theorem witness_UndisturbedDrawMeetsContract :
    CommandRun mixedS (runS 8 mixedS) ∧ (runS 8 mixedS).eng = .idle ∧
      hostWrote 0x30000000 (runS 8 mixedS).history = true ∧ hostWrote 0x30000001 (runS 8 mixedS).history = false :=
  ⟨mixed_run, rfl, rfl, rfl⟩

theorem witness_EachWordReadOnceWrittenOnce :
    CommandRun mixedS (runS 8 mixedS) ∧ (runS 8 mixedS).eng = .idle ∧
      touchedLanes (operands mixedS) oneS.mem 2645636 ≠ [] ∧ touchedLanes (operands mixedS) oneS.mem 0 = [] :=
  ⟨mixed_run, rfl, by decide, by decide⟩

/-- A word whose opaque pixel is read and which is read itself, with a transparent pixel in it still to be read. -/
def earlyS : State :=
  { busyS with
    bmSize := 0x00010002
    mem := [(0x10285E84, 0), (0x10285E85, 0), (0x20000000, 1), (0x20000001, 0)]
    atStart := [(0x10285E84, 0), (0x10285E85, 0), (0x20000000, 1), (0x20000001, 0)]
    work :=
      { toRead := [{ x := 1, y := 0 }], mayRead := [], held := [{ off := 2645636, value := 0 }], updated := [] }
    moves := [.grant 1] }

/-- Read q, read the word, write the word, read p (whose byte is 0): the write is open, and a grant makes it. -/
theorem test_write_before_transparent_read :
    pickAction 1 (engineActions earlyS) = some (.writeFrame 2645636) ∧
    (after (step earlyS)).mem.readWord 0x10285E84 = some 0x8000 ∧
    engineActions (after (step earlyS)) = [.readPixel { x := 1, y := 0 }] := by decide

theorem witness_AccessOrderIsFreeButForItsRule :
    (∃ w before new, RacyRun racyS (runS 5 racyS) ∧ (runS 5 racyS).history = [] ++ w :: before ∧
      before = new ++ oneS.history ∧ w.agent = .engine ∧ w.kind = .write) ∧
    (earlyS.eng = .busy ∧ { x := 0, y := 0 } ∈ landed earlyS ∧
      pixelDropped (operands earlyS) { x := 0, y := 0 } = false ∧
      pixelOffset (operands earlyS) { x := 0, y := 0 } ∉ earlyS.work.updated ∧
      (heldValue (pixelOffset (operands earlyS) { x := 0, y := 0 }) earlyS.work.held).isSome = true ∧
      ∀ q ∈ landed earlyS, pixelOffset (operands earlyS) q = pixelOffset (operands earlyS) { x := 0, y := 0 } →
        q ∉ earlyS.work.toRead) ∧
    (earlyS.rst = false ∧ ∃ t, performAction (.writeFrame 2645636) { earlyS with moves := [] } = .ok t) ∧
    heldValue (pixelOffset (operands busyS) { x := 0, y := 0 }) busyS.work.held = none :=
  ⟨⟨_, _, _, racy_run, rfl, (List.append_nil _).symm, rfl, rfl⟩, by decide, ⟨by decide, _, rfl⟩, by decide⟩

/-- P2's instances: y_offset = -1 with one row, and y_offset = 1872. -/
theorem witness_RowsOutsideDrawNothing :
    (let s : State := { oneS with yOffset := 0xFFFFFFFF }
     (∃ t, exec (.drawChar noFields) s = .next t ∧ t.eng = .busy) ∧ s.rst = false ∧
     ∀ y : Nat, y < (s.bmSize.extractLsb' 16 16).toNat →
       (y : Int) + s.yOffset.toInt < 0 ∨ 1872 ≤ (y : Int) + s.yOffset.toInt) ∧
    (let s : State := { oneS with yOffset := 1872 }
     ∀ y : Nat, y < (s.bmSize.extractLsb' 16 16).toNat →
       (y : Int) + s.yOffset.toInt < 0 ∨ 1872 ≤ (y : Int) + s.yOffset.toInt) :=
  ⟨⟨⟨_, rfl, by decide⟩, rfl, by decide⟩, by decide⟩

theorem witness_EmptyCommandCompletes :
    (let s : State := { oneS with bmSize := 0x00010000 }
     s.eng = .idle ∧ s.rst = false ∧ startError (operands s) = none ∧
       onDevice s.devices (operands s) = false ∧ s.bmSize.extractLsb' 0 16 = 0) ∧
    (let s : State := { oneS with bmSize := 0x0000FFFF }
     s.eng = .idle ∧ s.rst = false ∧ startError (operands s) = none ∧
       onDevice s.devices (operands s) = false ∧ s.bmSize.extractLsb' 16 16 = 0) := by decide

/-- The shortest frame that holds the word, and one a byte shorter. -/
theorem witness_SinglePixelAtOrigin :
    (let s : State := { oneS with fbLen := 2645638 }
     s.eng = .idle ∧ s.rst = false ∧ (∃ t, exec (.drawChar noFields) s = .next t ∧ t.eng = .busy) ∧
       s.bmSize = 0x00010001 ∧ s.xOffset = 8 ∧ s.yOffset = 0 ∧ s.mem.read s.bmBase.toNat = some 1 ∧
       s.mem.readWord (s.fbBase.toNat + 2645636) = some 0) ∧
    (let s : State := { oneS with fbLen := 2645637 }
     (∃ t, exec (.drawChar noFields) s = .next t ∧ t.eng = .busy) ∧ s.fbLen.toNat < 2645638) :=
  ⟨⟨by decide, by decide, ⟨_, rfl, by decide⟩, by decide, by decide, by decide, by decide, by decide⟩,
   ⟨⟨_, rfl, by decide⟩, by decide⟩⟩

theorem witness_HostAccessesWhileIdle : oneS.eng = .idle ∧ oneS.mem.read (0x20000000 : Word).toNat = some 1 := by
  decide

/-- A byte the command writes, and one it does not. -/
theorem witness_HostReadDuringCommand :
    (busyS.Inv ∧ busyS.Faithful ∧ busyS.eng = .busy ∧ busyS.dutyKept) ∧
    (inDispute busyS (0x10285E85 : Word).toNat = true ∧
      ∃ t, step { busyS with moves := [.memRead 0x10285E85] } = .next t) ∧
    (inDispute busyS (0x20000000 : Word).toNat = false ∧
      ∃ t, step { busyS with moves := [.memRead 0x20000000] } = .next t) := by
  refine ⟨⟨busyS_inv [], busyS_faithful [], by decide, busyS_duty []⟩, ⟨by decide, ?_⟩, by decide, _, rfl⟩
  have hv : hostReadValue busyS (0x10285E85 : Word).toNat
      = some ((if Config.hostReadsAfter 0 = true then some 0x80 else some 0).getD 0) := rfl
  have hs : step { busyS with moves := [.memRead 0x10285E85] } = hostRead 0x10285E85 busyS := rfl
  rw [hs, hostRead, hv]
  exact ⟨_, rfl⟩

/-- The accepted V-D1 with a read of a frame byte between the engine's moves. -/
def watchedS : State :=
  { busyS with moves := [.grant 0, .memRead 0x10285E85, .grant 0, .grant 0, .grant 0] }

theorem watched_run : RacyRun watchedS (runS 5 watchedS) := by
  refine busyRun_of_steps noReset watchedS 5 (fun k hk => ?_)
  have : k = 0 ∨ k = 1 ∨ k = 2 ∨ k = 3 ∨ k = 4 := by omega
  rcases this with rfl | rfl | rfl | rfl | rfl <;> exact ⟨rfl, fun m hm => by cases hm; rfl, rfl⟩

/-- The clause over a whole command: its third event from the last is that read. -/
theorem witness_HostReadDuringCommand_run :
    ∃ e later before new, RacyRun watchedS (runS 5 watchedS) ∧ (runS 5 watchedS).eng = .idle ∧
      (runS 5 watchedS).history = later ++ e :: before ∧ before = new ++ oneS.history ∧ e.agent = .host ∧
      e.kind = .read ∧ (frameRange (operands watchedS)).covers e.addr = true :=
  ⟨_, [_, _], _, _, watched_run, rfl, rfl, (List.append_nil _).symm, rfl, rfl, by decide⟩

theorem witness_HostWriteDuringCommand :
    busyS.eng = .busy ∧ frameWordOf (operands busyS) (0x10285E85 : Word).toNat = some 2645636 ∧
      2645636 ∉ busyS.work.updated ∧ frameWordOf (operands busyS) (0x20000000 : Word).toNat = none := by decide

/-- The word of V-D1, read and ready to be written, after another agent has written its first byte. -/
def racedS : State :=
  { busyS with
    work := { toRead := [], mayRead := [], held := [{ off := 2645636, value := 0 }], updated := [] }
    raced := [{ addr := 0x10285E84, late := false, byte := 9, word := 7 }], moves := [.grant 0] }

theorem racedS_inv : racedS.Inv :=
  ⟨by decide, by decide, by decide, fun h => absurd h (by decide), by decide,
    fun _ => ⟨by decide, by decide, by decide, by decide⟩, by decide, by decide, by decide, by decide,
    fun h => absurd h (by decide)⟩

theorem doneS_now :
    (doneS.eng = .busy → ∀ off ∈ doneS.work.held.map HeldWord.off ++ doneS.work.updated,
      ∃ p ∈ landed doneS, pixelOffset (operands doneS) p = off ∧ pixelDropped (operands doneS) p = false) ∧
    (doneS.eng = .busy → ∀ h ∈ doneS.work.held, h.off ∉ doneS.work.updated) ∧
    (doneS.eng = .busy → ∀ p ∈ doneS.work.toRead, pixelOffset (operands doneS) p ∈ doneS.work.updated →
      p ∉ landed doneS) ∧
    (doneS.eng = .busy → ∀ p ∈ doneS.work.toRead, ∀ r ∈ doneS.raced, r.addr = bitmapAddr (operands doneS) p →
      r.late = false) := by decide

theorem doneS_inv (moves : List Move) : ({ doneS with moves := moves } : State).Inv :=
  ⟨(by decide : doneS.mem.wf = true), (by decide : doneS.errCode = .none ↔ doneS.err = false),
    (by decide : doneS.eng = .busy → doneS.done = false ∧ doneS.err = false),
    fun h => absurd h (by decide : doneS.eng ≠ .idle),
    (by decide : doneS.eng = .busy → startError (operands doneS) = none),
    fun _ => (⟨by decide, by decide, by decide, by decide⟩ : workValid (operands doneS) doneS.work),
    doneS_now.1, doneS_now.2.1, doneS_now.2.2.1, doneS_now.2.2.2,
    fun h => absurd h (by decide : doneS.rst ≠ true)⟩

/-- The word of V-D1 written as the command gives it. -/
theorem doneS_faithful : doneS.Faithful where
  held_value := fun _ _ h => absurd h List.not_mem_nil
  updated_value := fun _ => by decide
  pending_value := fun _ off _ hu _ a ha => by
    have h4 : a ≠ 0x10285E84 ∧ a ≠ 0x10285E85 := by
      have hb : (operands doneS).fbBase = 0x10000000 := by decide
      have hne : off ≠ 2645636 := by simpa [doneS] using hu
      simp only [wordAddrs, hb] at ha
      split at ha <;> simp at ha <;> omega
    simp [doneS, busyS, oneS, acceptCommand, Memory.read, h4.1.symm, h4.2.symm]
  other_bytes := fun _ a _ h => by
    have hw : wordAddrs (operands doneS) 2645636 = [0x10285E84, 0x10285E85] := by decide
    have h4 : a ∉ [0x10285E84, 0x10285E85] := hw ▸ h 2645636 (by decide)
    simp only [List.mem_cons, List.not_mem_nil, or_false, not_or] at h4
    simp [doneS, busyS, oneS, acceptCommand, Memory.read, Ne.symm h4.1, Ne.symm h4.2]
  shown_value := fun _ _ h => absurd h List.not_mem_nil

/-- A raced word about to be written; a write into a word already written and into one not yet written; a write
to a byte still to be read, and to one already read; and a word written as the command gives it. -/
theorem witness_RacesGiveFreeValues :
    (racedS.Inv ∧ racedS.eng = .busy ∧ wordFate (operands racedS) 2645636 = .whole ∧
      racedWord racedS 2645636 = some 7 ∧ pickAction 0 (engineActions racedS) = some (.writeFrame 2645636)) ∧
    (({ doneS with moves := [.memWrite 0x10285E84 5] } : State).Inv ∧ doneS.eng = .busy ∧
      frameWordOf (operands doneS) (0x10285E84 : Word).toNat = some 2645636 ∧ 2645636 ∈ doneS.work.updated ∧
      wordFate (operands doneS) 2645636 = .whole ∧ racedWord doneS 2645636 = none) ∧
    (({ busyS with moves := [.memWrite 0x20000000 5] } : State).Inv ∧
      ({ busyS with moves := [.memWrite 0x20000000 5] } : State).Faithful ∧
      2645636 ∉ busyS.work.updated ∧ heldValue 2645636 busyS.work.held = none ∧
      { x := 0, y := 0 } ∈ keptPixels (operands busyS) ∧ { x := 0, y := 0 } ∈ busyS.work.toRead ∧
      bitmapAddr (operands busyS) { x := 0, y := 0 } = (0x20000000 : Word).toNat ∧
      raceAt busyS (0x20000000 : Word).toNat = none) ∧
    (({ doneS with moves := [.memWrite 0x20000000 5] } : State).Inv ∧ { x := 0, y := 0 } ∉ doneS.work.toRead ∧
      { x := 0, y := 0 } ∈ keptPixels (operands doneS) ∧ raceAt doneS (0x20000000 : Word).toNat = none) ∧
    (doneS.Faithful ∧ pendingWords doneS = [] ∧ inDispute doneS 0x10285E85 = true) :=
  ⟨⟨racedS_inv, by decide, by decide, by decide, by decide⟩,
   ⟨doneS_inv _, by decide, by decide, by decide, by decide, by decide⟩,
   ⟨busyS_inv _, busyS_faithful _, by decide, by decide, by decide, by decide, by decide, by decide⟩,
   ⟨doneS_inv _, by decide, by decide, by decide⟩,
   ⟨doneS_faithful, by decide, by decide⟩⟩

/-- The byte-clip clauses of the same statement: V-B2's frame, one pixel in a lane of the byte in range, the
byte read and raced; and that byte before any race. -/
theorem witness_RacesGiveFreeValues_byteClip :
    let s : State := { racedS with byteClip := true, fbLen := 2645637, xOffset := 12 }
    wordFate (operands s) 2645636 = .firstByte ∧ racedWord s 2645636 = some 7 ∧
      pickAction 0 (engineActions s) = some (.writeFrame 2645636) ∧
      frameWordOf (operands s) (0x10285E84 : Word).toNat = some 2645636 ∧
      racedWord { s with raced := [] } 2645636 = none := by decide

end Sys2Proof.Tests
end

section
/-! SUPPORT. What one step and one instruction can do, said once: a case for each kind of move and for each kind
of answer. -/

namespace Sys2Proof.Machine

/-! ## What an instruction answers -/

/-- What a served instruction does to the machine when it answers a next state: the kinds of answer of
40_control.md R96 to R105 and 41_draw_char.md R110 to R112. -/
inductive ExecCase (s : State) : Instr → State → Prop where
  /-- A write that the busy engine ignores (R97). -/
  | ignored {i : Instr} : s.eng = .busy → isGuardedWrite i = true → ExecCase s i (setWign s)
  /-- A write to a read-only or reserved slot (R105). -/
  | readOnly {i : Instr} : isGuardedWrite i = false → ExecCase s i s
  | acknowledged (f : StatusFields) : ExecCase s (.wrStatus f) (acknowledge f s)
  | read (r : RegName) : ExecCase s (.rd r) (readRegister r s)
  /-- A write to one of the operand registers (R96). -/
  | stored {i : Instr} (fbBase fbLen bmBase bmSize xOffset yOffset : Word) (phase : BitVec 2) :
      s.eng = .idle → isGuardedWrite i = true →
        ExecCase s i { s with fbBase, fbLen, bmBase, bmSize, xOffset, yOffset, phase }
  | nop (f : CtrlFields) : s.eng = .idle → ExecCase s (.nop f) (storeCtrl f s)
  /-- A command that fails: a reserved one, or a DRAW_CHAR that fails a check (R102, R111). -/
  | rejected {i : Instr} (f : CtrlFields) {c : ErrCode} : s.eng = .idle → isGuardedWrite i = true → c ≠ .none →
      ExecCase s i (raiseCmdError c (commandStart (storeCtrl f s)))
  | accepted (f : CtrlFields) : s.eng = .idle → startError (operands (storeCtrl f s)) = none →
      ExecCase s (.drawChar f) (acceptCommand (commandStart (storeCtrl f s)))

section
variable {s t : State} {i : Instr}

theorem ExecCase.of_operandWrite {stored : State} (hi : isGuardedWrite i = true)
    (hstored : s.eng = .idle → ExecCase s i stored) (h : operandWrite stored s = .next t) : ExecCase s i t := by
  obtain ⟨hidle, rfl⟩ | ⟨hbusy, rfl⟩ := operandWrite_next _ _ _ h
  · exact hstored hidle
  · exact .ignored hbusy hi

theorem ExecCase.of_ctrlWrite {f : CtrlFields} {command : State → Host.Outcome State Fault Refusal}
    (hi : isGuardedWrite i = true)
    (hcommand : s.eng = .idle → command (storeCtrl f s) = .next t → ExecCase s i t)
    (h : ctrlWrite f command s = .next t) : ExecCase s i t := by
  obtain ⟨hbusy, e⟩ | ⟨hidle, e⟩ := ctrlWrite_cases f command s <;> rw [e] at h
  · cases h; exact .ignored hbusy hi
  · exact hcommand hidle h

theorem ExecCase.of_reservedCommand {f : CtrlFields} (hi : isGuardedWrite i = true)
    (h : ctrlWrite f reservedCommand s = .next t) : ExecCase s i t :=
  .of_ctrlWrite hi (fun hidle h => by cases h; exact .rejected f hidle hi (by decide)) h

theorem ExecCase.of_drawChar {f : CtrlFields} (h : execDrawChar f s = .next t) : ExecCase s (.drawChar f) t := by
  refine .of_ctrlWrite rfl (fun hidle h => ?_) h
  obtain ⟨c, hc, e⟩ | ⟨-, -, e⟩ | ⟨hnone, -, e⟩ := drawCharStart_cases (commandStart (storeCtrl f s)) <;>
    simp only [e] at h
  · cases h; exact .rejected f hidle rfl (startError_ne_none _ c hc)
  · cases h
  · cases h; exact .accepted f hidle hnone

/-- The inversion of `exec`. -/
theorem execCase_of_next (h : exec i s = .next t) : ExecCase s i t := by
  cases i with
  | nop f => exact .of_ctrlWrite rfl (fun hidle h => by cases h; exact .nop f hidle) h
  | drawChar f => exact .of_drawChar h
  | reservedCmd23 f c => exact .of_reservedCommand rfl h
  | reservedCmd47 f c => exact .of_reservedCommand rfl h
  | reservedCmd8F f c => exact .of_reservedCommand rfl h
  | wrStatus f => cases h; exact .acknowledged f
  | wrFbBase v => exact .of_operandWrite rfl (.stored v _ _ _ _ _ _ · rfl) h
  | wrFbLen v => exact .of_operandWrite rfl (.stored _ v _ _ _ _ _ · rfl) h
  | wrBmBase v => exact .of_operandWrite rfl (.stored _ _ v _ _ _ _ · rfl) h
  | wrBmSize height width => exact .of_operandWrite rfl (.stored _ _ _ (height ++ width) _ _ _ · rfl) h
  | wrXOffset v => exact .of_operandWrite rfl (.stored _ _ _ _ v _ _ · rfl) h
  | wrYOffset v => exact .of_operandWrite rfl (.stored _ _ _ _ _ v _ · rfl) h
  | wrPhase d p => exact .of_operandWrite rfl (.stored _ _ _ _ _ _ p · rfl) h
  | wrRo9 v => cases h; exact .readOnly rfl
  | wrRoAB r v => cases h; exact .readOnly rfl
  | wrRoCF r v => cases h; exact .readOnly rfl
  | rd r => cases h; exact .read r

end

/-! ## What the engine and the hosts leave unchanged -/

section
variable {s t : State}

theorem eng_idle_or_busy (s : State) : s.eng = .idle ∨ s.eng = .busy := by cases s.eng <;> simp

/-- An engine move but completion touches the engine's position, memory and the history only (R60, R69). -/
theorem performAction_fields {a : Action} (h : performAction a s = .ok t) :
    (a = .complete ∧ t = completeCommand s) ∨ ∃ work mem history, t = { s with work, mem, history } := by
  cases a with
  | readPixel p => obtain ⟨b, -, rfl⟩ := readPixelStep_ok p s t h; exact .inr ⟨_, _, _, rfl⟩
  | readClipped p => obtain ⟨b, -, rfl⟩ := readClippedStep_ok p s t h; exact .inr ⟨_, _, _, rfl⟩
  | readFrame off => obtain ⟨size, v, -, rfl⟩ := readFrameStep_ok off s t h; exact .inr ⟨_, _, _, rfl⟩
  | writeFrame off =>
    cases hv : heldValue off s.work.held with
    | none =>
      simp only [performAction, writeFrameStep, hv] at h
      cases h; exact .inr ⟨_, _, _, rfl⟩
    | some v =>
      obtain ⟨size, v, m, -, rfl⟩ := writeFrameStep_ok off s t v hv h
      exact .inr ⟨_, _, _, rfl⟩
  | complete => cases h; exact .inl ⟨rfl, rfl⟩

theorem hostWrite_fields (a : Word) (v : Byte) (s : State) :
    ∃ mem history raced shown draws, hostWrite a v s = { s with mem, history, raced, shown, draws } := by
  obtain he | he := eng_idle_or_busy s
  · rw [hostWrite_idle a v s he]; exact ⟨_, _, _, _, _, rfl⟩
  · rw [hostWrite_busy a v s he]; exact ⟨_, _, _, _, _, rfl⟩

theorem hostRead_fields {a : Word} (h : hostRead a s = .next t) :
    ∃ history shown draws, t = { s with history, shown, draws } ∧ (s.eng = .idle → shown = s.shown) := by
  obtain ⟨b, -, rfl⟩ := hostRead_next a s t h
  exact ⟨_, _, _, rfl, fun hi => by simp [showByte, State.busy, hi]⟩

end

/-! ## What a step does -/

/-- What a step that answers a next state has done: one case for each agent (R19, R67). -/
inductive StepCase (s : State) : State → Prop where
  /-- Nothing but a move taken off the list: a block idle or held in reset, an access that is lost, or an engine
  at an address that is not backed. -/
  | wait (moves : List Move) : StepCase s { s with moves }
  | served {i : Instr} {t : State} (rest : List Move) : s.rst = false → servedInstr s = some i →
      exec i { s with moves := rest } = .next t → StepCase s t
  | engine {a : Action} {t : State} (moves : List Move) (draws : Nat) : s.rst = false → s.eng = .busy →
      engineMovesNext s → a ∈ engineActions { s with moves, draws } →
        performAction a { s with moves, draws } = .ok t → StepCase s t
  | hostWrite (a : Word) (v : Byte) (rest : List Move) : s.moves = .memWrite a v :: rest →
      StepCase s (hostWrite a v { s with moves := rest })
  | hostRead {t : State} (a : Word) (rest : List Move) : s.moves = .memRead a :: rest →
      hostRead a { s with moves := rest } = .next t → StepCase s t
  | reset (asserted : Bool) (rest : List Move) : s.moves = .rst asserted :: rest →
      StepCase s (setRst asserted { s with moves := rest })

section
variable {s t : State} {rest : List Move}

/-- A REG access, on the bus or not, that is served is the instruction the step serves. -/
theorem StepCase.of_serveReg {a : RegAccess}
    (hserved : s.rst = false → servedInstr s = (fetchReg a).toOption)
    (h : serveReg a { s with moves := rest } = .next t) : StepCase s t := by
  obtain ⟨-, rfl⟩ | ⟨hrst, i, hi, hexec⟩ := serveReg_next _ _ _ h
  · exact .wait rest
  · exact .served rest hrst ((hserved hrst).trans (by rw [hi]; rfl)) hexec

theorem StepCase.of_grant {k : Nat} (hm : s.moves = .grant k :: rest)
    (h : serve (.grant k) { s with moves := rest } = .next t) : StepCase s t := by
  simp only [serve] at h
  split at h <;> cases h
  · exact .wait rest
  · rename_i hrst
    obtain e | ⟨hb, a, ha, hp⟩ := afterEngine_cases k { s with moves := rest }
    · rw [e]; exact .wait rest
    · exact .engine rest s.draws (by simpa using hrst) hb (.inr ⟨k, rest, hm⟩) ha hp

/-- The inversion of `step`. -/
theorem stepCase_of_next (h : step s = .next t) : StepCase s t := by
  obtain ⟨hm, ⟨-, rfl⟩ | ⟨hrst, hb, ha⟩⟩ | ⟨m, rest, hm, h⟩ := step_next s t h
  · exact .wait t.moves
  · obtain ⟨a, ha, hp⟩ := engineAlone_next s t hb ha
    exact .engine s.moves (s.draws + 1) hrst hb (.inl hm) ha hp
  · cases m with
    | reg a => exact .of_serveReg (fun hrst => by simp [servedInstr, hm, hrst]) h
    | bus b =>
      cases hb : busToReg b with
      | none => simp only [serve, hb] at h; cases h; exact .wait rest
      | some a =>
        simp only [serve, hb] at h
        exact .of_serveReg (fun hrst => by simp [servedInstr, hm, hrst, hb]) h
    | memWrite a v => cases h; exact .hostWrite a v rest hm
    | memRead a => exact .hostRead a rest hm h
    | rst asserted => cases h; exact .reset asserted rest hm
    | grant k => exact .of_grant hm h

end

end Sys2Proof.Machine
end

section
/-! SUPPORT. The invariant of the machine, kept by every step: what leaves the engine alone keeps it by one frame
lemma, an engine access by another, and a race of another agent by the rules of log entry 24. -/

namespace Sys2Proof.Machine

/-! ## Landed pixels -/

/-- The landed pixels are a function of the operands, the races and memory at acceptance (R46). -/
theorem landed_congr {s t : State} (ho : operands t = operands s) (hr : t.raced = s.raced)
    (ha : t.atStart = s.atStart) : landed t = landed s := by
  simp only [landed, drawsAt, raceAt, ho, hr, ha]

theorem landed_subset_keptPixels {s : State} {p : Pixel} (h : p ∈ landed s) : p ∈ keptPixels (operands s) :=
  ((mem_landed s p).mp h).1

/-- Two kept pixels have their bytes at two addresses (R52). -/
theorem bitmapAddr_inj {o : Operands} {p q : Pixel} (hp : p ∈ keptPixels o) (hq : q ∈ keptPixels o)
    (h : bitmapAddr o p = bitmapAddr o q) : p = q := by
  obtain ⟨hpx, -⟩ := (mem_keptPixels o p).mp hp
  obtain ⟨hqx, -⟩ := (mem_keptPixels o q).mp hq
  have hpos : 0 < o.w := by omega
  have hsum : p.x + o.w * p.y = q.x + o.w * q.y := by
    simp only [bitmapAddr, Nat.mul_comm _ o.w] at h; omega
  obtain ⟨hy, hx⟩ := (Nat.div_mod_unique hpos).mpr ⟨hsum, hpx⟩
  obtain ⟨hy', hx'⟩ := (Nat.div_mod_unique (a := q.x + o.w * q.y) hpos).mpr ⟨rfl, hqx⟩
  obtain ⟨px, py⟩ := p
  obtain ⟨qx, qy⟩ := q
  simp only [Pixel.mk.injEq]
  exact ⟨hx.symm.trans hx', hy.symm.trans hy'⟩

theorem pixelAt_bitmapAddr {o : Operands} {p : Pixel} (hp : p ∈ keptPixels o) :
    pixelAt o (bitmapAddr o p) = some p := by
  have hfound : (pixelAt o (bitmapAddr o p)).isSome = true :=
    List.find?_isSome.mpr ⟨p, hp, by simp⟩
  obtain ⟨q, hq⟩ := Option.isSome_iff_exists.mp hfound
  obtain ⟨hkept, haddr⟩ := pixelAt_some o _ q hq
  rw [hq, bitmapAddr_inj hkept hp haddr]

/-- The byte of a kept pixel is read already exactly when the pixel is no longer to be read. -/
theorem alreadyRead_bitmapAddr {s : State} {p : Pixel} (hp : p ∈ keptPixels (operands s)) :
    alreadyRead s (bitmapAddr (operands s) p) = !s.work.toRead.contains p := by
  simp only [alreadyRead, pixelAt_bitmapAddr hp]

/-- A race of another agent changes whether a pixel lands only where its byte is still to be read and the drawn
byte agrees with what has already happened (R75 (b); log entries 21 and 24). -/
theorem mem_landed_addRace_raceOf {s : State} {a : Nat} {p : Pixel}
    (h : p ∈ s.work.toRead → keepsPast (addRace (raceOf s a) s) = false) :
    p ∈ landed (addRace (raceOf s a) s) ↔ p ∈ landed s := by
  rw [mem_landed, mem_landed, operands_addRace]
  refine and_congr_right fun hkept => ?_
  suffices hd : drawsAt (addRace (raceOf s a) s) (bitmapAddr (operands s) p)
      = drawsAt s (bitmapAddr (operands s) p) by rw [hd]
  have hstart : (addRace (raceOf s a) s).atStart = s.atStart := rfl
  have haddr : (raceOf s a).addr = a := rfl
  have hlate : (raceOf s a).late = alreadyRead s a := rfl
  have hbyte : (raceOf s a).byte = raceByteAt s a := rfl
  cases hr : raceAt s (bitmapAddr (operands s) p) with
  | some r => simp only [drawsAt, raceAt_addRace, hr, Option.some_or, hstart]
  | none =>
    by_cases ha : a = bitmapAddr (operands s) p
    · subst ha
      simp only [drawsAt, raceAt_addRace, hr, Option.none_or, haddr, hlate, hbyte, if_true, hstart,
        alreadyRead_bitmapAddr hkept]
      by_cases hread : p ∈ s.work.toRead
      · obtain ⟨hk, e⟩ | ⟨-, e⟩ := raceByteAt_cases s (bitmapAddr (operands s) p)
        · have := h hread
          rw [raceOf, e, hk] at this
          cases this
        · simpa [hread, drawsAt_of_raceAt_none s _ hr] using e
      · simp [hread]
    · simp only [drawsAt, raceAt_addRace, hr, Option.none_or, haddr, if_neg ha, hstart]

/-! ## The invariant over moves that leave the engine alone -/

/-- The engine is where it was, with the same work: its state, its races, the bytes shown of an idle engine, and
the operands of a busy one. -/
structure SameEngine (s t : State) : Prop where
  eng : t.eng = s.eng
  work : t.work = s.work
  raced : t.raced = s.raced
  atStart : t.atStart = s.atStart
  shown : s.eng = .idle → t.shown = s.shown
  operands : s.eng = .busy → operands t = operands s

section
variable {s t : State}

/-- The invariant of an idle engine: what it says of a busy one asks nothing. -/
theorem inv_of_idle (hi : t.eng = .idle) (mem_wf : t.mem.wf = true) (errCode_iff : t.errCode = .none ↔ t.err = false)
    (idle_clear : t.work = Work.empty ∧ t.raced = [] ∧ t.shown = [] ∧ t.atStart = [])
    (rst_block : t.rst = true → t.block = State.reset.block) : t.Inv := by
  have not_busy {P : Prop} (hb : t.eng = .busy) : P := by cases hi.symm.trans hb
  exact ⟨mem_wf, errCode_iff, not_busy, fun _ => idle_clear, not_busy, not_busy, not_busy, not_busy, not_busy,
    not_busy, rst_block⟩

/-- The invariant where the engine is as it was. -/
theorem State.Inv.of_sameEngine (hs : s.Inv) (e : SameEngine s t) (mem_wf : t.mem.wf = true)
    (errCode_iff : t.errCode = .none ↔ t.err = false)
    (busy_flags : s.eng = .busy → t.done = false ∧ t.err = false)
    (rst_block : t.rst = true → t.block = State.reset.block) : t.Inv := by
  have hl (hb : s.eng = .busy) : landed t = landed s := landed_congr (e.operands hb) e.raced e.atStart
  refine ⟨mem_wf, errCode_iff, fun hb => busy_flags (e.eng ▸ hb), fun hi => ?_, fun hb => ?_, fun hb => ?_,
    fun hb => ?_, fun hb => ?_, fun hb => ?_, fun hb => ?_, rst_block⟩ <;> rw [e.eng] at *
  · rw [e.work, e.raced, e.shown hi, e.atStart]; exact hs.idle_clear hi
  · rw [e.operands hb]; exact hs.busy_checked hb
  · rw [e.operands hb, e.work]; exact hs.busy_work hb
  · rw [e.operands hb, e.work, hl hb]; exact hs.busy_touched hb
  · rw [e.work]; exact hs.busy_held hb
  · rw [e.operands hb, e.work, hl hb]; exact hs.busy_order hb
  · rw [e.operands hb, e.work, e.raced]; exact hs.busy_late hb

/-- The invariant where the block is as it was and with it the model's record of the command. -/
theorem State.Inv.of_block_eq (hs : s.Inv) (hblock : t.block = s.block) (hrst : t.rst = s.rst)
    (hraced : t.raced = s.raced) (hstart : t.atStart = s.atStart) (hshown : s.eng = .idle → t.shown = s.shown)
    (mem_wf : t.mem.wf = true) : t.Inv := by
  have heng : t.eng = s.eng := (congrArg State.eng hblock :)
  have hcode : t.errCode = s.errCode := (congrArg State.errCode hblock :)
  have herr : t.err = s.err := (congrArg State.err hblock :)
  have hdone : t.done = s.done := (congrArg State.done hblock :)
  refine hs.of_sameEngine ⟨heng, (congrArg State.work hblock :), hraced, hstart, hshown,
    fun _ => (congrArg operands hblock :)⟩ mem_wf ?_ ?_ ?_
  · rw [hcode, herr]; exact hs.errCode_iff
  · rw [hdone, herr]; exact hs.busy_flags
  · rw [hrst, hblock]; exact hs.rst_block

theorem State.Inv.with_moves (hs : s.Inv) (moves : List Move) : State.Inv { s with moves } :=
  hs.of_block_eq rfl rfl rfl rfl (fun _ => rfl) hs.mem_wf

theorem State.Inv.with_draws (hs : s.Inv) (draws : Nat) : State.Inv { s with draws } :=
  hs.of_block_eq rfl rfl rfl rfl (fun _ => rfl) hs.mem_wf

/-- A busy engine is not held in reset. -/
theorem State.Inv.rst_of_busy (hs : s.Inv) (hb : s.eng = .busy) : s.rst = false := by
  by_contra hr
  have hi : s.eng = .idle := (congrArg State.eng (hs.rst_block (by simpa using hr)) :)
  cases hb.symm.trans hi

/-! ## The invariant over instructions -/

/-- An accepted command starts with the invariant: nothing is read, written or raced. -/
theorem inv_acceptCommand (hrst : s.rst = false) (hmem : s.mem.wf = true) (hdone : s.done = false)
    (herr : s.err = false) (hcode : s.errCode = .none) (hchecked : startError (operands s) = none) :
    (acceptCommand s).Inv where
  mem_wf := hmem
  errCode_iff := by simp [hcode, herr]
  busy_flags := fun _ => ⟨hdone, herr⟩
  idle_clear := fun h => by cases h
  busy_checked := fun _ => hchecked
  busy_work := fun _ => ⟨fun _ h => h, fun _ h => h, by simp [startWork], by simp [startWork]⟩
  busy_touched := fun _ => by simp [startWork]
  busy_held := fun _ => by simp [startWork]
  busy_order := fun _ => by simp [startWork]
  busy_late := fun _ => by simp
  rst_block := fun h => by cases hrst.symm.trans h

/-- The invariant is kept by every instruction. -/
theorem State.Inv.exec {i : Instr} (hs : s.Inv) (hrst : s.rst = false) (h : exec i s = .next t) : t.Inv := by
  have not_rst {P : Prop} (h : s.rst = true) : P := by cases hrst.symm.trans h
  have not_busy {P : Prop} (hi : s.eng = .idle) (hb : s.eng = .busy) : P := by cases hi.symm.trans hb
  cases execCase_of_next h with
  | ignored hb hi =>
    exact hs.of_sameEngine ⟨rfl, rfl, rfl, rfl, fun _ => rfl, fun _ => rfl⟩ hs.mem_wf hs.errCode_iff hs.busy_flags
      not_rst
  | readOnly hi => exact hs
  | acknowledged f =>
    refine hs.of_sameEngine ⟨rfl, rfl, rfl, rfl, fun _ => rfl, fun _ => rfl⟩ hs.mem_wf ?_ (fun hb => ?_) not_rst
    · have := hs.errCode_iff
      cases hf : f.clrErr <;> simp [hf, this]
    · obtain ⟨hd, he⟩ := hs.busy_flags hb
      simp [hd, he]
  | read r => exact hs.of_block_eq rfl rfl rfl rfl (fun _ => rfl) hs.mem_wf
  | stored _ _ _ _ _ _ _ hi =>
    exact hs.of_sameEngine ⟨rfl, rfl, rfl, rfl, fun _ => rfl, not_busy hi⟩ hs.mem_wf hs.errCode_iff
      hs.busy_flags not_rst
  | nop f hi =>
    exact hs.of_sameEngine ⟨rfl, rfl, rfl, rfl, fun _ => rfl, not_busy hi⟩ hs.mem_wf hs.errCode_iff
      hs.busy_flags not_rst
  | rejected f hi _ hc =>
    exact hs.of_sameEngine ⟨rfl, rfl, rfl, rfl, fun _ => rfl, not_busy hi⟩ hs.mem_wf (by simpa using hc)
      (not_busy hi) not_rst
  | accepted f hi hnone => exact inv_acceptCommand hrst hs.mem_wf rfl rfl rfl hnone

/-! ## The invariant over engine moves -/

/-- The invariant after an engine access: fewer pixels to read, and every word held or written touched by a landed
pixel, held ones not written and written ones with no landing pixel to read. -/
theorem State.Inv.with_work (hs : s.Inv) (hb : s.eng = .busy) {work : Work} {mem : Memory}
    (history : List MemEvent) (mem_wf : mem.wf = true)
    (toRead : ∀ p ∈ work.toRead, p ∈ s.work.toRead) (mayRead : ∀ p ∈ work.mayRead, p ∈ s.work.mayRead)
    (touched : ∀ off ∈ work.held.map HeldWord.off ++ work.updated,
      ∃ p ∈ landed s, pixelOffset (operands s) p = off ∧ pixelDropped (operands s) p = false)
    (held : ∀ h ∈ work.held, h.off ∉ work.updated)
    (order : ∀ p ∈ work.toRead, pixelOffset (operands s) p ∈ work.updated → p ∉ landed s) :
    State.Inv { s with work, mem, history } := by
  obtain ⟨hkept, hclipped, -, -⟩ := hs.busy_work hb
  have writable {off : Nat} (h : off ∈ work.held.map HeldWord.off ++ work.updated) :
      writableWord (operands s) off := by
    obtain ⟨p, hp, hoff⟩ := touched off h
    exact ⟨p, landed_subset_keptPixels hp, hoff⟩
  exact {
    mem_wf
    errCode_iff := hs.errCode_iff
    busy_flags := hs.busy_flags
    idle_clear := fun hi => by cases hb.symm.trans hi
    busy_checked := hs.busy_checked
    busy_work := fun _ => ⟨fun p hp => hkept p (toRead p hp), fun p hp => hclipped p (mayRead p hp),
      fun h hh => writable (List.mem_append_left _ (List.mem_map_of_mem hh)),
      fun off ho => writable (List.mem_append_right _ ho)⟩
    busy_touched := fun _ => touched
    busy_held := fun _ => held
    busy_order := fun _ => order
    busy_late := fun _ p hp => hs.busy_late hb p (toRead p hp)
    rst_block := fun hr => by cases (hs.rst_of_busy hb).symm.trans hr }

/-- A pending word has a landed pixel that is not dropped, and is not written. -/
theorem touched_of_mem_pendingWords {off : Nat} (h : off ∈ pendingWords s) :
    (∃ p ∈ landed s, pixelOffset (operands s) p = off ∧ pixelDropped (operands s) p = false)
      ∧ off ∉ s.work.updated := by
  obtain ⟨⟨p, hp, hd, ho⟩, hu⟩ := (mem_pendingWords s off).mp h
  exact ⟨⟨p, hp, ho, hd⟩, hu⟩

theorem State.Inv.readPixelStep {p : Pixel} (hs : s.Inv) (hb : s.eng = .busy) (h : readPixelStep p s = .ok t) :
    t.Inv := by
  obtain ⟨b, -, rfl⟩ := readPixelStep_ok p s t h
  exact hs.with_work hb _ hs.mem_wf (fun _ => List.mem_of_mem_erase) (fun _ h => h) (hs.busy_touched hb)
    (hs.busy_held hb) (fun q hq => hs.busy_order hb q (List.mem_of_mem_erase hq))

theorem State.Inv.readClippedStep {p : Pixel} (hs : s.Inv) (hb : s.eng = .busy)
    (h : readClippedStep p s = .ok t) : t.Inv := by
  obtain ⟨b, -, rfl⟩ := readClippedStep_ok p s t h
  exact hs.with_work hb _ hs.mem_wf (fun _ h => h) (fun _ => List.mem_of_mem_erase) (hs.busy_touched hb)
    (hs.busy_held hb) (hs.busy_order hb)

theorem State.Inv.readFrameStep {off : Nat} (hs : s.Inv) (hb : s.eng = .busy) (hoff : off ∈ pendingWords s)
    (h : readFrameStep off s = .ok t) : t.Inv := by
  obtain ⟨size, v, -, rfl⟩ := readFrameStep_ok off s t h
  obtain ⟨htouched, hu⟩ := touched_of_mem_pendingWords hoff
  exact hs.with_work hb _ hs.mem_wf (fun _ h => h) (fun _ h => h)
    (List.forall_mem_cons.mpr ⟨htouched, hs.busy_touched hb⟩) (List.forall_mem_cons.mpr ⟨hu, hs.busy_held hb⟩)
    (hs.busy_order hb)

theorem State.Inv.writeFrameStep {off : Nat} (hs : s.Inv) (hb : s.eng = .busy) (hoff : off ∈ pendingWords s)
    (hheld : (heldValue off s.work.held).isSome = true) (hsettled : settled s off = true)
    (h : writeFrameStep off s = .ok t) : t.Inv := by
  obtain ⟨value, hvalue⟩ := Option.isSome_iff_exists.mp hheld
  obtain ⟨size, v, m, hm, rfl⟩ := writeFrameStep_ok off s t value hvalue h
  obtain ⟨htouched, hu⟩ := touched_of_mem_pendingWords hoff
  have mem_wf : m.wf = true := by
    obtain ⟨-, -, rfl, -⟩ | ⟨-, -, c, -, rfl, -⟩ := hm
    · exact Memory.wf_writeWord _ _ _ hs.mem_wf
    · exact Memory.wf_write _ _ _ hs.mem_wf
  refine hs.with_work hb _ mem_wf (fun _ h => h) (fun _ h => h) (fun b hb' => ?_) (fun w hw => ?_)
    (fun p hp hpu => ?_)
  · obtain hb' | hb' := List.mem_append.mp hb'
    · exact hs.busy_touched hb b (List.mem_append_left _ (List.map_subset _ List.filter_sublist.subset hb'))
    · obtain rfl | hb' := List.mem_cons.mp hb'
      · exact htouched
      · exact hs.busy_touched hb b (List.mem_append_right _ hb')
  · obtain ⟨hw, hne⟩ := List.mem_filter.mp hw
    exact List.not_mem_cons_of_ne_of_not_mem (by simpa using hne) (hs.busy_held hb w hw)
  · obtain hpo | hpu := List.mem_cons.mp hpu
    · exact (settled_iff s off).mp hsettled p hp hpo
    · exact hs.busy_order hb p hp hpu

theorem State.Inv.completeCommand (hs : s.Inv) (hb : s.eng = .busy) : (completeCommand s).Inv :=
  inv_of_idle rfl hs.mem_wf hs.errCode_iff ⟨rfl, rfl, rfl, rfl⟩
    (fun hr => by cases (hs.rst_of_busy hb).symm.trans hr)

/-- The invariant is kept by every engine move. -/
theorem State.Inv.performAction {a : Action} (hs : s.Inv) (hb : s.eng = .busy) (ha : a ∈ engineActions s)
    (h : performAction a s = .ok t) : t.Inv := by
  obtain ⟨p, -, rfl⟩ | ⟨p, -, rfl⟩ | ⟨off, hoff, ha⟩ | ⟨rfl, -⟩ := (mem_engineActions s a).mp ha
  · exact hs.readPixelStep hb h
  · exact hs.readClippedStep hb h
  · obtain ⟨rfl, -⟩ | ⟨rfl, hheld, hsettled⟩ := (mem_wordActions s off a).mp ha
    · exact hs.readFrameStep hb hoff h
    · exact hs.writeFrameStep hb hoff hheld hsettled h
  · cases h; exact hs.completeCommand hb

/-! ## The invariant over the other agents -/

/-- What a race keeps of the invariant: the words held or written keep a landed pixel, and no unread pixel comes to
land in a word already written (log entry 24). -/
theorem State.Inv.addRace_landed (hs : s.Inv) (hb : s.eng = .busy) (a : Nat) :
    (∀ off ∈ s.work.held.map HeldWord.off ++ s.work.updated, ∃ p ∈ landed (addRace (raceOf s a) s),
        pixelOffset (operands s) p = off ∧ pixelDropped (operands s) p = false)
      ∧ ∀ p ∈ s.work.toRead, pixelOffset (operands s) p ∈ s.work.updated →
        p ∉ landed (addRace (raceOf s a) s) := by
  cases hk : keepsPast (addRace (raceOf s a) s) with
  | false =>
    have same (p : Pixel) : p ∈ landed (addRace (raceOf s a) s) ↔ p ∈ landed s :=
      mem_landed_addRace_raceOf fun _ => hk
    simpa only [same] using And.intro (hs.busy_touched hb) (hs.busy_order hb)
  | true =>
    obtain ⟨hheld, horder, -⟩ := (keepsPast_iff _).mp hk
    refine ⟨fun off hoff => ?_, horder⟩
    obtain hoff | hoff := List.mem_append.mp hoff
    · obtain ⟨h, hh, rfl⟩ := List.mem_map.mp hoff
      exact (touched_of_mem_pendingWords (hheld h hh)).1
    · obtain ⟨p, hp, rfl, hd⟩ := hs.busy_touched hb off (List.mem_append_right _ hoff)
      refine ⟨p, (mem_landed_addRace_raceOf fun hread => ?_).mpr hp, rfl, hd⟩
      exact absurd hp (hs.busy_order hb p hread hoff)

/-- A write of another agent during a command keeps the invariant. -/
theorem State.Inv.hostWrite_busy (hs : s.Inv) (hb : s.eng = .busy) (a : Word) (v : Byte) :
    (hostWrite a v s).Inv := by
  obtain ⟨touched, order⟩ := hs.addRace_landed hb a.toNat
  rw [Machine.hostWrite_busy a v s hb]
  exact {
    mem_wf := wf_racedWrite _ _ _ hs.mem_wf
    errCode_iff := hs.errCode_iff
    busy_flags := hs.busy_flags
    idle_clear := fun hi => by cases hb.symm.trans hi
    busy_checked := hs.busy_checked
    busy_work := hs.busy_work
    busy_touched := fun _ => touched
    busy_held := hs.busy_held
    busy_order := fun _ => order
    busy_late := fun _ p hp r hr haddr => by
      obtain hr | hr := List.mem_append.mp hr
      · exact hs.busy_late hb p hp r hr haddr
      · rw [List.mem_singleton] at hr
        subst hr
        obtain ⟨hkept, -⟩ := hs.busy_work hb
        have ha : a.toNat = bitmapAddr (operands s) p := haddr
        have hp : p ∈ s.work.toRead := hp
        have hlate := alreadyRead_bitmapAddr (hkept p hp)
        rw [← ha] at hlate
        exact hlate.trans (by simpa using hp)
    rst_block := fun hr => by cases (hs.rst_of_busy hb).symm.trans hr }

theorem State.Inv.hostWrite (hs : s.Inv) (a : Word) (v : Byte) : (hostWrite a v s).Inv := by
  obtain hi | hb := eng_idle_or_busy s
  · rw [hostWrite_idle a v s hi]
    exact hs.of_block_eq rfl rfl rfl rfl (fun _ => rfl) (Memory.wf_write _ _ _ hs.mem_wf)
  · exact hs.hostWrite_busy hb a v

theorem State.Inv.hostRead {a : Word} (hs : s.Inv) (h : hostRead a s = .next t) : t.Inv := by
  obtain ⟨history, shown, draws, rfl, hshown⟩ := hostRead_fields h
  exact hs.of_block_eq rfl rfl rfl rfl hshown hs.mem_wf

/-! ## The invariant over RST -/

/-- The moves that a command still makes when RST is asserted keep the invariant (R169; log entry 9). -/
theorem State.Inv.abandonCommand (hs : s.Inv) : (abandonCommand s).Inv := by
  obtain ⟨-, e⟩ | ⟨-, e⟩ := abandonCommand_cases s <;> rw [e]
  · exact hs
  · exact engineRun_induct State.Inv (fun u hu => hu.with_draws _)
      (fun u a v hu hb ha hp => hu.performAction hb ha hp) _ _ (hs.with_draws _)

theorem State.Inv.assertReset (hs : s.Inv) : (assertReset s).Inv :=
  inv_of_idle rfl hs.abandonCommand.mem_wf (by simp) ⟨rfl, rfl, rfl, rfl⟩ (fun _ => rfl)

theorem State.Inv.setRst (hs : s.Inv) (asserted : Bool) : (setRst asserted s).Inv := by
  cases asserted with
  | true => exact hs.assertReset
  | false =>
    exact hs.of_sameEngine ⟨rfl, rfl, rfl, rfl, fun _ => rfl, fun _ => rfl⟩ hs.mem_wf hs.errCode_iff hs.busy_flags
      (fun h => by cases h)

/-- The invariant is kept by every step. -/
theorem State.Inv.step (hs : s.Inv) (h : step s = .next t) : t.Inv := by
  cases stepCase_of_next h with
  | wait moves => exact hs.with_moves moves
  | served rest hrst _ hexec => exact (hs.with_moves rest).exec hrst hexec
  | engine moves draws _ hb _ ha hp => exact ((hs.with_moves moves).with_draws draws).performAction hb ha hp
  | hostWrite a v rest _ => exact (hs.with_moves rest).hostWrite a v
  | hostRead a rest _ hread => exact (hs.with_moves rest).hostRead hread
  | reset asserted rest _ => exact (hs.with_moves rest).setRst asserted

end

/-- Settles O26: each kind of step keeps the invariant. -/
theorem stepKeepsInvariant : Obligations.StepKeepsInvariant := fun _ _ hs h => hs.step h

end Sys2Proof.Machine
end

section
/-! SUPPORT. What a step can change of the engine's state, of WIGN and of the operand registers, and how an accepted
command starts. -/

namespace Sys2Proof.Machine

/-! ## Acceptance -/

/-- A word's written lanes are those of its lanes that its fate would leave alone written. -/
theorem writtenLanes_ne_nil_iff (order : ByteOrder) (fate : WordFate) (lanes : List (Fin 8)) :
    writtenLanes order fate lanes ≠ [] ↔ ∃ i ∈ lanes, writtenLanes order fate [i] ≠ [] := by
  cases fate with
  | whole => simp [writtenLanes, List.eq_nil_iff_forall_not_mem]
  | firstByte => simp [writtenLanes, List.filter_eq_nil_iff]
  | dropped => simp [writtenLanes]

theorem pixelDropped_eq_false_iff (o : Operands) (p : Pixel) :
    pixelDropped o p = false ↔
      writtenLanes Config.wordByteOrder (wordFate o (pixelOffset o p)) [pixelLane o p] ≠ [] := by
  simp [pixelDropped]

/-- A word is written where a landed pixel lies in it that its fate does not drop (R133, R134). -/
theorem wordLanes_ne_nil_iff (o : Operands) (ps : List Pixel) (off : Nat) :
    wordLanes o ps off ≠ [] ↔ ∃ p ∈ ps, pixelDropped o p = false ∧ pixelOffset o p = off := by
  rw [wordLanes, writtenLanes_ne_nil_iff]
  simp only [pixelDropped_eq_false_iff, lanesOf, List.mem_map, List.mem_filter, beq_iff_eq]
  constructor
  · rintro ⟨_, ⟨p, ⟨hp, rfl⟩, rfl⟩, hw⟩; exact ⟨p, hp, hw, rfl⟩
  · rintro ⟨p, hp, hw, rfl⟩; exact ⟨_, ⟨p, ⟨hp, rfl⟩, rfl⟩, hw⟩

section
variable {s t : State}

/-- A DRAW_CHAR served while idle that leaves the engine busy was accepted. -/
theorem eq_acceptCommand_of_drawChar {f : CtrlFields} (hi : s.eng = .idle) (h : exec (.drawChar f) s = .next t)
    (hb : t.eng = .busy) :
    t = acceptCommand (commandStart (storeCtrl f s)) ∧ startError (operands (storeCtrl f s)) = none := by
  cases execCase_of_next h with
  | ignored hbusy => cases hi.symm.trans hbusy
  | readOnly hread => cases hread
  | stored => cases hi.symm.trans hb
  | rejected => cases hi.symm.trans hb
  | accepted _ _ hnone => exact ⟨rfl, hnone⟩

/-- At acceptance nothing has been read, written or shown, and memory is what it was at acceptance. -/
theorem faithful_acceptCommand (s : State) : (acceptCommand s).Faithful where
  held_value := fun _ _ h => by cases h
  updated_value := fun _ _ h => by cases h
  pending_value := fun _ _ _ _ _ _ _ => rfl
  other_bytes := fun _ _ _ _ => rfl
  shown_value := fun _ _ h => by cases h

theorem landed_acceptCommand (s : State) : landed (acceptCommand s) = landedPixels (operands s) s.mem :=
  landed_of_raced_nil _ rfl

/-- The words an accepted command has to update are those that the bitmap bytes touch (R46). -/
theorem mem_pendingWords_acceptCommand (s : State) (off : Nat) :
    off ∈ pendingWords (acceptCommand s) ↔ touchedLanes (operands s) s.mem off ≠ [] := by
  rw [touchedLanes, wordLanes_ne_nil_iff, mem_pendingWords, landed_acceptCommand]
  exact and_iff_left List.not_mem_nil

end

/-- Settles O28: the accepted state is `acceptCommand` of a state with the memory of `s`. -/
theorem acceptanceStartsContract : Obligations.AcceptanceStartsContract := by
  intro f s t hi h hb
  obtain ⟨rfl, hnone⟩ := eq_acceptCommand_of_drawChar hi h hb
  exact ⟨faithful_acceptCommand _, fun _ _ => rfl, landed_acceptCommand _,
    fun hs hrst => inv_acceptCommand hrst hs.mem_wf rfl rfl rfl hnone, mem_pendingWords_acceptCommand _⟩

/-! ## ENG_STATE -/

section
variable {s t : State}

/-- An instruction leaves the engine where it is, but for a DRAW_CHAR that is accepted. -/
theorem eng_of_exec {i : Instr} (h : exec i s = .next t) :
    t.eng = s.eng ∨ (s.eng = .idle ∧ ∃ f, i = .drawChar f) := by
  cases execCase_of_next h with
  | accepted f hi => exact .inr ⟨hi, f, rfl⟩
  | _ => exact .inl rfl

theorem complete_mem_engineActions (s : State) :
    .complete ∈ engineActions s ↔ s.work.toRead = [] ∧ pendingWords s = [] := by
  simp [mem_engineActions, mem_wordActions]

/-- A step leaves the engine where it is, but for an accepted DRAW_CHAR, completion and the assertion of RST. -/
theorem eng_of_step (h : step s = .next t) :
    t.eng = s.eng ∨ (s.eng = .idle ∧ ∃ f, servedInstr s = some (.drawChar f))
      ∨ (t.eng = .idle ∧ engineMovesNext s ∧ s.work.toRead = [] ∧ pendingWords s = [] ∧ t.done = true)
      ∨ ∃ rest, s.moves = .rst true :: rest := by
  cases stepCase_of_next h with
  | wait moves => exact .inl rfl
  | served rest _ hserved hexec =>
    obtain e | ⟨hi, f, rfl⟩ := eng_of_exec hexec
    · exact .inl e
    · exact .inr (.inl ⟨hi, f, hserved⟩)
  | engine moves draws _ _ hnext ha hp =>
    obtain ⟨rfl, rfl⟩ | ⟨work, mem, history, rfl⟩ := performAction_fields hp
    · obtain ⟨hread, hpending⟩ := (complete_mem_engineActions _).mp ha
      exact .inr (.inr (.inl ⟨rfl, hnext, hread, hpending, rfl⟩))
    · exact .inl rfl
  | hostWrite a v rest _ =>
    obtain ⟨_, _, _, _, _, e⟩ := hostWrite_fields a v { s with moves := rest }
    rw [e]; exact .inl rfl
  | hostRead a rest _ hread =>
    obtain ⟨_, _, _, rfl, -⟩ := hostRead_fields hread
    exact .inl rfl
  | reset asserted rest hm =>
    cases asserted with
    | true => exact .inr (.inr (.inr ⟨rest, hm⟩))
    | false => exact .inl rfl

/-- Bit 0 of STATUS is BUSY (R30, R84). -/
theorem statusWord_getLsbD_zero (s : State) : (statusWord s).getLsbD 0 = s.busy := by
  rw [statusWord, BitVec.getLsbD_append]; simp

end

/-- Settles O29, from what a step can do to the engine's state. -/
theorem engineStateChangesOnlyBySpec : Obligations.EngineStateChangesOnlyBySpec := by
  refine ⟨fun s => ?_, fun s t h hi hb => ?_, fun s t h hb hi => ?_⟩
  · rw [regRead, statusWord_getLsbD_zero, State.busy, beq_iff_eq]
  · obtain e | ⟨-, hdraw⟩ | ⟨hi', -⟩ | ⟨rest, hm⟩ := eng_of_step h
    · cases hb.symm.trans (e.trans hi)
    · exact hdraw
    · cases hb.symm.trans hi'
    · rw [step, hm] at h
      cases h; cases hb
  · obtain e | ⟨hi', -⟩ | ⟨-, hcomplete⟩ | hreset := eng_of_step h
    · cases hi.symm.trans (e.trans hb)
    · cases hb.symm.trans hi'
    · exact .inl hcomplete
    · exact .inr hreset

/-! ## WIGN -/

section
variable {s t : State}

/-- An instruction leaves WIGN as it is, but for a guarded write while busy and for the acknowledge. -/
theorem wign_of_exec {i : Instr} (h : exec i s = .next t) :
    t.wign = s.wign ∨ (s.eng = .busy ∧ isGuardedWrite i = true ∧ t.wign = true)
      ∨ ∃ f, i = .wrStatus f ∧ t.wign = (s.wign && !f.clrWign) := by
  cases execCase_of_next h with
  | ignored hb hi => exact .inr (.inl ⟨hb, hi, rfl⟩)
  | acknowledged f => exact .inr (.inr ⟨f, rfl, rfl⟩)
  | _ => exact .inl rfl

/-- A step leaves WIGN as it is, but for a guarded write served while busy, an acknowledge and the assertion of
RST (R33). -/
theorem wign_of_step (h : step s = .next t) :
    t.wign = s.wign
      ∨ (s.eng = .busy ∧ t.wign = true ∧ ∃ i, servedInstr s = some i ∧ isGuardedWrite i = true)
      ∨ (∃ f, servedInstr s = some (.wrStatus f) ∧ t.wign = (s.wign && !f.clrWign))
      ∨ (t.wign = false ∧ ∃ rest, s.moves = .rst true :: rest) := by
  cases stepCase_of_next h with
  | wait moves => exact .inl rfl
  | @served i _ rest _ hserved hexec =>
    obtain e | ⟨hb, hi, e⟩ | ⟨f, rfl, e⟩ := wign_of_exec hexec
    · exact .inl e
    · exact .inr (.inl ⟨hb, e, i, hserved, hi⟩)
    · exact .inr (.inr (.inl ⟨f, hserved, e⟩))
  | engine moves draws _ _ _ _ hp =>
    obtain ⟨-, rfl⟩ | ⟨work, mem, history, rfl⟩ := performAction_fields hp <;> exact .inl rfl
  | hostWrite a v rest _ =>
    obtain ⟨_, _, _, _, _, e⟩ := hostWrite_fields a v { s with moves := rest }
    rw [e]; exact .inl rfl
  | hostRead a rest _ hread =>
    obtain ⟨_, _, _, rfl, -⟩ := hostRead_fields hread
    exact .inl rfl
  | reset asserted rest hm =>
    cases asserted with
    | true => exact .inr (.inr (.inr ⟨rfl, rest, hm⟩))
    | false => exact .inl rfl

end

/-- Settles O30, from what a step can do to WIGN. -/
theorem wignSetAndClearedOnlyBySpec : Obligations.WignSetAndClearedOnlyBySpec := by
  refine ⟨fun s t h hs ht => ?_, fun s t h hs ht => ?_⟩ <;>
    obtain e | ⟨hb, e, hguarded⟩ | ⟨f, hserved, e⟩ | ⟨e, hreset⟩ := wign_of_step h <;> rw [ht] at e
  · cases e.trans hs
  · cases e
  · exact .inl ⟨f, hserved, by simpa [hs] using e⟩
  · exact .inr hreset
  · cases e.trans hs
  · exact ⟨hb, hguarded⟩
  · simp [hs] at e
  · cases e

/-! ## The operand registers -/

/-- The state of the operand registers and CTRL alone, everything else at fixed values: what a command is given
(R56). -/
def State.programmed (s : State) : State :=
  { State.reset with
    irqEn := s.irqEn, fast := s.fast, byteClip := s.byteClip
    fbBase := s.fbBase, fbLen := s.fbLen, bmBase := s.bmBase, bmSize := s.bmSize
    xOffset := s.xOffset, yOffset := s.yOffset, phase := s.phase }

section
variable {s t : State}

/-- While busy an instruction leaves the operand registers and CTRL. -/
theorem programmed_of_exec {i : Instr} (hb : s.eng = .busy) (h : exec i s = .next t) :
    t.programmed = s.programmed := by
  cases execCase_of_next h with
  | ignored | readOnly | acknowledged f | read r => rfl
  | stored _ _ _ _ _ _ _ hi | nop _ hi | rejected _ hi | accepted _ hi => cases hb.symm.trans hi

/-- While busy a step leaves the operand registers and CTRL, but for the assertion of RST (R56). -/
theorem programmed_of_step (h : step s = .next t) (hb : s.eng = .busy) (hr : ∀ rest, s.moves ≠ .rst true :: rest) :
    t.programmed = s.programmed := by
  cases stepCase_of_next h with
  | wait moves => rfl
  | served rest _ _ hexec => exact programmed_of_exec (s := { s with moves := rest }) hb hexec
  | engine moves draws _ _ _ _ hp =>
    obtain ⟨-, rfl⟩ | ⟨work, mem, history, rfl⟩ := performAction_fields hp <;> rfl
  | hostWrite a v rest _ =>
    obtain ⟨_, _, _, _, _, e⟩ := hostWrite_fields a v { s with moves := rest }
    rw [e]; rfl
  | hostRead a rest _ hread =>
    obtain ⟨_, _, _, rfl, -⟩ := hostRead_fields hread
    rfl
  | reset asserted rest hm =>
    cases asserted with
    | true => exact absurd hm (hr rest)
    | false => rfl

end

/-- Settles O32: a busy step leaves the registers of a command as they are. -/
theorem operandsFrozenWhileBusy : Obligations.OperandsFrozenWhileBusy := by
  intro s t h hb hr
  have e := programmed_of_step h hb hr
  have ho : operands t = operands s := (congrArg operands e :)
  simp only [State.programmed, State.mk.injEq, and_true, true_and] at e
  obtain ⟨hirq, hfast, hclip, hfb, hlen, hbm, hsize, hx, hy, hphase⟩ := e
  exact ⟨hfb, hlen, hbm, hsize, hx, hy, hphase, hirq, hfast, hclip, ho⟩

end Sys2Proof.Machine
end

section
/-! SUPPORT. The fields of a transaction, its bytes, and the window of the bus that reaches the block. -/

namespace Sys2Proof

/-! ## Transactions (R80) -/

section
variable (kind : BitVec 1) (index : BitVec 4) (data : Word)

theorem txn_index : (kind ++ index ++ data : Txn).extractLsb' 32 4 = index := by
  rw [BitVec.extractLsb'_append_eq_of_le (le_refl 32)]
  exact BitVec.extractLsb'_append_eq_right

theorem txn_data : (kind ++ index ++ data : Txn).extractLsb' 0 32 = data := BitVec.extractLsb'_append_eq_right

theorem txn_kind : (kind ++ index ++ data : Txn).getLsbD 36 = kind.getLsbD 0 := by
  rw [BitVec.getLsbD_append, BitVec.getLsbD_append]; rfl

end

theorem regNameOf_regIndexOf (r : RegName) : regNameOf (regIndexOf r) = r := by cases r <;> rfl

theorem decodeTxn_writeTxn (r : RegName) (v : Word) : decodeTxn (writeTxn r v) = decodeWrite r v := by
  simp only [decodeTxn, writeTxn, txn_index, txn_data, txn_kind, regNameOf_regIndexOf]; rfl

theorem decodeTxn_readTxn (r : RegName) : decodeTxn (readTxn r) = .rd r := by
  simp only [decodeTxn, readTxn, txn_index, txn_kind, regNameOf_regIndexOf]; rfl

/-- The five bytes of a 40-bit value put together again. -/
theorem bytes_append (v : BitVec 40) :
    v.extractLsb' 32 8 ++ v.extractLsb' 24 8 ++ v.extractLsb' 16 8 ++ v.extractLsb' 8 8 ++ v.extractLsb' 0 8 = v := by
  have join {i j m n : Nat} (h : j = i + n) :
      v.extractLsb' j m ++ v.extractLsb' i n = v.extractLsb' i (m + n) :=
    BitVec.extractLsb'_append_extractLsb'_eq_extractLsb' h
  rw [join (j := 32) (i := 24) rfl, join (j := 24) (i := 16) rfl, join (j := 16) (i := 8) rfl,
    join (j := 8) (i := 0) rfl]
  exact BitVec.extractLsb'_eq_self

/-- The bytes of a transaction decode as the transaction. -/
theorem decode_txnBytes (t : Txn) : decode (txnBytes t) = .ok (decodeTxn t) := by
  have hv := bytes_append (t.setWidth 40)
  have hhigh : (t.setWidth 40).extractLsb' 37 3 = 0 := by
    apply BitVec.eq_of_toNat_eq
    simp only [BitVec.extractLsb'_toNat, BitVec.toNat_setWidth, Nat.shiftRight_eq_div_pow, BitVec.toNat_ofNat,
      BitVec.ofNat_eq_ofNat]
    omega
  have hlow : (t.setWidth 40).extractLsb' 0 37 = t := by
    apply BitVec.eq_of_toNat_eq
    simp only [BitVec.extractLsb'_toNat, BitVec.toNat_setWidth, Nat.shiftRight_zero]
    omega
  simp only [decode, txnBytes, hv, hhigh, hlow, if_true]

end Sys2Proof

namespace Sys2Proof.Machine

/-! ## The window (R66) -/

theorem blitBase_toNat : Config.blitBase.toNat = Config.blitBlock.toNat * 64 := by
  rw [Config.blitBase, BitVec.toNat_append, Nat.shiftLeft_eq]; simp

theorem blitBase_block : Config.blitBase.extractLsb' 6 26 = Config.blitBlock := BitVec.extractLsb'_append_eq_left

/-- An access begins in the window where its first byte lies in the 64 bytes from BLIT_BASE on. -/
theorem startsInWindow_iff (b : BusAccess) :
    startsInWindow b = true ↔
      Config.blitBase.toNat ≤ b.addr.toNat ∧ b.addr.toNat < Config.blitBase.toNat + 64 := by
  rw [startsInWindow, beq_iff_eq, ← BitVec.toNat_inj, BitVec.extractLsb'_toNat, Nat.shiftRight_eq_div_pow,
    blitBase_toNat]
  omega

theorem startsInWindow_of_masked {b : BusAccess} (h : b.addr &&& ~~~(0x3F#32) = Config.blitBase) :
    startsInWindow b = true := by
  have hmask : (~~~(0x3F#32)).extractLsb' 6 26 = BitVec.allOnes 26 := by decide
  rw [startsInWindow, beq_iff_eq, ← blitBase_block, ← h, BitVec.extractLsb'_and, hmask, BitVec.and_allOnes]

theorem runsIntoWindow_iff (b : BusAccess) :
    runsIntoWindow b = true ↔
      b.addr.toNat < Config.blitBase.toNat ∧ Config.blitBase.toNat < b.addr.toNat + b.size := by
  simp [runsIntoWindow]

/-- What an access that begins in the window or runs into it is to the block. -/
theorem busToReg_eq_some {b : BusAccess} (h : startsInWindow b = true ∨ runsIntoWindow b = true) :
    busToReg b = some
      { size := b.size, low := b.addr.extractLsb' 0 2
        txn := txnBytes (txnOf b.write (b.addr.extractLsb' 2 4) b.data) } :=
  if_pos (Bool.or_eq_true_iff.mpr h)

/-- An access that begins and ends outside the window does not reach the block (R44). -/
theorem busToReg_eq_none {b : BusAccess}
    (h : b.addr.toNat < Config.blitBase.toNat ∧ b.addr.toNat + b.size ≤ Config.blitBase.toNat
      ∨ Config.blitBase.toNat + 64 ≤ b.addr.toNat) : busToReg b = none := by
  have hstart : ¬ startsInWindow b = true := by rw [startsInWindow_iff]; omega
  have hruns : ¬ runsIntoWindow b = true := by rw [runsIntoWindow_iff]; omega
  exact if_neg fun h => (Bool.or_eq_true_iff.mp h).elim hstart hruns

/-- An access that runs into the window is not 32 bits wide or not at a multiple of 4. -/
theorem not_wordAccess_of_runsIntoWindow {b : BusAccess} (h : runsIntoWindow b = true) :
    ¬ (b.size = 4 ∧ b.addr.extractLsb' 0 2 = 0) := by
  rw [runsIntoWindow_iff, blitBase_toNat] at h
  rintro ⟨hsize, hlow⟩
  have hmod : b.addr.toNat % 4 = 0 := by simpa using congrArg BitVec.toNat hlow
  omega

/-- A bus access that reaches the block is served as the REG access it is. -/
theorem step_bus {s : State} {b : BusAccess} {rest : List Move} {a : RegAccess} (hm : s.moves = .bus b :: rest)
    (ha : busToReg b = some a) : step s = serveReg a { s with moves := rest } := by
  simp only [step, hm, serve, ha]

theorem serveReg_of_fetchReg_ok {s : State} {a : RegAccess} {i : Instr} (hrst : s.rst = false)
    (h : fetchReg a = .ok i) : serveReg a s = exec i s := by
  simp [serveReg, hrst, h]

theorem serveReg_of_fetchReg_error {s : State} {a : RegAccess} {r : Refusal} (hrst : s.rst = false)
    (h : fetchReg a = .error r) : serveReg a s = .refused r := by
  simp [serveReg, hrst, h]

/-- Settles O6: the three places of an access, each by what `busToReg` makes of it. -/
theorem busWindowSelectsTheBlock : Obligations.BusWindowSelectsTheBlock := by
  intro s b rest hrst hm
  refine ⟨fun hwindow hsize hlow => ?_, fun houtside => ?_, fun hbelow hruns => ?_⟩
  · rw [step_bus hm (busToReg_eq_some (.inl (startsInWindow_of_masked hwindow)))]
    exact serveReg_of_fetchReg_ok hrst ((fetchReg_ok _ _).mpr ⟨hsize, hlow, decode_txnBytes _⟩)
  · simp only [step, hm, serve, busToReg_eq_none houtside]
  · have hr := (runsIntoWindow_iff b).mpr ⟨hbelow, hruns⟩
    rw [step_bus hm (busToReg_eq_some (.inr hr))]
    exact serveReg_of_fetchReg_error hrst (if_neg (not_wordAccess_of_runsIntoWindow hr))

/-! ## The GEOM registers (R41) -/

/-- A read of any slot but DROP_COUNT gives the host the slot's word and changes nothing else. -/
theorem exec_decodeTxn_readTxn (s : State) {r : RegName} (hr : r ≠ .dropCount) :
    exec (decodeTxn (readTxn r)) s = .next { s with regData := regRead r s } := by
  rw [decodeTxn_readTxn]
  simp [exec, execRd, readRegister, readDraws, hr]

theorem geomPackWord_ofNat :
    geomPackWord =
      BitVec.ofNat 32 (8 + 2 * 2 ^ 8 + 2 * 2 ^ 16 + 1 * 2 ^ 24 + 0 * 2 ^ 25 + Config.hasFastPath.toNat * 2 ^ 26) := by
  rw [geomPackWord_eq]
  cases Config.hasFastPath <;> decide

/-- Settles O25: a read leaves all but the read data, and a write to a GEOM slot leaves everything. -/
theorem geomRegistersAreHardwired : Obligations.GeomRegistersAreHardwired := by
  intro s v reads constant
  have hreads (r : RegName) (c : Word) (hr : r ≠ .dropCount) (hc : regRead r s = c) : reads r c s :=
    ⟨_, exec_decodeTxn_readTxn s hr, hc, by rw [hc]⟩
  have hconstant (r : RegName) (c : Word) (hr : r ≠ .dropCount) (hc : regRead r s = c)
      (hwrite : exec (decodeWrite r v) s = .next s) : constant r c :=
    ⟨hreads r c hr hc, s, by rw [decodeTxn_writeTxn, hwrite], rfl, rfl, hreads r c hr hc⟩
  exact ⟨hconstant .geomSize _ (by decide) geomSizeWord_eq rfl,
    hconstant .geomMargin _ (by decide) geomMarginWord_eq rfl,
    hconstant .geomStride _ (by decide) geomStrideWord_eq rfl,
    hconstant .geomPack _ (by decide) geomPackWord_ofNat rfl⟩

end Sys2Proof.Machine
end

section
/-! SUPPORT. Frame words and their bytes: which addresses a word update writes, what it leaves there, and what the
running command makes of each byte of the frame. -/

namespace Sys2Proof.Machine

/-! ## The addresses of a word -/

section
variable {o : Operands} {off a : Nat}

theorem pixelOffset_even (o : Operands) (p : Pixel) : pixelOffset o p % 2 = 0 := by
  simp only [pixelOffset, wordOffset, Config.topMargin, Config.leftMargin, Config.stride, Config.packedPixels,
    Config.wordBytes]
  omega

/-- A word of which some lane is written has a byte that may be written. -/
theorem wordFate_ne_dropped {p : Pixel} (h : pixelDropped o p = false) :
    wordFate o (pixelOffset o p) ≠ .dropped := by
  intro hd
  simp [pixelDropped, hd, writtenLanes] at h

theorem writableWord_even (h : writableWord o off) : off % 2 = 0 := by
  obtain ⟨p, -, rfl, -⟩ := h
  exact pixelOffset_even o p

theorem writableWord_fate (h : writableWord o off) : wordFate o off ≠ .dropped := by
  obtain ⟨p, -, rfl, hd⟩ := h
  exact wordFate_ne_dropped hd

theorem frameWordOf_even (h : frameWordOf o a = some off) : off % 2 = 0 := by
  obtain ⟨-, rfl⟩ := (frameWordOf_eq_some o a off).mp h
  exact Nat.mul_mod_left _ _

/-- The addresses of a word update are the frame's bytes of the word, where the word is not dropped. -/
theorem mem_wordAddrs_iff (heven : off % 2 = 0) :
    a ∈ wordAddrs o off ↔ frameWordOf o a = some off ∧ wordFate o off ≠ .dropped := by
  rw [frameWordOf_eq_some, wordAddrs]
  obtain ⟨hfate, hlen⟩ | ⟨hfate, -, hlen⟩ | ⟨hfate, -⟩ := wordFate_cases o off <;>
    simp only [hfate, List.mem_cons, List.not_mem_nil, or_false, ne_eq, reduceCtorEq, not_false_eq_true, and_true,
      not_true_eq_false, and_false] <;> omega

theorem frameWordOf_of_mem_wordAddrs (heven : off % 2 = 0) (h : a ∈ wordAddrs o off) : frameWordOf o a = some off :=
  ((mem_wordAddrs_iff heven).mp h).1

/-- A byte of a frame word lies in the frame range. -/
theorem covers_of_frameWordOf (h : frameWordOf o a = some off) : (frameRange o).covers a = true :=
  (Region.covers_iff _ _).mpr ((frameWordOf_eq_some o a off).mp h).1

theorem frameWordOf_of_covers (h : (frameRange o).covers a = true) :
    frameWordOf o a = some ((a - o.fbBase) / 2 * 2) := by
  rw [frameWordOf, if_pos h]

theorem not_covers_of_frameWordOf_none (h : frameWordOf o a = none) : (frameRange o).covers a = false := by
  by_contra hc
  cases h.symm.trans (frameWordOf_of_covers (by simpa using hc))

/-- The first byte of a word that is not dropped lies in the word. -/
theorem frameWordOf_base (heven : off % 2 = 0) (hfate : wordFate o off ≠ .dropped) :
    frameWordOf o (o.fbBase + off) = some off := by
  refine frameWordOf_of_mem_wordAddrs heven ?_
  cases hw : wordFate o off with
  | dropped => exact absurd hw hfate
  | whole | firstByte => simp [wordAddrs, hw]

/-- The ranges of a checked command share no byte: the byte of a bitmap pixel lies in no frame word (R153). -/
theorem frameWordOf_bitmapAddr {p : Pixel} (hchecked : startError o = none) (hx : p.x < o.w) (hy : p.y < o.h) :
    frameWordOf o (bitmapAddr o p) = none := by
  obtain ⟨-, -, -, hdisjoint⟩ := (startError_eq_none o).mp hchecked
  have hbitmap := (Region.covers_iff _ _).mp (bitmapAddr_in_range o p hx hy)
  have hframe : ¬ (frameRange o).covers (bitmapAddr o p) = true := by
    rw [Region.covers_iff]
    simp only [frameRange, bitmapRange] at *
    omega
  rw [frameWordOf, if_neg hframe]

theorem frameWordOf_keptPixel {p : Pixel} (hchecked : startError o = none) (hp : p ∈ keptPixels o) :
    frameWordOf o (bitmapAddr o p) = none := by
  obtain ⟨hx, hy, -⟩ := (mem_keptPixels o p).mp hp
  exact frameWordOf_bitmapAddr hchecked hx hy

end

/-! ## Storing a word -/

/-- Memory after the update of a word, or of its one byte in range, with a value (R60, R128). -/
def storeWord (o : Operands) (off : Nat) (w : PixelWord) (m : Memory) : Memory :=
  match wordFate o off with
  | .whole => m.writeWord (o.fbBase + off) w
  | _ => m.write (o.fbBase + off) (w.setWidth 8)

/-- The byte at an address of a word, or of its one byte in range, that has a value. -/
def storedByte (o : Operands) (off : Nat) (w : PixelWord) (a : Nat) : Byte :=
  match wordFate o off with
  | .whole => wordByte Config.wordByteOrder w (a - o.fbBase - off)
  | _ => w.setWidth 8

section
variable {o : Operands} {off : Nat}

theorem storeWord_of_whole (h : wordFate o off = .whole) (w : PixelWord) (m : Memory) :
    storeWord o off w m = m.writeWord (o.fbBase + off) w := by
  simp only [storeWord, h]

theorem storeWord_of_ne_whole (h : wordFate o off ≠ .whole) (w : PixelWord) (m : Memory) :
    storeWord o off w m = m.write (o.fbBase + off) (w.setWidth 8) := by
  cases hw : wordFate o off with
  | whole => exact absurd hw h
  | firstByte | dropped => simp only [storeWord, hw]

theorem storedByte_of_whole (h : wordFate o off = .whole) (w : PixelWord) (a : Nat) :
    storedByte o off w a = wordByte Config.wordByteOrder w (a - o.fbBase - off) := by
  simp only [storedByte, h]

theorem storedByte_of_ne_whole (h : wordFate o off ≠ .whole) (w : PixelWord) (a : Nat) :
    storedByte o off w a = w.setWidth 8 := by
  cases hw : wordFate o off with
  | whole => exact absurd hw h
  | firstByte | dropped => simp only [storedByte, hw]

/-- A word update sets the bytes of its word in the frame, and no other. -/
theorem read_storeWord (hchecked : startError o = none) (heven : off % 2 = 0) (hfate : wordFate o off ≠ .dropped)
    (w : PixelWord) (m : Memory) (a : Nat) :
    (storeWord o off w m).read a = if frameWordOf o a = some off then some (storedByte o off w a) else m.read a := by
  obtain ⟨-, hframe, -⟩ := (startError_eq_none o).mp hchecked
  have hmem : frameWordOf o a = some off ↔ a ∈ wordAddrs o off := by simp [mem_wordAddrs_iff heven, hfate]
  simp only [hmem]
  obtain ⟨hw, hlen⟩ | ⟨hw, -, hlen⟩ | ⟨hw, -⟩ := wordFate_cases o off
  · rw [storeWord_of_whole hw, storedByte_of_whole hw, Memory.read_writeWord _ _ _ _ (by omega)]
    simp only [wordAddrs, hw, List.mem_cons, List.not_mem_nil, or_false]
    by_cases h0 : a = o.fbBase + off
    · simp [h0]
    · by_cases h1 : a = o.fbBase + off + 1
      · simp [h1, show o.fbBase + off + 1 - o.fbBase - off = 1 by omega]
      · simp [h0, h1]
  · have hne : wordFate o off ≠ .whole := by simp [hw]
    rw [storeWord_of_ne_whole hne, storedByte_of_ne_whole hne, Memory.read_write]
    simp only [wordAddrs, hw, List.mem_singleton, show o.fbBase + off < Config.memSize by omega, and_true]
  · exact absurd hw hfate

end

/-! ## What the command gives each byte -/

section
variable {s t : State} {off a : Nat}

/-- The command gives each byte of a raced word the byte of the word's free value (R75 (a)). -/
theorem commandByte_of_raced {w : PixelWord} (ha : frameWordOf (operands s) a = some off)
    (hw : racedWord s off = some w) : commandByte s a = some (storedByte (operands s) off w a) := by
  obtain ⟨-, rfl⟩ := (frameWordOf_eq_some _ _ _).mp ha
  simp only [commandByte, hw]
  cases hf : wordFate (operands s) ((a - (operands s).fbBase) / 2 * 2) with
  | whole => rw [storedByte_of_whole hf]
  | firstByte | dropped => rw [storedByte_of_ne_whole (by simp [hf])]

/-- A byte that the command writes is a frame byte whose word has a landed pixel that is not dropped. -/
theorem inDispute_iff (s : State) (a : Nat) :
    inDispute s a = true ↔ s.eng = .busy ∧ ∃ off, frameWordOf (operands s) a = some off
      ∧ ∃ p ∈ landed s, pixelDropped (operands s) p = false ∧ pixelOffset (operands s) p = off := by
  unfold inDispute
  cases ha : frameWordOf (operands s) a with
  | none => simp
  | some off =>
    simp only [State.busy, Bool.and_eq_true, beq_iff_eq, List.contains_iff_mem, Bool.not_eq_true',
      List.isEmpty_eq_false_iff, wordLanes_ne_nil_iff, mem_wordAddrs_iff (frameWordOf_even ha), ha, true_and,
      Option.some.injEq, exists_eq_left', and_assoc, and_congr_right_iff, and_iff_right_iff_imp]
    rintro - ⟨p, -, hd, rfl⟩
    exact wordFate_ne_dropped hd

/-- The value that the update of a word gives it when no other agent has written it: the held value with the word's
lanes set (R113, R128). -/
def updatedWord (s : State) (off : Nat) (held : PixelWord) : PixelWord :=
  let lanes := wordLanes (operands s) (landed s) off
  match wordFate (operands s) off with
  | .whole => setLanes held lanes (operands s).phase
  | _ => (setClipLanes (held.setWidth 8) lanes (operands s).phase).setWidth 16

/-- What the command makes of the byte of a word with lanes to write is a byte of the word updated from its value at
acceptance. -/
theorem paintByte_of_heldAtStart {held : PixelWord} (ha : frameWordOf (operands s) a = some off)
    (hlanes : wordLanes (operands s) (landed s) off ≠ []) (hheld : heldAtStart s off = some held) :
    paintByte (operands s) (landed s) s.atStart a =
      some (storedByte (operands s) off (updatedWord s off held) a) := by
  have hmem := (mem_wordAddrs_iff (a := a) (o := operands s) (frameWordOf_even ha)).mpr
  obtain ⟨⟨hbase, -⟩, rfl⟩ := (frameWordOf_eq_some _ _ _).mp ha
  simp only [paintByte, if_neg (Nat.not_lt.mpr hbase), List.isEmpty_iff, hlanes, if_false]
  simp only [heldAtStart] at hheld
  cases hf : wordFate (operands s) ((a - (operands s).fbBase) / 2 * 2) with
  | whole =>
    simp only [hf] at hheld
    simp [hheld, storedByte_of_whole hf, updatedWord, hf]
  | firstByte =>
    have hbyte : a = (operands s).fbBase + (a - (operands s).fbBase) / 2 * 2 := by
      simpa [wordAddrs, hf, ha] using hmem
    simp only [hf, ← hbyte] at hheld
    obtain ⟨c, hc, rfl⟩ := Option.map_eq_some_iff.mp hheld
    rw [storedByte_of_ne_whole (by simp [hf])]
    simp [← hbyte, hc, updatedWord, hf]
  | dropped => simp [wordLanes, hf, writtenLanes] at hlanes

/-- A frame write stores a value in its word whose bytes are those of the word's free value, or of the word updated
where no other agent has written it (R75 (a), R113). -/
theorem writeFrameStep_storeWord {held : PixelWord} (hheld : heldValue off s.work.held = some held)
    (h : writeFrameStep off s = .ok t) :
    ∃ size v, t = logEngine .write ((operands s).fbBase + off) size v
        { finishWord off s with mem := storeWord (operands s) off v s.mem }
      ∧ ∀ a, storedByte (operands s) off v a
          = storedByte (operands s) off ((racedWord s off).getD (updatedWord s off held)) a := by
  obtain ⟨size, v, m, hm, rfl⟩ := writeFrameStep_ok off s t held hheld h
  obtain ⟨hf, -, rfl, rfl⟩ | ⟨hf, -, c, rfl, rfl, hc⟩ := hm
  · refine ⟨size, _, by rw [storeWord_of_whole hf], fun a => ?_⟩
    simp only [updatedWord, hf]
  · have hv : updatedWord s off held = (setClipLanes (held.setWidth 8) (wordLanes (operands s) (landed s) off)
        (operands s).phase).setWidth 16 := by
      cases hw : wordFate (operands s) off with
      | whole => exact absurd hw hf
      | firstByte | dropped => simp only [updatedWord, hw]
    have hbyte : (c.setWidth 16).setWidth 8 = c := BitVec.setWidth_setWidth_of_le c (by omega)
    refine ⟨size, c.setWidth 16, by rw [storeWord_of_ne_whole hf, hbyte], fun a => ?_⟩
    rw [storedByte_of_ne_whole hf, storedByte_of_ne_whole hf, hv, hbyte, hc]
    cases racedWord s off <;> simp

/-- After its frame write each byte of a word holds what the command gives it, and every other byte is as it was. -/
theorem read_of_writeFrameStep {held : PixelWord} (hchecked : startError (operands s) = none)
    (hoff : off ∈ pendingWords s) (hheld : heldValue off s.work.held = some held)
    (hstart : racedWord s off = none → heldAtStart s off = some held) (h : writeFrameStep off s = .ok t) (a : Nat) :
    (frameWordOf (operands s) a = some off → (t.mem.read a).isSome = true ∧ t.mem.read a = commandByte s a)
      ∧ (frameWordOf (operands s) a ≠ some off → t.mem.read a = s.mem.read a) := by
  obtain ⟨size, v, rfl, hv⟩ := writeFrameStep_storeWord hheld h
  obtain ⟨⟨p, hp, rfl, hd⟩, -⟩ := touched_of_mem_pendingWords hoff
  simp only [logEngine, logEvent_mem, read_storeWord hchecked (pixelOffset_even _ p) (wordFate_ne_dropped hd), hv]
  refine ⟨fun ha => ?_, fun ha => if_neg ha⟩
  rw [if_pos ha]
  refine ⟨rfl, ?_⟩
  cases hr : racedWord s (pixelOffset (operands s) p) with
  | some w => rw [commandByte_of_raced ha hr]; rfl
  | none =>
    obtain ⟨-, e⟩ := (frameWordOf_eq_some _ _ _).mp ha
    rw [commandByte_of_unraced s a (by rw [e, hr])]
    exact (paintByte_of_heldAtStart ha ((wordLanes_ne_nil_iff _ _ _).mpr ⟨p, hp, hd, rfl⟩) (hstart hr)).symm

end

end Sys2Proof.Machine
end

section
/-! SUPPORT. Every step keeps the running command on its way to the contract: what decides a byte of the frame, what a
race leaves undecided, and one lemma for each agent. -/

namespace Sys2Proof.Machine

/-! ## What decides a byte -/

/-- Two states agree on a frame word: on the operands, on memory at acceptance, on the lanes the command writes in the
word and on its free value. -/
structure SameWord (s t : State) (off : Nat) : Prop where
  same_operands : operands t = operands s
  same_start : t.atStart = s.atStart
  same_lanes : wordLanes (operands s) (landed t) off = wordLanes (operands s) (landed s) off
  same_raced : racedWord t off = racedWord s off

section
variable {s t : State} {off a : Nat}

/-- The lanes of a word depend on which of its own pixels land, and on no others. -/
theorem wordLanes_congr (ho : operands t = operands s)
    (h : ∀ p, pixelOffset (operands s) p = off → (p ∈ landed t ↔ p ∈ landed s)) :
    wordLanes (operands s) (landed t) off = wordLanes (operands s) (landed s) off := by
  have hlanes : lanesOf (operands s) (landed t) off = lanesOf (operands s) (landed s) off := by
    simp only [lanesOf, landed, ho, List.filter_filter]
    refine congrArg _ (List.filter_congr fun p hp => ?_)
    by_cases hoff : pixelOffset (operands s) p = off
    · have hlands := h p hoff
      simp only [mem_landed, ho, hp, true_and] at hlands
      rw [Bool.eq_iff_iff.mpr hlands]
    · rw [beq_false_of_ne hoff, Bool.false_and, Bool.false_and]
  rw [wordLanes, wordLanes, hlanes]

theorem inDispute_congr (ho : operands t = operands s) (heng : t.eng = s.eng)
    (hlanes : wordLanes (operands s) (landed t) off = wordLanes (operands s) (landed s) off)
    (ha : frameWordOf (operands s) a = some off) : inDispute t a = inDispute s a := by
  simp only [inDispute, State.busy, ho, ha, heng, hlanes]

theorem SameWord.commandByte (e : SameWord s t off) (ha : frameWordOf (operands s) a = some off) :
    commandByte t a = commandByte s a := by
  obtain ⟨-, rfl⟩ := (frameWordOf_eq_some _ _ _).mp ha
  simp only [Machine.commandByte, paintByte, e.same_operands, e.same_raced, e.same_start, e.same_lanes]

theorem SameWord.inDispute (e : SameWord s t off) (heng : t.eng = s.eng)
    (ha : frameWordOf (operands s) a = some off) : inDispute t a = inDispute s a :=
  inDispute_congr e.same_operands heng e.same_lanes ha

theorem SameWord.finalByte (e : SameWord s t off) (heng : t.eng = s.eng)
    (ha : frameWordOf (operands s) a = some off) (hmem : t.mem.read a = s.mem.read a) :
    finalByte t a = finalByte s a := by
  simp only [Machine.finalByte, e.inDispute heng ha, e.commandByte ha, hmem]

/-- Outside the frame the command has no say in a byte. -/
theorem inDispute_of_frameWordOf_none (ha : frameWordOf (operands s) a = none) : inDispute s a = false := by
  simp only [inDispute, ha]

theorem finalByte_of_inDispute (h : inDispute s a = true) : finalByte s a = commandByte s a := by
  rw [finalByte, if_pos h]

theorem finalByte_of_not_inDispute (h : inDispute s a = false) : finalByte s a = s.mem.read a := by
  simp [finalByte, h]

end

/-! ## Races -/

section
variable {s : State} {off a b : Nat}

theorem raceAt_addRace_of_ne (r : Race) (h : r.addr ≠ b) : raceAt (addRace r s) b = raceAt s b := by
  rw [raceAt_addRace, if_neg h, Option.or_none]

/-- A race decides nothing of the pixels whose bytes lie elsewhere. -/
theorem drawsAt_addRace_of_ne (r : Race) (h : r.addr ≠ b) : drawsAt (addRace r s) b = drawsAt s b := by
  simp only [drawsAt, raceAt_addRace_of_ne r h]; rfl

theorem racedWord_addRace_raceOf (s : State) (a off : Nat) :
    racedWord (addRace (raceOf s a) s) off
      = (racedWord s off).or (if a ∈ wordAddrs (operands s) off then some (raceWordAt s a) else none) :=
  racedWord_addRace _ _ _

/-- A race of a frame byte changes no landing: no bitmap byte lies in the frame. -/
theorem landed_addRace_of_frame (hchecked : startError (operands s) = none) (r : Race)
    (h : frameWordOf (operands s) r.addr = some off) : landed (addRace r s) = landed s := by
  refine List.filter_congr fun p hp => drawsAt_addRace_of_ne r fun e => ?_
  rw [e] at h
  cases h.symm.trans (frameWordOf_keptPixel hchecked hp)

/-- No race changes the landing of a pixel of a word already written (R71 (b); log entry 24). -/
theorem State.Inv.mem_landed_addRace_of_updated (hs : s.Inv) (hb : s.eng = .busy) (a : Nat) {p : Pixel}
    (hp : pixelOffset (operands s) p ∈ s.work.updated) :
    p ∈ landed (addRace (raceOf s a) s) ↔ p ∈ landed s := by
  by_cases hread : p ∈ s.work.toRead
  · exact iff_of_false ((hs.addRace_landed hb a).2 p hread hp) (hs.busy_order hb p hread hp)
  · exact mem_landed_addRace_raceOf fun h => absurd h hread

/-- A race leaves a word already written as it was decided, where it writes none of its bytes. -/
theorem State.Inv.sameWord_addRace (hs : s.Inv) (hb : s.eng = .busy) (hoff : off ∈ s.work.updated)
    (ha : frameWordOf (operands s) a ≠ some off) : SameWord s (addRace (raceOf s a) s) off where
  same_operands := rfl
  same_start := rfl
  same_lanes := wordLanes_congr rfl fun p hp => hs.mem_landed_addRace_of_updated hb a (hp ▸ hoff)
  same_raced := by
    obtain ⟨-, -, -, hwritable⟩ := hs.busy_work hb
    have hnot : a ∉ wordAddrs (operands s) off := fun h =>
      ha (frameWordOf_of_mem_wordAddrs (writableWord_even (hwritable off hoff)) h)
    rw [racedWord_addRace_raceOf, if_neg hnot, Option.or_none]

/-- A word that has been written, and one of whose bytes another agent writes, has a free value from then on. -/
theorem State.Inv.racedWord_addRace_of_updated (hs : s.Inv) (hb : s.eng = .busy)
    (ha : frameWordOf (operands s) a = some off) (hoff : off ∈ s.work.updated) :
    ∃ w, racedWord (addRace (raceOf s a) s) off = some w := by
  obtain ⟨-, -, -, hwritable⟩ := hs.busy_work hb
  have hmem := (mem_wordAddrs_iff (frameWordOf_even ha)).mpr ⟨ha, writableWord_fate (hwritable off hoff)⟩
  rw [racedWord_addRace_raceOf, if_pos hmem]
  cases racedWord s off with
  | some w => exact ⟨w, rfl⟩
  | none => exact ⟨_, rfl⟩

/-! ## Memory after a host write -/

theorem racedWrite_of_updated {w : PixelWord} (v : Byte) (ha : frameWordOf (operands s) a = some off)
    (hoff : off ∈ s.work.updated) (hw : racedWord s off = some w) :
    racedWrite s a v = storeWord (operands s) off w s.mem := by
  simp only [racedWrite, ha, hw, List.contains_iff_mem.mpr hoff]
  rfl

theorem racedWrite_of_not_updated (v : Byte)
    (h : ∀ off, frameWordOf (operands s) a = some off → off ∉ s.work.updated) :
    racedWrite s a v = s.mem.write a v := by
  obtain e | ⟨off, w, ha, hoff, -⟩ := racedWrite_cases s a v
  · exact e
  · exact absurd hoff (h off ha)

/-- A host write to no byte of a word already written is stored as written. -/
theorem read_racedWrite_of_not_updated (v : Byte) (ha : a < Config.memSize)
    (h : ∀ off, frameWordOf (operands s) a = some off → off ∉ s.work.updated) (b : Nat) :
    (racedWrite s a v).read b = if b = a then some v else s.mem.read b := by
  simp [racedWrite_of_not_updated v h, Memory.read_write, ha]

/-- A host write changes no byte outside the frame but the one written. -/
theorem read_racedWrite_of_frameWordOf_none (v : Byte) (hb : frameWordOf (operands s) b = none)
    (hne : b ≠ a) : (racedWrite s a v).read b = s.mem.read b := by
  have hout : ¬ ((operands s).fbBase ≤ b ∧ b < (operands s).fbBase + (operands s).fbLen) := fun h => by
    cases hb.symm.trans ((frameWordOf_eq_some _ _ _).mpr ⟨h, rfl⟩)
  obtain e | ⟨off, w, ha, -, -, ⟨hf, e⟩ | ⟨-, e⟩⟩ := racedWrite_cases s a v <;> rw [e]
  · exact Memory.read_write_other _ _ _ _ hne
  · obtain ⟨-, hlen⟩ | ⟨hf', -⟩ | ⟨hf', -⟩ := wordFate_cases (operands s) off
    · exact Memory.read_writeWord_other _ _ _ _ (by omega) (by omega)
    all_goals cases hf.symm.trans hf'
  · obtain ⟨hrange, rfl⟩ := (frameWordOf_eq_some _ _ _).mp ha
    exact Memory.read_write_other _ _ _ _ (by omega)

/-- A host write into a word already written leaves each byte of the word at what the command gives it (R75 (a)). -/
theorem State.Inv.read_racedWrite_of_updated (hs : s.Inv) (hb : s.eng = .busy) (v : Byte)
    (ha : frameWordOf (operands s) a = some off) (hoff : off ∈ s.work.updated) (b : Nat) :
    (frameWordOf (operands s) b = some off →
        ((racedWrite (addRace (raceOf s a) s) a v).read b).isSome = true
          ∧ (racedWrite (addRace (raceOf s a) s) a v).read b = commandByte (addRace (raceOf s a) s) b)
      ∧ (frameWordOf (operands s) b ≠ some off →
        (racedWrite (addRace (raceOf s a) s) a v).read b = s.mem.read b) := by
  obtain ⟨w, hw⟩ := hs.racedWord_addRace_of_updated hb ha hoff
  obtain ⟨-, -, -, hwritable⟩ := hs.busy_work hb
  rw [racedWrite_of_updated (s := addRace (raceOf s a) s) v ha hoff hw, operands_addRace,
    read_storeWord (hs.busy_checked hb) (frameWordOf_even ha) (writableWord_fate (hwritable off hoff))]
  refine ⟨fun h => ?_, fun h => if_neg h⟩
  rw [if_pos h, commandByte_of_raced (s := addRace (raceOf s a) s) h hw]
  exact ⟨rfl, rfl⟩

/-- A host write changes no byte but the one written and those of its word, where that is already written. -/
theorem State.Inv.read_racedWrite_of_ne (hs : s.Inv) (hb : s.eng = .busy) (a : Word) (v : Byte) (hne : b ≠ a.toNat)
    (h : ∀ off ∈ s.work.updated, frameWordOf (operands s) a.toNat = some off →
      frameWordOf (operands s) b ≠ some off) :
    (racedWrite (addRace (raceOf s a.toNat) s) a.toNat v).read b = s.mem.read b := by
  by_cases hu : ∃ off ∈ s.work.updated, frameWordOf (operands s) a.toNat = some off
  · obtain ⟨off, hoff, ha⟩ := hu
    exact (hs.read_racedWrite_of_updated hb v ha hoff b).2 (h off hoff ha)
  · have hread := read_racedWrite_of_not_updated (s := addRace (raceOf s a.toNat) s) v a.isLt
      (fun off ha hoff => hu ⟨off, hoff, ha⟩) b
    rwa [if_neg hne] at hread

end

/-! ## Bytes that host reads have shown -/

theorem wordByte_assembleWord (order : ByteOrder) (b0 b1 : Byte) :
    wordByte order (assembleWord order b0 b1) 0 = b0 ∧ wordByte order (assembleWord order b0 b1) 1 = b1 := by
  cases order with
  | little => exact ⟨BitVec.extractLsb'_append_eq_right, BitVec.extractLsb'_append_eq_left⟩
  | big => exact ⟨BitVec.extractLsb'_append_eq_left, BitVec.extractLsb'_append_eq_right⟩

section
variable {s : State} {off a b : Nat}

/-- The free value of a word has the bytes that host reads have shown already (R75 (c); log entry 24). -/
theorem storedByte_raceWordAt {v : Byte} (ha : frameWordOf (operands s) a = some off)
    (hb : b ∈ wordAddrs (operands s) off) (hv : shownAt s b = some v) :
    storedByte (operands s) off (raceWordAt s a) b = v := by
  cases hf : wordFate (operands s) off with
  | whole =>
    obtain ⟨h0, h1⟩ := wordByte_assembleWord Config.wordByteOrder
      ((shownAt s ((operands s).fbBase + off)).getD (wordByte Config.wordByteOrder (Config.raceWord s.draws) 0))
      ((shownAt s ((operands s).fbBase + off + 1)).getD (wordByte Config.wordByteOrder (Config.raceWord s.draws) 1))
    simp only [wordAddrs, hf, List.mem_cons, List.not_mem_nil, or_false] at hb
    rw [storedByte_of_whole hf]
    simp only [raceWordAt, ha, hf]
    obtain rfl | rfl := hb
    · rw [show (operands s).fbBase + off - (operands s).fbBase - off = 0 by omega, h0, hv, Option.getD_some]
    · rw [show (operands s).fbBase + off + 1 - (operands s).fbBase - off = 1 by omega, h1, hv, Option.getD_some]
  | firstByte =>
    simp only [wordAddrs, hf, List.mem_singleton] at hb
    rw [storedByte_of_ne_whole (by simp [hf])]
    simp [raceWordAt, ha, hf, ← hb, hv]
  | dropped => simp [wordAddrs, hf] at hb

/-- A byte that has been shown has been shown with one value only. -/
theorem State.Faithful.shownAt_of_mem (hf : s.Faithful) (hb : s.eng = .busy) {c : Host.Cell} (hc : c ∈ s.shown) :
    shownAt s c.1 = some c.2 := by
  have hfound : (s.shown.find? (fun d => d.1 == c.1)).isSome = true := List.find?_isSome.mpr ⟨c, hc, by simp⟩
  obtain ⟨d, hd⟩ := Option.isSome_iff_exists.mp hfound
  have haddr : d.1 = c.1 := by simpa using List.find?_some (p := fun d : Host.Cell => d.1 == c.1) hd
  have hvalue := hf.shown_value hb d (List.mem_of_find?_eq_some hd)
  rw [haddr, hf.shown_value hb c hc, Option.some.injEq] at hvalue
  rw [shownAt, hd, Option.map_some, hvalue]

/-- A race that gives a word its free value gives it the word's bytes that host reads have shown. -/
theorem State.Faithful.commandByte_addRace (hf : s.Faithful) (hb : s.eng = .busy) (a : Nat) {c : Host.Cell}
    (hc : c ∈ s.shown) (hd : inDispute s c.1 = true)
    (hlanes : ∀ off, wordLanes (operands s) (landed (addRace (raceOf s a) s)) off
      = wordLanes (operands s) (landed s) off) :
    commandByte (addRace (raceOf s a) s) c.1 = some c.2 := by
  have hvalue : commandByte s c.1 = some c.2 := (finalByte_of_inDispute hd).symm.trans (hf.shown_value hb c hc)
  obtain ⟨-, off, hw, p, -, hpd, rfl⟩ := (inDispute_iff s c.1).mp hd
  by_cases hfirst : racedWord s (pixelOffset (operands s) p) = none
      ∧ a ∈ wordAddrs (operands s) (pixelOffset (operands s) p)
  · obtain ⟨hnone, ha⟩ := hfirst
    have heven := pixelOffset_even (operands s) p
    have hnew := racedWord_addRace_raceOf s a (pixelOffset (operands s) p)
    rw [hnone, if_pos ha, Option.none_or] at hnew
    have hmem := (mem_wordAddrs_iff heven).mpr ⟨hw, wordFate_ne_dropped hpd⟩
    rw [commandByte_of_raced (s := addRace (raceOf s a) s) hw hnew, operands_addRace,
      storedByte_raceWordAt (frameWordOf_of_mem_wordAddrs heven ha) hmem (hf.shownAt_of_mem hb hc)]
  · have hsame : racedWord (addRace (raceOf s a) s) (pixelOffset (operands s) p)
        = racedWord s (pixelOffset (operands s) p) := by
      rw [racedWord_addRace_raceOf]
      cases hr : racedWord s (pixelOffset (operands s) p) with
      | some w => rfl
      | none => rw [if_neg fun ha => hfirst ⟨hr, ha⟩]; rfl
    rw [← hvalue]
    exact SameWord.commandByte ⟨rfl, rfl, hlanes _, hsame⟩ hw

/-- A race leaves the bytes that host reads have shown as the command's final ones (R75 (c); log entry 24). -/
theorem State.Faithful.finalByte_addRace (hf : s.Faithful) (hb : s.eng = .busy) (a : Nat)
    {c : Host.Cell} (hc : c ∈ s.shown) : finalByte (addRace (raceOf s a) s) c.1 = some c.2 := by
  cases hk : keepsPast (addRace (raceOf s a) s) with
  | true => exact ((keepsPast_iff _).mp hk).2.2 c hc
  | false =>
    have hlanes (off : Nat) : wordLanes (operands s) (landed (addRace (raceOf s a) s)) off
        = wordLanes (operands s) (landed s) off :=
      wordLanes_congr rfl fun p _ => mem_landed_addRace_raceOf fun _ => hk
    have hdispute : inDispute (addRace (raceOf s a) s) c.1 = inDispute s c.1 := by
      cases hw : frameWordOf (operands s) c.1 with
      | none => rw [inDispute_of_frameWordOf_none hw, inDispute_of_frameWordOf_none (s := addRace _ s) hw]
      | some off => exact inDispute_congr rfl rfl (hlanes off) hw
    cases hd : inDispute s c.1 with
    | true => rw [finalByte_of_inDispute (hdispute.trans hd), hf.commandByte_addRace hb a hc hd hlanes]
    | false =>
      rw [finalByte_of_not_inDispute (hdispute.trans hd), ← hf.shown_value hb c hc, finalByte_of_not_inDispute hd]
      rfl

end

/-! ## The contract over host accesses -/

section
variable {s t : State}

theorem faithful_of_idle (h : s.eng = .idle) : s.Faithful := by
  have not_busy {P : Prop} (hb : s.eng = .busy) : P := by cases h.symm.trans hb
  exact ⟨not_busy, not_busy, not_busy, not_busy, not_busy⟩

/-- The registers outside the operands, the history and the surroundings play no part in the contract. -/
theorem State.Faithful.with_rest (hf : s.Faithful) {done err wign rst : Bool} {errCode : ErrCode}
    {dropCount regData : Word} {devices : List Region} {moves : List Move} {history : List MemEvent} {draws : Nat} :
    State.Faithful { s with done, err, wign, errCode, dropCount, regData, rst, devices, moves, history, draws } :=
  ⟨hf.held_value, hf.updated_value, hf.pending_value, hf.other_bytes, hf.shown_value⟩

/-- Another agent's write during a command: each word written holds what the command gives it (R75 (a)). -/
theorem State.Faithful.updated_racedWrite (hs : s.Inv) (hf : s.Faithful) (hb : s.eng = .busy) (a : Word) (v : Byte)
    {off b : Nat} (hoff : off ∈ s.work.updated) (hmem : b ∈ wordAddrs (operands s) off) :
    ((racedWrite (addRace (raceOf s a.toNat) s) a.toNat v).read b).isSome = true
      ∧ (racedWrite (addRace (raceOf s a.toNat) s) a.toNat v).read b
          = commandByte (addRace (raceOf s a.toNat) s) b := by
  obtain ⟨-, -, -, hwritable⟩ := hs.busy_work hb
  have hw := frameWordOf_of_mem_wordAddrs (writableWord_even (hwritable off hoff)) hmem
  by_cases ha : frameWordOf (operands s) a.toNat = some off
  · exact (hs.read_racedWrite_of_updated hb v ha hoff b).1 hw
  · have hne : b ≠ a.toNat := fun e => ha (e ▸ hw)
    rw [hs.read_racedWrite_of_ne hb a v hne fun off' _ ha' hw' => ha (by rw [ha', ← hw', hw]),
      (hs.sameWord_addRace hb hoff ha).commandByte hw]
    exact hf.updated_value hb off hoff b hmem

/-- Another agent's write during a command: a byte that a host read has shown stays the command's final one, unless
the command has no say in it and it is the byte written. -/
theorem State.Faithful.shown_racedWrite (hs : s.Inv) (hf : s.Faithful) (hb : s.eng = .busy) (a : Word) (v : Byte)
    {c : Host.Cell} (hc : c ∈ s.shown) (hne : inDispute s a.toNat = false → c.1 ≠ a.toNat) :
    (if inDispute (addRace (raceOf s a.toNat) s) c.1 then commandByte (addRace (raceOf s a.toNat) s) c.1
      else (racedWrite (addRace (raceOf s a.toNat) s) a.toNat v).read c.1) = some c.2 := by
  have hfinal := hf.finalByte_addRace hb a.toNat hc
  cases hd : inDispute (addRace (raceOf s a.toNat) s) c.1 with
  | true => rw [if_pos rfl, ← hfinal, finalByte_of_inDispute hd]
  | false =>
    rw [if_neg (by simp), ← hfinal, finalByte_of_not_inDispute hd]
    refine hs.read_racedWrite_of_ne hb a v (fun e => ?_) fun off hoff _ hw => ?_
    · cases hda : inDispute s a.toNat with
      | false => exact hne hda e
      | true =>
        obtain ⟨-, off, hw, -⟩ := (inDispute_iff s a.toNat).mp hda
        have hlanded := landed_addRace_of_frame (hs.busy_checked hb) (raceOf s a.toNat) hw
        have := inDispute_congr (s := s) (t := addRace (raceOf s a.toNat) s) rfl rfl (by rw [hlanded]) hw
        rw [e, this, hda] at hd
        cases hd
    · obtain ⟨touched, -⟩ := hs.addRace_landed hb a.toNat
      obtain ⟨p, hp, ho, hpd⟩ := touched off (List.mem_append_right _ hoff)
      have := (inDispute_iff (addRace (raceOf s a.toNat) s) c.1).mpr ⟨hb, off, hw, p, hp, hpd, ho⟩
      cases hd.symm.trans this

/-- A word with no free value after a race had none before it, and the race writes none of its bytes. -/
theorem racedWord_addRace_none {a off : Nat} (h : racedWord (addRace (raceOf s a) s) off = none) :
    racedWord s off = none ∧ a ∉ wordAddrs (operands s) off := by
  rw [racedWord_addRace_raceOf, Option.or_eq_none_iff] at h
  exact ⟨h.1, fun ha => by simp [ha] at h⟩

/-- Another agent's write during a command: a word neither written nor raced is as at acceptance. -/
theorem State.Faithful.pending_racedWrite (hs : s.Inv) (hf : s.Faithful) (hb : s.eng = .busy) (a : Word) (v : Byte)
    {off b : Nat} (heven : off % 2 = 0) (hoff : off ∉ s.work.updated)
    (hr : racedWord (addRace (raceOf s a.toNat) s) off = none) (hmem : b ∈ wordAddrs (operands s) off) :
    (racedWrite (addRace (raceOf s a.toNat) s) a.toNat v).read b = s.atStart.read b := by
  obtain ⟨hnone, ha⟩ := racedWord_addRace_none hr
  have hw := frameWordOf_of_mem_wordAddrs heven hmem
  rw [← hf.pending_value hb off heven hoff hnone b hmem]
  refine hs.read_racedWrite_of_ne hb a v (fun e => ha (e ▸ hmem)) fun off' hoff' _ hw' => hoff ?_
  cases hw.symm.trans hw'
  exact hoff'

/-- Another agent's write during a command: a byte of no word that no other agent has written is as at acceptance. -/
theorem State.Faithful.other_racedWrite (hs : s.Inv) (hf : s.Faithful) (hb : s.eng = .busy) (a : Word) (v : Byte)
    {b : Nat} (hr : raceAt (addRace (raceOf s a.toNat) s) b = none)
    (hnot : ∀ off, off % 2 = 0 → b ∉ wordAddrs (operands s) off) :
    (racedWrite (addRace (raceOf s a.toNat) s) a.toNat v).read b = s.atStart.read b := by
  rw [raceAt_addRace, Option.or_eq_none_iff] at hr
  obtain ⟨hnone, hself⟩ := hr
  rw [← hf.other_bytes hb b hnone hnot]
  refine hs.read_racedWrite_of_ne hb a v (fun e => ?_) fun off hoff _ hw => ?_
  · have haddr : (raceOf s a.toNat).addr = b := e.symm
    rw [if_pos haddr] at hself
    cases hself
  · obtain ⟨-, -, -, hwritable⟩ := hs.busy_work hb
    exact hnot off (frameWordOf_even hw)
      ((mem_wordAddrs_iff (frameWordOf_even hw)).mpr ⟨hw, writableWord_fate (hwritable off hoff)⟩)

/-- A write of another agent during a command keeps the contract (R75; log entries 8 and 24). -/
theorem State.Faithful.hostWrite_busy (hs : s.Inv) (hf : s.Faithful) (hb : s.eng = .busy) (a : Word) (v : Byte) :
    (hostWrite a v s).Faithful := by
  rw [Machine.hostWrite_busy a v s hb]
  refine ⟨fun _ h hh hr => hf.held_value hb h hh (racedWord_addRace_none (s := s) (a := a.toNat) hr).1,
    fun _ off hoff b hmem => hf.updated_racedWrite hs hb a v hoff hmem,
    fun _ off heven hoff hr b hmem => hf.pending_racedWrite hs hb a v heven hoff hr hmem,
    fun _ b hr hnot => hf.other_racedWrite hs hb a v hr hnot, fun _ c hc => ?_⟩
  replace hc : c ∈ if inDispute s a.toNat then s.shown else s.shown.filter (fun c => c.1 != a.toNat) := hc
  cases hd : inDispute s a.toNat with
  | true => exact hf.shown_racedWrite hs hb a v (by simpa [hd] using hc) (by simp [hd])
  | false =>
    rw [hd, if_neg (by simp), List.mem_filter] at hc
    exact hf.shown_racedWrite hs hb a v hc.1 fun _ => by simpa using hc.2

/-- What a host read returns during a command, of a byte in which the command has a say: the byte at acceptance or the
one the command gives it. -/
theorem State.Faithful.hostReadValue_inDispute (hf : s.Faithful) (hb : s.eng = .busy) {a : Nat} {b : Byte}
    (h : hostReadValue s a = some b) (hd : inDispute s a = true) :
    s.atStart.read a = some b ∨ commandByte s a = some b := by
  obtain ⟨hd', -⟩ | ⟨-, -, hstart | hcommand | ⟨hstart, hcommand, hmem⟩⟩ := hostReadValue_cases s a b h
  · cases hd.symm.trans hd'
  · exact .inl hstart
  · exact .inr hcommand
  · obtain ⟨-, off, ha, p, -, hpd, rfl⟩ := (inDispute_iff s a).mp hd
    have heven := pixelOffset_even (operands s) p
    have hw := (mem_wordAddrs_iff heven).mpr ⟨ha, wordFate_ne_dropped hpd⟩
    by_cases hoff : pixelOffset (operands s) p ∈ s.work.updated
    · obtain ⟨-, e⟩ := hf.updated_value hb _ hoff a hw
      cases hmem.symm.trans (e.trans hcommand)
    · cases hr : racedWord s (pixelOffset (operands s) p) with
      | some w => cases hcommand.symm.trans (commandByte_of_raced ha hr)
      | none => cases hmem.symm.trans ((hf.pending_value hb _ heven hoff hr a hw).trans hstart)

/-- A host read that returns another byte than the one at acceptance returns the final one (R75 (c)). -/
theorem State.Faithful.finalByte_of_hostReadValue (hf : s.Faithful) (hb : s.eng = .busy) {a : Nat} {b : Byte}
    (h : hostReadValue s a = some b) (hne : s.atStart.read a ≠ some b) : finalByte s a = some b := by
  cases hd : inDispute s a with
  | true => exact (finalByte_of_inDispute hd).trans ((hf.hostReadValue_inDispute hb h hd).resolve_left hne)
  | false =>
    obtain ⟨-, hmem⟩ | ⟨hd', -⟩ := hostReadValue_cases s a b h
    · exact (finalByte_of_not_inDispute hd).trans hmem
    · cases hd.symm.trans hd'

/-- What a host read adds to the bytes shown: a frame byte that differs from the one at acceptance. -/
theorem mem_shown_showByte {a : Nat} {b : Byte} {c : Host.Cell} :
    c ∈ (showByte a b s).shown ↔ c ∈ s.shown
      ∨ (c = (a, b) ∧ s.eng = .busy ∧ (frameWordOf (operands s) a).isSome = true ∧ s.atStart.read a ≠ some b) := by
  simp only [showByte]
  split
  · rename_i h
    simp only [State.busy, Bool.and_eq_true, beq_iff_eq, bne_iff_ne, and_assoc] at h
    rw [List.mem_cons, or_comm, and_iff_left h]
  · rename_i h
    simp only [State.busy, Bool.and_eq_true, beq_iff_eq, bne_iff_ne, and_assoc] at h
    rw [or_iff_left fun hc => h hc.2]

/-- Showing the final value of a byte keeps the contract. -/
theorem State.Faithful.showByte {a : Nat} {b : Byte} (hf : s.Faithful)
    (h : s.eng = .busy → s.atStart.read a ≠ some b → finalByte s a = some b) : (showByte a b s).Faithful := by
  refine ⟨hf.held_value, hf.updated_value, hf.pending_value, hf.other_bytes, fun hb c hc => ?_⟩
  change finalByte s c.1 = some c.2
  obtain hc | ⟨rfl, -, -, hne⟩ := mem_shown_showByte.mp hc
  · exact hf.shown_value hb c hc
  · exact h hb hne

/-- A host read keeps the contract: what it shows as the value after the command is that value (R75 (c)). -/
theorem State.Faithful.hostRead {a : Word} (hf : s.Faithful) (h : hostRead a s = .next t) : t.Faithful := by
  obtain ⟨b, hvalue, rfl⟩ := hostRead_next a s t h
  exact (hf.showByte fun hb hne => hf.finalByte_of_hostReadValue hb hvalue hne).with_rest

/-! ## The contract over engine moves -/

/-- A frame read finds in its word the value at acceptance, where no other agent has written it. -/
theorem State.Faithful.heldAtStart_of_read {off size : Nat} {v : PixelWord} (hf : s.Faithful) (hb : s.eng = .busy)
    (hoff : off ∈ pendingWords s) (hr : racedWord s off = none)
    (hv : (wordFate (operands s) off = .whole ∧ size = 2 ∧ s.mem.readWord ((operands s).fbBase + off) = some v)
      ∨ (wordFate (operands s) off ≠ .whole ∧ size = 1
        ∧ ∃ b, s.mem.read ((operands s).fbBase + off) = some b ∧ v = b.setWidth 16)) :
    heldAtStart s off = some v := by
  obtain ⟨⟨p, -, rfl, hd⟩, hu⟩ := touched_of_mem_pendingWords hoff
  have hsame := hf.pending_value hb _ (pixelOffset_even _ p) hu hr
  obtain ⟨hfate, -, hread⟩ | ⟨hfate, -, b, hread, rfl⟩ := hv
  · simp only [wordAddrs, hfate, List.mem_cons, List.not_mem_nil, or_false, forall_eq_or_imp, forall_eq] at hsame
    simpa only [heldAtStart, hfate, Memory.readWord, hsame] using hread
  · cases hw : wordFate (operands s) (pixelOffset (operands s) p) with
    | whole => exact absurd hw hfate
    | dropped => exact absurd hw (wordFate_ne_dropped hd)
    | firstByte =>
      simp only [wordAddrs, hw, List.mem_singleton, forall_eq] at hsame
      simp only [heldAtStart, hw, ← hsame, hread, Option.map_some]

theorem State.Faithful.readFrameStep {off : Nat} (hf : s.Faithful) (hb : s.eng = .busy) (hoff : off ∈ pendingWords s)
    (h : readFrameStep off s = .ok t) : t.Faithful := by
  obtain ⟨size, v, hv, rfl⟩ := readFrameStep_ok off s t h
  exact ⟨fun _ => List.forall_mem_cons.mpr ⟨fun hr => hf.heldAtStart_of_read hb hoff hr hv, hf.held_value hb⟩,
    hf.updated_value, hf.pending_value, hf.other_bytes, hf.shown_value⟩

/-- The command has a say in each byte of a word still to update. -/
theorem inDispute_of_pending {off a : Nat} (hb : s.eng = .busy) (hoff : off ∈ pendingWords s)
    (ha : frameWordOf (operands s) a = some off) : inDispute s a = true := by
  obtain ⟨⟨p, hp, ho, hd⟩, -⟩ := touched_of_mem_pendingWords hoff
  exact (inDispute_iff s a).mpr ⟨hb, off, ha, p, hp, hd, ho⟩

/-- A frame write leaves its word as the command gives it and every other byte as it was. -/
theorem State.Faithful.writeFrameStep {off : Nat} (hs : s.Inv) (hf : s.Faithful) (hb : s.eng = .busy)
    (hoff : off ∈ pendingWords s) (hheld : (heldValue off s.work.held).isSome = true)
    (h : writeFrameStep off s = .ok t) : t.Faithful := by
  obtain ⟨held, hvalue⟩ := Option.isSome_iff_exists.mp hheld
  have hstart (hr : racedWord s off = none) : heldAtStart s off = some held := by
    obtain ⟨w, hw, rfl⟩ := Option.map_eq_some_iff.mp hvalue
    have hwo : w.off = off := by simpa using List.find?_some (p := fun w : HeldWord => w.off == off) hw
    rw [← hwo] at hr ⊢
    exact hf.held_value hb w (List.mem_of_find?_eq_some hw) hr
  have hread := read_of_writeFrameStep (hs.busy_checked hb) hoff hvalue hstart h
  obtain ⟨size, v, rfl, -⟩ := writeFrameStep_storeWord hvalue h
  obtain ⟨-, -, -, hwritable⟩ := hs.busy_work hb
  have hword {off' a : Nat} (ha : frameWordOf (operands s) a = some off') (hne : off' ≠ off) :
      frameWordOf (operands s) a ≠ some off := fun e => hne (Option.some.inj (ha.symm.trans e))
  refine ⟨fun _ w hw => hf.held_value hb w (List.mem_filter.mp hw).1, fun _ off' hoff' a ha => ?_,
    fun _ off' heven hoff' hr a ha => ?_, fun _ a hr hnot => ?_, fun _ c hc => ?_⟩
  · obtain rfl | hoff' := List.mem_cons.mp hoff'
    · obtain ⟨⟨p, -, rfl, -⟩, -⟩ := touched_of_mem_pendingWords hoff
      exact (hread a).1 (frameWordOf_of_mem_wordAddrs (pixelOffset_even _ p) ha)
    · obtain ⟨-, hu⟩ := touched_of_mem_pendingWords hoff
      have hw := frameWordOf_of_mem_wordAddrs (writableWord_even (hwritable off' hoff')) ha
      rw [(hread a).2 (hword hw fun e => hu (e ▸ hoff'))]
      exact hf.updated_value hb off' hoff' a ha
  · obtain ⟨hne, hoff'⟩ := List.ne_and_not_mem_of_not_mem_cons hoff'
    rw [(hread a).2 (hword (frameWordOf_of_mem_wordAddrs heven ha) hne)]
    exact hf.pending_value hb off' heven hoff' hr a ha
  · obtain ⟨⟨p, -, rfl, hd⟩, -⟩ := touched_of_mem_pendingWords hoff
    have heven := pixelOffset_even (operands s) p
    rw [(hread a).2 fun e => hnot _ heven ((mem_wordAddrs_iff heven).mpr ⟨e, wordFate_ne_dropped hd⟩)]
    exact hf.other_bytes hb a hr hnot
  · rw [← hf.shown_value hb c hc]
    cases hd : inDispute s c.1 with
    | true => rw [finalByte_of_inDispute hd]; exact finalByte_of_inDispute hd
    | false =>
      have hne (e : frameWordOf (operands s) c.1 = some off) : False := by
        cases hd.symm.trans (inDispute_of_pending hb hoff e)
      rw [finalByte_of_not_inDispute hd, ← (hread c.1).2 hne]
      exact finalByte_of_not_inDispute hd

/-- The contract is kept by every engine move, in whatever order they come. -/
theorem State.Faithful.performAction {a : Action} (hs : s.Inv) (hf : s.Faithful) (hb : s.eng = .busy)
    (ha : a ∈ engineActions s) (h : performAction a s = .ok t) : t.Faithful := by
  obtain ⟨p, -, rfl⟩ | ⟨p, -, rfl⟩ | ⟨off, hoff, ha⟩ | ⟨rfl, -⟩ := (mem_engineActions s a).mp ha
  · obtain ⟨b, -, rfl⟩ := readPixelStep_ok p s t h
    exact ⟨hf.held_value, hf.updated_value, hf.pending_value, hf.other_bytes, hf.shown_value⟩
  · obtain ⟨b, -, rfl⟩ := readClippedStep_ok p s t h
    exact ⟨hf.held_value, hf.updated_value, hf.pending_value, hf.other_bytes, hf.shown_value⟩
  · obtain ⟨rfl, -⟩ | ⟨rfl, hheld, -⟩ := (mem_wordActions s off a).mp ha
    · exact hf.readFrameStep hb hoff h
    · exact hf.writeFrameStep hs hb hoff hheld h
  · cases h; exact faithful_of_idle rfl

/-! ## The contract over every step -/

/-- The contract is kept by every instruction; an accepted command starts with it. -/
theorem State.Faithful.exec {i : Instr} (hf : s.Faithful) (h : exec i s = .next t) : t.Faithful := by
  cases execCase_of_next h with
  | ignored | readOnly | acknowledged f | read r => exact hf.with_rest
  | stored _ _ _ _ _ _ _ hi | nop _ hi | rejected _ hi => exact faithful_of_idle hi
  | accepted f => exact faithful_acceptCommand _

theorem State.Faithful.hostWrite (hs : s.Inv) (hf : s.Faithful) (a : Word) (v : Byte) :
    (hostWrite a v s).Faithful := by
  obtain hi | hb := eng_idle_or_busy s
  · rw [hostWrite_idle a v s hi]; exact faithful_of_idle hi
  · exact hf.hostWrite_busy hs hb a v

/-- The contract is kept by every step. -/
theorem State.Faithful.step (hs : s.Inv) (hf : s.Faithful) (h : step s = .next t) : t.Faithful := by
  cases stepCase_of_next h with
  | wait moves => exact hf.with_rest
  | served rest _ _ hexec => exact State.Faithful.exec hf.with_rest hexec
  | engine moves draws _ hb _ ha hp =>
    exact State.Faithful.performAction ((hs.with_moves moves).with_draws draws) hf.with_rest hb ha hp
  | hostWrite a v rest _ => exact State.Faithful.hostWrite (hs.with_moves rest) hf.with_rest a v
  | hostRead a rest _ hread => exact State.Faithful.hostRead hf.with_rest hread
  | reset asserted rest _ =>
    cases asserted with
    | true => exact faithful_of_idle rfl
    | false => exact hf.with_rest

end

/-- Settles O27: each agent's step keeps the contract, races by the free values of log entry 24. -/
theorem stepKeepsContract : Obligations.StepKeepsContract := fun _ _ hs hf h => hf.step hs h

end Sys2Proof.Machine
end

section
/-! SUPPORT. Transactions at the REG interface: which instruction is served, which access is refused, and what no
instruction touches. -/

namespace Sys2Proof

/-! ## The instruction of a transaction (R80, R82) -/

theorem decodeCtrl_wellFormed (data : Word) : (decodeCtrl data).wellFormed = true := by
  unfold decodeCtrl
  generalize data.extractLsb' 0 4 = cmd
  simp only
  split <;> [rfl; split <;> [rfl; split <;> [skip; split]]]
  all_goals
    simp only [Instr.wellFormed, Bool.or_eq_true, Bool.and_eq_true, beq_iff_eq, decide_eq_true_eq]
    bv_omega

theorem decodeTxn_wellFormed (t : Txn) : (decodeTxn t).wellFormed = true := by
  simp only [decodeTxn]
  split
  · cases regNameOf (t.extractLsb' 32 4) with
    | ctrl => exact decodeCtrl_wellFormed _
    | _ => rfl
  · rfl

/-- Bytes decode as the transaction they hold, or not at all. -/
theorem decode_eq_ok {bytes : List Byte} {i : Instr} (h : decode bytes = .ok i) : ∃ t, i = decodeTxn t := by
  unfold decode at h
  split at h
  · simp only at h
    split at h <;> cases h
    exact ⟨_, rfl⟩
  · cases h

end Sys2Proof

namespace Sys2Proof.Machine

section
variable {s t : State} {rest : List Move}

/-! ## Serving an access -/

theorem step_cons {m : Move} (hm : s.moves = m :: rest) : step s = serve m { s with moves := rest } := by
  simp only [step, hm]

theorem fetchReg_of_unsupported {a : RegAccess} (h : ¬ (a.size = 4 ∧ a.low = 0)) :
    fetchReg a = .error .regAccessUnsupported := if_neg h

end

/-- Settles O1: a served access is fetched, and every transaction decodes to a well-formed instruction. -/
theorem stepRunsDecodedTransaction : Obligations.StepRunsDecodedTransaction := by
  refine ⟨fun s a rest i hrst hm hsize hlow hdecode => ⟨?_, ?_⟩, fun s nbits w i hw => ?_⟩
  · obtain ⟨t, rfl⟩ := decode_eq_ok hdecode
    exact decodeTxn_wellFormed t
  · rw [step_cons hm]
    exact serveReg_of_fetchReg_ok hrst ((fetchReg_ok a i).mpr ⟨hsize, hlow, hdecode⟩)
  · have hdecode : decode (tableBytes nbits w) = .ok i := by
      unfold decodeTableWord at hw
      split at hw <;> cases hw
      assumption
    rw [step_cons (s := s.withFetchWord nbits w) rfl]
    exact serveReg_of_fetchReg_ok rfl ((fetchReg_ok _ i).mpr ⟨rfl, rfl, hdecode⟩)

/-- Settles O5: an unsupported access is not fetched, on the bus as at the block. -/
theorem unsupportedRegAccessRefused : Obligations.UnsupportedRegAccessRefused := by
  refine ⟨fun s a rest hrst hm hbad => ?_, fun s b rest hrst hm hwindow hbad => ?_⟩
  · rw [step_cons hm]
    exact serveReg_of_fetchReg_error hrst (fetchReg_of_unsupported hbad)
  · rw [step_bus hm (busToReg_eq_some (.inl (startsInWindow_of_masked hwindow)))]
    exact serveReg_of_fetchReg_error hrst (fetchReg_of_unsupported hbad)

/-! ## What no instruction touches -/

/-- Settles O23: the checks pass, and the range on the device is found. -/
theorem launchOnDeviceRefused : Obligations.LaunchOnDeviceRefused := by
  intro f s d hi hchecked hd hoverlap
  have hdevice : onDevice s.devices (operands s) = true :=
    List.any_eq_true.mpr ⟨d, hd, Bool.or_eq_true_iff.mpr hoverlap⟩
  obtain ⟨hb, -⟩ | ⟨-, e⟩ := ctrlWrite_cases f (fun t => drawCharStart (commandStart t)) s
  · cases hi.symm.trans hb
  · refine e.trans ?_
    obtain ⟨c, hc, -⟩ | ⟨-, -, hrefused⟩ | ⟨-, hfree, -⟩ := drawCharStart_cases (commandStart (storeCtrl f s))
    · cases hchecked.symm.trans hc
    · exact hrefused
    · cases hdevice.symm.trans hfree

/-- An instruction leaves what surrounds the block (R58, R65). -/
theorem surroundings_of_exec {i : Instr} {s t : State} (h : exec i s = .next t) :
    t.mem = s.mem ∧ t.history = s.history ∧ t.moves = s.moves ∧ t.rst = s.rst ∧ t.devices = s.devices := by
  cases execCase_of_next h <;> exact ⟨rfl, rfl, rfl, rfl, rfl⟩

/-- Settles O24, from what an instruction leaves. -/
theorem transactionsLeaveMemory : Obligations.TransactionsLeaveMemory := by
  intro i s t h
  obtain ⟨hmem, hhistory, hmoves, hrst, hdevices⟩ := surroundings_of_exec h
  exact ⟨fun a => by rw [hmem], hmem, hhistory, hmoves, hrst, hdevices⟩

end Sys2Proof.Machine
end

section
/-! SUPPORT. Engine moves: they write the frame only, stop at an address that is not backed, and else come nearer to
completion. -/

namespace Sys2Proof.Machine

/-! ## Bytes an engine move may change -/

section
variable {s t : State}

/-- An engine move changes no byte outside the frame range (R58). -/
theorem read_of_performAction {a : Action} (hchecked : startError (operands s) = none) (ha : a ∈ engineActions s)
    (h : performAction a s = .ok t) {b : Nat}
    (hout : (frameRange (operands s)).covers b = false) : t.mem.read b = s.mem.read b := by
  obtain ⟨p, -, rfl⟩ | ⟨p, -, rfl⟩ | ⟨off, hoff, ha⟩ | ⟨rfl, -⟩ := (mem_engineActions s a).mp ha
  · obtain ⟨_, -, rfl⟩ := readPixelStep_ok p s t h; rfl
  · obtain ⟨_, -, rfl⟩ := readClippedStep_ok p s t h; rfl
  · obtain ⟨rfl, -⟩ | ⟨rfl, hheld, -⟩ := (mem_wordActions s off a).mp ha
    · obtain ⟨_, _, -, rfl⟩ := readFrameStep_ok off s t h; rfl
    · obtain ⟨held, hvalue⟩ := Option.isSome_iff_exists.mp hheld
      obtain ⟨_, v, rfl, -⟩ := writeFrameStep_storeWord hvalue h
      obtain ⟨⟨p, -, rfl, hd⟩, -⟩ := touched_of_mem_pendingWords hoff
      have hnot : ¬ frameWordOf (operands s) b = some (pixelOffset (operands s) p) := fun e => by
        cases hout.symm.trans (covers_of_frameWordOf e)
      exact (read_storeWord hchecked (pixelOffset_even _ p) (wordFate_ne_dropped hd) v s.mem b).trans (if_neg hnot)
  · cases h; rfl

theorem operands_of_performAction {a : Action} (h : performAction a s = .ok t) : operands t = operands s := by
  obtain ⟨-, rfl⟩ | ⟨work, mem, history, rfl⟩ := performAction_fields h <;> rfl

/-- The state is one with these operands and, outside their frame range, these bytes. -/
def FrameOnly (o : Operands) (m : Memory) (s : State) : Prop :=
  operands s = o ∧ ∀ a, (frameRange o).covers a = false → s.mem.read a = m.read a

theorem FrameOnly.performAction {o : Operands} {m : Memory} {a : Action} (hchecked : startError o = none)
    (hs : FrameOnly o m s) (ha : a ∈ engineActions s) (h : performAction a s = .ok t) : FrameOnly o m t := by
  obtain ⟨rfl, hmem⟩ := hs
  exact ⟨operands_of_performAction h, fun b hb => (read_of_performAction hchecked ha h hb).trans (hmem b hb)⟩

/-- The moves that a command still makes when RST is asserted change no byte outside the frame range. -/
theorem FrameOnly.abandonCommand {o : Operands} {m : Memory} (hchecked : s.eng = .busy → startError o = none)
    (hs : FrameOnly o m s) : FrameOnly o m (abandonCommand s) := by
  obtain ⟨-, e⟩ | ⟨hb, e⟩ := abandonCommand_cases s <;> rw [e]
  · exact hs
  · exact engineRun_induct (FrameOnly o m) (fun _ h => h)
      (fun _ _ _ hu _ ha hp => hu.performAction (hchecked hb) ha hp) _ _ hs

end

/-- Settles O45: what an engine move may change, along the moves that a reset still lets it make. -/
theorem engineWritesOnlyTheFrame : Obligations.EngineWritesOnlyTheFrame := by
  intro s t hs hnext h a hout
  have start (moves : List Move) (draws : Nat) : FrameOnly (operands s) s.mem { s with moves, draws } :=
    ⟨rfl, fun _ _ => rfl⟩
  cases stepCase_of_next h with
  | wait moves => rfl
  | served rest _ _ hexec => rw [(surroundings_of_exec hexec).1]
  | engine moves draws _ hb _ ha hp =>
    exact ((start moves draws).performAction (hs.busy_checked hb) ha hp).2 a hout
  | hostWrite b v rest hm =>
    obtain (hnil | ⟨k, rest', hm'⟩) | ⟨rest', hm'⟩ := hnext
    · cases hm.symm.trans hnil
    all_goals cases hm.symm.trans hm'
  | hostRead b rest _ hread => obtain ⟨_, _, _, rfl, -⟩ := hostRead_fields hread; rfl
  | reset asserted rest _ =>
    cases asserted with
    | true => exact ((start rest s.draws).abandonCommand (s := { s with moves := rest }) hs.busy_checked).2 a hout
    | false => rfl

/-! ## Holding registers -/

section
variable {off b : Nat} {held : List HeldWord}

theorem heldValue_cons (v : PixelWord) :
    heldValue b ({ off := off, value := v } :: held) = if off = b then some v else heldValue b held := by
  by_cases h : off = b <;> simp [heldValue, h]

/-- The registers left when a word is written are those of the other words. -/
theorem heldValue_filter :
    heldValue b (held.filter (fun h => h.off != off)) = if off = b then none else heldValue b held := by
  simp only [heldValue, List.find?_filter]
  by_cases h : off = b
  · subst h
    rw [if_pos rfl, Option.map_eq_none_iff, List.find?_eq_none]
    simp
  · rw [if_neg h]
    congr 2
    funext w
    by_cases hw : w.off = b
    · simp [hw, Ne.symm h]
    · simp [hw]

end

/-! ## Progress -/

/-- The engine moves that a word still to update needs: its read and its write, or its write alone. -/
def movesForWord (held : List HeldWord) (off : Nat) : Nat := if (heldValue off held).isNone then 2 else 1

section
variable {s t : State}

theorem engineBudget_eq (s : State) :
    engineBudget s = 1 + s.work.toRead.length + s.work.mayRead.length
      + ((pendingWords s).map (movesForWord s.work.held)).sum := rfl

/-- A word that is written is no longer among those to update. -/
theorem pendingWords_finishWord (off : Nat) (s : State) :
    pendingWords (finishWord off s) = (pendingWords s).erase off := by
  rw [(nodup_pendingWords s).erase_eq_filter]
  simp only [pendingWords, List.filter_filter]
  refine List.filter_congr fun b _ => ?_
  by_cases h : b = off <;> simp [h, finishWord]

/-- The sum of the moves that the words need, with the share of one of them apart. -/
theorem sum_movesForWord {off : Nat} (hoff : off ∈ pendingWords s) (held : List HeldWord) :
    ((pendingWords s).map (movesForWord held)).sum
      = movesForWord held off + (((pendingWords s).erase off).map (movesForWord held)).sum :=
  (List.sum_map_erase _ hoff).symm

/-- The shares of the other words are the same where their holding registers are. -/
theorem sum_movesForWord_congr {off : Nat} {held held' : List HeldWord}
    (h : ∀ b, off ≠ b → heldValue b held' = heldValue b held) :
    (((pendingWords s).erase off).map (movesForWord held')).sum
      = (((pendingWords s).erase off).map (movesForWord held)).sum := by
  refine congrArg _ (List.map_congr_left fun b hb => ?_)
  have hne := ((nodup_pendingWords s).mem_erase_iff.mp hb).1
  rw [movesForWord, movesForWord, h b (Ne.symm hne)]

/-- Every engine move but completion leaves fewer moves to make (R180). -/
theorem engineBudget_lt_of_performAction {a : Action} (ha : a ∈ engineActions s) (h : performAction a s = .ok t) :
    t.eng = .idle ∨ engineBudget t < engineBudget s := by
  have fewer {l : List Pixel} {p : Pixel} (hp : p ∈ l) : (l.erase p).length < l.length := by
    have := List.length_pos_of_mem hp
    rw [List.length_erase_of_mem hp]; omega
  simp only [engineBudget_eq]
  obtain ⟨p, hp, rfl⟩ | ⟨p, hp, rfl⟩ | ⟨off, hoff, ha⟩ | ⟨rfl, -⟩ := (mem_engineActions s a).mp ha
  · obtain ⟨b, -, rfl⟩ := readPixelStep_ok p s t h
    have := fewer hp
    right
    change 1 + (s.work.toRead.erase p).length + s.work.mayRead.length
      + ((pendingWords s).map (movesForWord s.work.held)).sum < _
    omega
  · obtain ⟨b, -, rfl⟩ := readClippedStep_ok p s t h
    have := fewer hp
    right
    change 1 + s.work.toRead.length + (s.work.mayRead.erase p).length
      + ((pendingWords s).map (movesForWord s.work.held)).sum < _
    omega
  · obtain ⟨rfl, hnone⟩ | ⟨rfl, hheld, -⟩ := (mem_wordActions s off a).mp ha
    · obtain ⟨size, v, -, rfl⟩ := readFrameStep_ok off s t h
      have hrest := sum_movesForWord_congr (s := s) (held := s.work.held)
        (held' := { off := off, value := v } :: s.work.held) fun b hb => by rw [heldValue_cons, if_neg hb]
      right
      change 1 + s.work.toRead.length + s.work.mayRead.length
        + ((pendingWords s).map (movesForWord ({ off := off, value := v } :: s.work.held))).sum < _
      rw [sum_movesForWord hoff, sum_movesForWord hoff s.work.held, hrest]
      simp only [movesForWord, heldValue_cons, hnone, if_true, Option.isNone_some, Option.isNone_none,
        Bool.false_eq_true, if_false]
      omega
    · obtain ⟨v, hv⟩ := Option.isSome_iff_exists.mp hheld
      obtain ⟨size, w, rfl, -⟩ := writeFrameStep_storeWord hv h
      have hrest := sum_movesForWord_congr (s := s) (held := s.work.held)
        (held' := s.work.held.filter (fun h => h.off != off)) fun b hb => by rw [heldValue_filter, if_neg hb]
      right
      change 1 + s.work.toRead.length + s.work.mayRead.length
        + ((pendingWords (finishWord off s)).map
            (movesForWord (s.work.held.filter (fun h => h.off != off)))).sum < _
      rw [pendingWords_finishWord, sum_movesForWord hoff s.work.held, hrest]
      simp only [movesForWord, hv, Option.isNone_some, Bool.false_eq_true, if_false]
      omega
  · cases h; exact .inl rfl

/-! ## Addresses that are not backed -/

/-- An admissible engine action has no step exactly where it needs a byte that is not backed (R57). -/
theorem performAction_cases {a : Action} (ha : a ∈ engineActions s) :
    (∃ b, stuckAt s a = some b ∧ performAction a s = .error b)
      ∨ (stuckAt s a = none ∧ ∃ t, performAction a s = .ok t) := by
  obtain ⟨p, -, rfl⟩ | ⟨p, -, rfl⟩ | ⟨off, hoff, ha⟩ | ⟨rfl, -⟩ := (mem_engineActions s a).mp ha
  · cases hb : bitmapByte s (bitmapAddr (operands s) p) <;>
      simp [stuckAt, performAction, readPixelStep, hb]
  · cases hb : bitmapByte s (bitmapAddr (operands s) p) <;>
      simp [stuckAt, performAction, readClippedStep, hb]
  · obtain ⟨rfl, -⟩ | ⟨rfl, -⟩ := (mem_wordActions s off a).mp ha
    · obtain ⟨⟨p, -, rfl, hd⟩, -⟩ := touched_of_mem_pendingWords hoff
      cases hf : wordFate (operands s) (pixelOffset (operands s) p) with
      | whole =>
        cases h0 : s.mem.read ((operands s).fbBase + pixelOffset (operands s) p) <;>
        cases h1 : s.mem.read ((operands s).fbBase + pixelOffset (operands s) p + 1) <;>
          simp [stuckAt, performAction, readFrameStep, wordAddrs, hf, Memory.readWord, h0, h1]
      | firstByte =>
        cases h0 : s.mem.read ((operands s).fbBase + pixelOffset (operands s) p) <;>
          simp [stuckAt, performAction, readFrameStep, wordAddrs, hf, h0]
      | dropped => exact absurd hf (wordFate_ne_dropped hd)
    · refine .inr ⟨rfl, ?_⟩
      simp only [performAction, writeFrameStep]
      split
      · exact ⟨_, rfl⟩
      · split <;> exact ⟨_, rfl⟩
  · exact .inr ⟨rfl, _, rfl⟩

/-- With both ranges backed an engine action needs no byte that is not backed (R172). -/
theorem stuckAt_of_rangesBacked {a : Action} (hwork : workValid (operands s) s.work)
    (hbacked : rangesBacked (operands s) s.mem) (ha : a ∈ engineActions s) : stuckAt s a = none := by
  have bitmap {p : Pixel} (hx : p.x < (operands s).w) (hy : p.y < (operands s).h) :
      (bitmapByte s (bitmapAddr (operands s) p)).isNone = false := by
    have := hbacked _ (.inl (bitmapAddr_in_range _ p hx hy))
    cases hr : raceAt s (bitmapAddr (operands s) p) <;> simp [bitmapByte, hr, this]
  obtain ⟨hkept, hclipped, -, -⟩ := hwork
  obtain ⟨p, hp, rfl⟩ | ⟨p, hp, rfl⟩ | ⟨off, hoff, ha⟩ | ⟨rfl, -⟩ := (mem_engineActions s a).mp ha
  · obtain ⟨hx, hy, -⟩ := (mem_keptPixels _ p).mp (hkept p hp)
    simp [stuckAt, bitmap hx hy]
  · obtain ⟨hx, hy, -⟩ := (mem_clippedPixels _ p).mp (hclipped p hp)
    simp [stuckAt, bitmap hx hy]
  · obtain ⟨rfl, -⟩ | ⟨rfl, -⟩ := (mem_wordActions s off a).mp ha
    · obtain ⟨⟨p, -, rfl, -⟩, -⟩ := touched_of_mem_pendingWords hoff
      have hframe (b : Nat) (hb : b ∈ wordAddrs (operands s) (pixelOffset (operands s) p)) :
          (s.mem.read b).isNone = false := by
        have hw := frameWordOf_of_mem_wordAddrs (pixelOffset_even _ p) hb
        simp [Option.isNone_eq_false_iff, hbacked b (.inr (covers_of_frameWordOf hw))]
      have hany : (wordAddrs (operands s) (pixelOffset (operands s) p)).any (fun b => (s.mem.read b).isNone)
          = false :=
        List.any_eq_false.mpr fun b hb => by simp [hframe b hb]
      simp only [stuckAt, hany, Bool.false_eq_true, if_false]
    · rfl
  · rfl

/-! ## The engine's step -/

theorem engineMove_of_pickAction {k : Nat} {a : Action} (hb : s.eng = .busy)
    (hpick : pickAction k (engineActions s) = some a) : engineMove k s = performAction a s := by
  simp only [engineMove, hb, hpick]

theorem afterEngine_of_ok {k : Nat} {a : Action} (hb : s.eng = .busy)
    (hpick : pickAction k (engineActions s) = some a) (h : performAction a s = .ok t) : afterEngine k s = t := by
  simp only [afterEngine, engineMove_of_pickAction hb hpick, h]

theorem afterEngine_of_error {k b : Nat} {a : Action} (hb : s.eng = .busy)
    (hpick : pickAction k (engineActions s) = some a) (h : performAction a s = .error b) : afterEngine k s = s := by
  simp only [afterEngine, engineMove_of_pickAction hb hpick, h]

/-- A grant lets the engine make its move. -/
theorem step_grant {k : Nat} {rest : List Move} (hrst : s.rst = false) (hm : s.moves = .grant k :: rest) :
    step s = .next (afterEngine k { s with moves := rest }) := by
  rw [step_cons hm]
  exact if_neg (by simp [hrst])

/-- With no move pending a busy engine goes on alone. -/
theorem step_alone (hrst : s.rst = false) (hb : s.eng = .busy) (hm : s.moves = []) : step s = engineAlone s := by
  simp [step, hm, hrst, hb]

theorem engineAlone_of_ok {a : Action} (hb : s.eng = .busy)
    (hpick : pickAction (Config.engineOrder s.draws) (engineActions s) = some a)
    (h : performAction a { s with draws := s.draws + 1 } = .ok t) : engineAlone s = .next t := by
  simp only [engineAlone, engineMove_of_pickAction (s := { s with draws := s.draws + 1 }) hb hpick, h]

theorem engineAlone_of_error {a : Action} {b : Nat} (hb : s.eng = .busy)
    (hpick : pickAction (Config.engineOrder s.draws) (engineActions s) = some a)
    (h : performAction a { s with draws := s.draws + 1 } = .error b) : engineAlone s = .fault (.engineStuck b) := by
  simp only [engineAlone, engineMove_of_pickAction (s := { s with draws := s.draws + 1 }) hb hpick, h]

/-- A choice names an action of the engine, which always has one. -/
theorem exists_pickAction (k : Nat) (s : State) : ∃ a ∈ engineActions s, pickAction k (engineActions s) = some a := by
  obtain ⟨a, ha⟩ := Option.isSome_iff_exists.mp (pickAction_isSome k _ (engineActions_ne_nil s))
  exact ⟨a, pickAction_mem _ _ _ ha, ha⟩

end

/-- Settles O47: the action has no step, which a grant passes over and the engine alone does not. -/
theorem unbackedAddressStopsTheEngine : Obligations.UnbackedAddressStopsTheEngine := by
  intro s act a hrst hb hstuck
  have herror (moves : List Move) (draws : Nat) (hact : act ∈ engineActions s) :
      performAction act { s with moves, draws } = .error a := by
    obtain ⟨b, hstuck', e⟩ | ⟨hnone, -⟩ := performAction_cases (s := { s with moves, draws }) hact
    · cases hstuck.symm.trans hstuck'
      exact e
    · cases hstuck.symm.trans hnone
  refine ⟨fun k rest hm hpick => ?_, fun hm hpick => ?_⟩
  · rw [step_grant hrst hm, afterEngine_of_error (s := { s with moves := rest }) hb hpick
      (herror rest s.draws (pickAction_mem _ _ _ hpick))]
  · rw [step_alone hrst hb hm]
    exact engineAlone_of_error hb hpick (herror s.moves _ (pickAction_mem _ _ _ hpick))

/-- Settles O48: the action that is picked has a step, and the budget says that it brings completion nearer. -/
theorem everyEngineMoveMakesProgress : Obligations.EveryEngineMoveMakesProgress := by
  intro s hs hrst hb hbacked hnext
  have hprogress {act : Action} (moves : List Move) (draws : Nat) (hact : act ∈ engineActions s) :
      ∃ t, performAction act { s with moves, draws } = .ok t ∧ (t.eng = .idle ∨ engineBudget t < engineBudget s) := by
    obtain ⟨_, hstuck, -⟩ | ⟨-, t, ht⟩ := performAction_cases (s := { s with moves, draws }) hact
    · cases hstuck.symm.trans (stuckAt_of_rangesBacked (hs.busy_work hb) hbacked hact)
    · exact ⟨t, ht, engineBudget_lt_of_performAction (s := { s with moves, draws }) hact ht⟩
  obtain hm | ⟨k, rest, hm⟩ := hnext
  · obtain ⟨act, hact, hpick⟩ := exists_pickAction (Config.engineOrder s.draws) s
    obtain ⟨t, ht, hless⟩ := hprogress s.moves (s.draws + 1) hact
    exact ⟨t, (step_alone hrst hb hm).trans (engineAlone_of_ok hb hpick ht), hless⟩
  · obtain ⟨act, hact, hpick⟩ := exists_pickAction k s
    obtain ⟨t, ht, hless⟩ := hprogress rest s.draws hact
    refine ⟨t, ?_, hless⟩
    rw [step_grant hrst hm, afterEngine_of_ok (s := { s with moves := rest }) hb hpick ht]

end Sys2Proof.Machine
end

section
/-! SUPPORT. Accesses of other agents, one at a time: while idle, during a command, and the outcomes of a race. -/

namespace Sys2Proof.Machine

/-! ## While idle -/

section
variable {s : State}

theorem inDispute_of_idle (hi : s.eng = .idle) (a : Nat) : inDispute s a = false := by
  cases hd : inDispute s a with
  | false => rfl
  | true =>
    obtain ⟨hb, -⟩ := (inDispute_iff s a).mp hd
    cases hi.symm.trans hb

theorem hostReadValue_of_not_inDispute {a : Nat} (hd : inDispute s a = false) :
    hostReadValue s a = s.mem.read a := by
  simp only [hostReadValue, hd]
  cases s.mem.read a <;> rfl

theorem showByte_of_idle (hi : s.eng = .idle) (a : Nat) (b : Byte) : showByte a b s = s := by
  have hbusy : s.busy = false := by simp [State.busy, hi]
  simp only [showByte, hbusy, Bool.false_and, Bool.false_eq_true, if_false]

/-- While idle a host read returns memory's byte. -/
theorem hostRead_of_idle {a : Word} {v : Byte} (hi : s.eng = .idle) (hv : s.mem.read a.toNat = some v) :
    hostRead a s = .next (logHost .read a.toNat v s) := by
  have hd := inDispute_of_idle hi a.toNat
  simp only [hostRead, hostReadValue_of_not_inDispute hd, hv, hd, showByte_of_idle hi]
  rfl

end

/-- Settles O57: an idle engine has no say in any byte. -/
theorem hostAccessesWhileIdle : Obligations.HostAccessesWhileIdle := by
  refine ⟨fun s a v rest hi hm => ⟨_, step_cons hm, fun b => ?_, ?_⟩, fun s a v rest hi hm hv => ?_⟩
  · rw [hostWrite_idle a v { s with moves := rest } hi]
    simp [logHost, Memory.read_write, a.isLt]
  · rw [hostWrite_idle a v { s with moves := rest } hi]
    rfl
  · rw [step_cons hm]
    exact hostRead_of_idle (s := { s with moves := rest }) hi hv

/-! ## A write during a command -/

section
variable {s : State} {a : Word} {v : Byte}

theorem mem_hostWrite (hb : s.eng = .busy) :
    (hostWrite a v s).mem = racedWrite (addRace (raceOf s a.toNat) s) a.toNat v := by
  rw [hostWrite_busy a v s hb]; rfl

theorem raceAt_hostWrite (hb : s.eng = .busy) (b : Nat) :
    raceAt (hostWrite a v s) b = raceAt (addRace (raceOf s a.toNat) s) b := by
  rw [hostWrite_busy a v s hb]; rfl

theorem landed_hostWrite (hb : s.eng = .busy) :
    landed (hostWrite a v s) = landed (addRace (raceOf s a.toNat) s) := by
  rw [hostWrite_busy a v s hb]; rfl

theorem racedWord_hostWrite (hb : s.eng = .busy) (off : Nat) :
    racedWord (hostWrite a v s) off = racedWord (addRace (raceOf s a.toNat) s) off := by
  rw [hostWrite_busy a v s hb]; rfl

theorem block_hostWrite (a : Word) (v : Byte) (s : State) : (hostWrite a v s).block = s.block := by
  obtain ⟨_, _, _, _, _, e⟩ := hostWrite_fields a v s
  rw [e]; rfl

/-- The first write of another agent at an address is its race. -/
theorem raceAt_addRace_raceOf {a : Nat} (hr : raceAt s a = none) :
    raceAt (addRace (raceOf s a) s) a = some (raceOf s a) := by
  rw [raceAt_addRace, hr, Option.none_or]
  exact if_pos rfl

theorem raceAt_addRace_isSome (s : State) (a : Nat) : (raceAt (addRace (raceOf s a) s) a).isSome = true := by
  cases hr : raceAt s a with
  | none => rw [raceAt_addRace_raceOf hr]; rfl
  | some r => rw [raceAt_addRace, hr]; rfl

theorem read_hostWrite_of_not_updated (hb : s.eng = .busy)
    (h : ∀ off, frameWordOf (operands s) a.toNat = some off → off ∉ s.work.updated) (b : Nat) :
    (hostWrite a v s).mem.read b = if b = a.toNat then some v else s.mem.read b := by
  rw [mem_hostWrite hb]
  exact read_racedWrite_of_not_updated (s := addRace (raceOf s a.toNat) s) v a.isLt h b

end

/-- Settles O59: the race is marked, and the byte is stored as written. -/
theorem hostWriteDuringCommand : Obligations.HostWriteDuringCommand := by
  intro s a v rest hb hnot hm
  have hblock := block_hostWrite a v { s with moves := rest }
  refine ⟨_, step_cons hm, read_hostWrite_of_not_updated (s := { s with moves := rest }) hb hnot, ?_, hblock,
    (congrArg State.eng hblock).trans hb⟩
  rw [raceAt_hostWrite (s := { s with moves := rest }) hb]
  exact raceAt_addRace_isSome _ _

/-! ## Races of frame words -/

section
variable {s t : State} {off : Nat} {w : PixelWord}

/-- A word updated with a value reads back as that value, and its one byte in range as the low byte. -/
theorem storeWord_holds {o : Operands} (hchecked : startError o = none) (m : Memory) :
    (wordFate o off = .whole → (storeWord o off w m).readWord (o.fbBase + off) = some w)
      ∧ (wordFate o off = .firstByte → (storeWord o off w m).read (o.fbBase + off) = some (w.setWidth 8)) := by
  obtain ⟨-, hframe, -⟩ := (startError_eq_none o).mp hchecked
  obtain ⟨hw, hlen⟩ | ⟨hw, -, hlen⟩ | ⟨hw, -⟩ := wordFate_cases o off <;>
    refine ⟨fun hf => ?_, fun hf => ?_⟩ <;> cases hw.symm.trans hf
  · rw [storeWord_of_whole hw]
    exact Memory.readWord_writeWord _ _ _ (by omega)
  · rw [storeWord_of_ne_whole (by simp [hw])]
    exact Memory.read_write_same _ _ _ (by omega)

/-- The engine's write of a raced word stores its free value (R75 (a)). -/
theorem mem_writeFrameStep_of_raced (hheld : (heldValue off s.work.held).isSome = true)
    (hw : racedWord s off = some w) (h : writeFrameStep off s = .ok t) :
    t.mem = storeWord (operands s) off w s.mem := by
  obtain ⟨held, hvalue⟩ := Option.isSome_iff_exists.mp hheld
  obtain ⟨size, v, m, ⟨hf, -, rfl, rfl⟩ | ⟨hf, -, c, -, rfl, rfl⟩, rfl⟩ := writeFrameStep_ok off s t held hvalue h
  · rw [storeWord_of_whole hf, hw]; rfl
  · rw [storeWord_of_ne_whole hf, hw]; rfl

theorem writeFrame_mem_engineActions (h : .writeFrame off ∈ engineActions s) :
    off ∈ pendingWords s ∧ (heldValue off s.work.held).isSome = true ∧ settled s off = true := by
  simpa [mem_engineActions, mem_wordActions] using h

end

/-! ## Races of bitmap bytes -/

section
variable {s : State} {a : Nat} {p : Pixel}

theorem landed_eq_of_mem {t : State} (ho : operands t = operands s) (h : ∀ q, q ∈ landed t ↔ q ∈ landed s) :
    landed t = landed s := by
  rw [landed, landed, ho]
  refine List.filter_congr fun q hq => ?_
  have hq' := h q
  rwa [mem_landed, mem_landed, ho, and_iff_right hq, and_iff_right hq, ← Bool.eq_iff_iff] at hq'

/-- Another agent's write of a pixel's byte changes no other pixel's landing (R75 (b)). -/
theorem mem_landed_addRace_of_ne {r : Race} {q : Pixel} (hp : p ∈ keptPixels (operands s))
    (hr : r.addr = bitmapAddr (operands s) p) (hne : q ≠ p) : q ∈ landed (addRace r s) ↔ q ∈ landed s := by
  rw [mem_landed, mem_landed, operands_addRace]
  refine and_congr_right fun hq => ?_
  rw [drawsAt_addRace_of_ne r fun e => hne (bitmapAddr_inj hq hp (e.symm.trans hr))]

/-- A pixel still to be read lands by the free byte of the first race at its address (R75 (b); log entry 21). -/
theorem mem_landed_addRace_raceOf_iff (hp : p ∈ keptPixels (operands s)) (ha : bitmapAddr (operands s) p = a)
    (hread : p ∈ s.work.toRead) (hr : raceAt s a = none) :
    p ∈ landed (addRace (raceOf s a) s) ↔ raceByteAt s a ≠ 0 := by
  have hlate : (raceOf s a).late = false := by
    have := alreadyRead_bitmapAddr hp
    rw [ha] at this
    exact this.trans (by simpa using hread)
  have hbyte : (raceOf s a).byte = raceByteAt s a := rfl
  rw [mem_landed, operands_addRace, and_iff_right hp, ha]
  simp only [drawsAt, raceAt_addRace_raceOf hr, hlate, hbyte]
  simp

/-- Another agent's write of a pixel's byte decides nothing of the words the pixel does not lie in (R75 (b)). -/
theorem sameWord_addRace_of_ne (hchecked : startError (operands s) = none) {r : Race} {off : Nat}
    (hp : p ∈ keptPixels (operands s)) (hr : r.addr = bitmapAddr (operands s) p) (heven : off % 2 = 0)
    (hne : off ≠ pixelOffset (operands s) p) : SameWord s (addRace r s) off where
  same_operands := rfl
  same_start := rfl
  same_lanes := wordLanes_congr rfl fun q hq => mem_landed_addRace_of_ne hp hr fun e => hne (by rw [← hq, e])
  same_raced := by
    have hnot : r.addr ∉ wordAddrs (operands s) off := fun h => by
      rw [hr] at h
      cases (frameWordOf_of_mem_wordAddrs heven h).symm.trans (frameWordOf_keptPixel hchecked hp)
    rw [racedWord_addRace, if_neg hnot, Option.or_none]

/-- Another agent's write of a pixel's byte leaves the final value of every byte that is not one of the pixel's
word. -/
theorem finalByte_addRace_of_not_mem (hchecked : startError (operands s) = none) {r : Race} {c : Nat}
    (hp : p ∈ keptPixels (operands s)) (hr : r.addr = bitmapAddr (operands s) p)
    (hc : c ∉ wordAddrs (operands s) (pixelOffset (operands s) p)) : finalByte (addRace r s) c = finalByte s c := by
  by_cases hw : ∃ off, frameWordOf (operands s) c = some off ∧ off ≠ pixelOffset (operands s) p
  · obtain ⟨off, hw, hne⟩ := hw
    exact (sameWord_addRace_of_ne hchecked hp hr (frameWordOf_even hw) hne).finalByte rfl hw rfl
  · have not_inDispute {t : State} (ho : operands t = operands s) : inDispute t c = false := by
      by_contra hd
      obtain ⟨-, off, ha, q, -, hqd, rfl⟩ := (inDispute_iff t c).mp (by simpa using hd)
      rw [ho] at ha hqd
      refine hw ⟨_, ha, fun e => hc ?_⟩
      rw [← e]
      exact (mem_wordAddrs_iff (frameWordOf_even ha)).mpr ⟨ha, wordFate_ne_dropped hqd⟩
    rw [finalByte_of_not_inDispute (not_inDispute rfl),
      finalByte_of_not_inDispute (not_inDispute (t := addRace r s) rfl)]
    rfl

/-- A race whose pixel lies in a word neither read nor written, none of whose bytes has been shown, agrees with what
has already happened whatever its byte is (log entry 24). -/
theorem keepsPast_addRace_of_untouched (hs : s.Inv) (hf : s.Faithful) (hb : s.eng = .busy) {r : Race}
    (hp : p ∈ keptPixels (operands s)) (hr : r.addr = bitmapAddr (operands s) p)
    (hupdated : pixelOffset (operands s) p ∉ s.work.updated)
    (hheld : heldValue (pixelOffset (operands s) p) s.work.held = none)
    (hshown : ∀ c ∈ wordAddrs (operands s) (pixelOffset (operands s) p), shownAt s c = none) :
    keepsPast (addRace r s) = true := by
  have same {q : Pixel} (hne : pixelOffset (operands s) q ≠ pixelOffset (operands s) p) :
      q ∈ landed (addRace r s) ↔ q ∈ landed s :=
    mem_landed_addRace_of_ne hp hr fun e => hne (e ▸ rfl)
  refine (keepsPast_iff _).mpr ⟨fun h hh => ?_, fun q hq hu => ?_, fun c hc => ?_⟩
  · replace hh : h ∈ s.work.held := hh
    obtain ⟨q, hq, ho, hd⟩ := hs.busy_touched hb h.off (List.mem_append_left _ (List.mem_map_of_mem hh))
    have hne : pixelOffset (operands s) q ≠ pixelOffset (operands s) p := fun e => by
      rw [heldValue, Option.map_eq_none_iff, List.find?_eq_none] at hheld
      exact hheld h hh (by simp [← ho, e])
    exact (mem_pendingWords _ _).mpr ⟨⟨q, (same hne).mpr hq, hd, ho⟩, hs.busy_held hb h hh⟩
  · replace hu : pixelOffset (operands s) q ∈ s.work.updated := hu
    have hne : pixelOffset (operands s) q ≠ pixelOffset (operands s) p := fun e => hupdated (e ▸ hu)
    exact fun hl => hs.busy_order hb q hq hu ((same hne).mp hl)
  · replace hc : c ∈ s.shown := hc
    rw [← hf.shown_value hb c hc]
    refine finalByte_addRace_of_not_mem (hs.busy_checked hb) hp hr fun hmem => ?_
    cases (hshown c.1 hmem).symm.trans (hf.shownAt_of_mem hb hc)

end

/-! ## Completion -/

section
variable {s : State}

/-- With no word still to update memory holds the final value of every byte. -/
theorem State.Faithful.finalByte_of_pendingWords_nil (hf : s.Faithful) (hb : s.eng = .busy) (hp : pendingWords s = [])
    (a : Nat) : finalByte s a = s.mem.read a ∧ (inDispute s a = true → (s.mem.read a).isSome = true) := by
  cases hd : inDispute s a with
  | false => exact ⟨finalByte_of_not_inDispute hd, fun h => by cases h⟩
  | true =>
    obtain ⟨-, off, ha, p, hl, hpd, rfl⟩ := (inDispute_iff s a).mp hd
    have hoff : pixelOffset (operands s) p ∈ s.work.updated := by
      by_contra hu
      have := (mem_pendingWords s _).mpr ⟨⟨p, hl, hpd, rfl⟩, hu⟩
      rw [hp] at this
      cases this
    obtain ⟨hsome, e⟩ := hf.updated_value hb _ hoff a
      ((mem_wordAddrs_iff (pixelOffset_even _ p)).mpr ⟨ha, wordFate_ne_dropped hpd⟩)
    exact ⟨(finalByte_of_inDispute hd).trans e.symm, fun _ => hsome⟩

end

/-! ## The outcomes of a race -/

section
variable {s : State}

/-- R75 (a), the engine's write: the word takes its free value. -/
theorem step_writes_racedWord {off k : Nat} {w : PixelWord} {rest : List Move} (hs : s.Inv) (hb : s.eng = .busy)
    (hw : racedWord s off = some w) (hm : s.moves = .grant k :: rest)
    (hpick : pickAction k (engineActions s) = some (.writeFrame off)) :
    ∃ t, step s = .next t ∧ t.mem = storeWord (operands s) off w s.mem := by
  have hact := pickAction_mem _ _ _ hpick
  obtain ⟨-, hheld, -⟩ := writeFrame_mem_engineActions hact
  obtain ⟨_, hstuck, -⟩ | ⟨-, t, ht⟩ := performAction_cases (s := { s with moves := rest }) hact
  · cases hstuck
  · refine ⟨t, ?_, mem_writeFrameStep_of_raced (s := { s with moves := rest }) hheld hw ht⟩
    rw [step_grant (hs.rst_of_busy hb) hm, afterEngine_of_ok (s := { s with moves := rest }) hb hpick ht]

/-- R75 (a), the first write of another agent: the word's free value is drawn, and a word already written holds it. -/
theorem racedWord_of_hostWrite {a : Word} {off : Nat} (hb : s.eng = .busy) (v : Byte)
    (ha : frameWordOf (operands s) a.toNat = some off) (hfate : wordFate (operands s) off ≠ .dropped)
    (hnone : racedWord s off = none) :
    racedWord (hostWrite a v s) off = some (raceWordAt s a.toNat)
      ∧ (off ∈ s.work.updated →
        (hostWrite a v s).mem = storeWord (operands s) off (raceWordAt s a.toNat) s.mem) := by
  have hraced : racedWord (addRace (raceOf s a.toNat) s) off = some (raceWordAt s a.toNat) := by
    rw [racedWord_addRace_raceOf, hnone, if_pos ((mem_wordAddrs_iff (frameWordOf_even ha)).mpr ⟨ha, hfate⟩)]
    rfl
  refine ⟨(racedWord_hostWrite hb off).trans hraced, fun hoff => ?_⟩
  rw [mem_hostWrite hb]
  exact racedWrite_of_updated (s := addRace (raceOf s a.toNat) s) v ha hoff hraced

/-- R75 (b), the first write of another agent at a pixel's byte that the engine has still to read. -/
theorem freeByte_of_hostWrite {a : Word} {p : Pixel} (hs : s.Inv) (hf : s.Faithful) (hb : s.eng = .busy) (v : Byte)
    (hp : p ∈ keptPixels (operands s)) (ha : bitmapAddr (operands s) p = a.toNat) (hread : p ∈ s.work.toRead)
    (hr : raceAt s a.toNat = none) :
    ∃ b, bitmapByte (hostWrite a v s) a.toNat = some b ∧ (p ∈ landed (hostWrite a v s) ↔ b ≠ 0)
      ∧ (∀ q ∈ keptPixels (operands s), q ≠ p → (q ∈ landed (hostWrite a v s) ↔ q ∈ landed s))
      ∧ (b = Config.raceByte s.draws ∨ (p ∈ landed (hostWrite a v s) ↔ p ∈ landed s))
      ∧ (pixelOffset (operands s) p ∉ s.work.updated → heldValue (pixelOffset (operands s) p) s.work.held = none →
        (∀ c ∈ wordAddrs (operands s) (pixelOffset (operands s) p), shownAt s c = none) →
          b = Config.raceByte s.draws) := by
  have hlands := mem_landed_addRace_raceOf_iff hp ha hread hr
  have hbefore : p ∈ landed s ↔ drawsAt s a.toNat = true := by rw [mem_landed, and_iff_right hp, ha]
  rw [landed_hostWrite hb]
  refine ⟨raceByteAt s a.toNat, ?_, hlands, fun q _ hne => mem_landed_addRace_of_ne hp ha.symm hne, ?_,
    fun hupdated hheld hshown => ?_⟩
  · simp only [bitmapByte, raceAt_hostWrite hb, raceAt_addRace_raceOf hr]
    rfl
  · obtain ⟨-, e⟩ | ⟨-, e⟩ := raceByteAt_cases s a.toNat
    · exact .inl e
    · exact .inr (by rw [hlands, hbefore, ← e, bne_iff_ne])
  · obtain ⟨-, e⟩ | ⟨hk, -⟩ := raceByteAt_cases s a.toNat
    · exact e
    · cases hk.symm.trans (keepsPast_addRace_of_untouched hs hf hb hp ha.symm hupdated hheld hshown)

/-- R75 (b), a write of another agent at a pixel's byte that the engine has already read. -/
theorem lateByte_of_hostWrite {a : Word} {p : Pixel} (hs : s.Inv) (hb : s.eng = .busy) (v : Byte)
    (hp : p ∈ keptPixels (operands s)) (ha : bitmapAddr (operands s) p = a.toNat) (hread : p ∉ s.work.toRead) :
    landed (hostWrite a v s) = landed s
      ∧ ∀ b, (hostWrite a v s).mem.read b = if b = a.toNat then some v else s.mem.read b := by
  have hframe := frameWordOf_keptPixel (hs.busy_checked hb) hp
  rw [ha] at hframe
  refine ⟨?_, read_hostWrite_of_not_updated hb fun off h => by cases hframe.symm.trans h⟩
  rw [landed_hostWrite hb]
  refine landed_eq_of_mem rfl fun q => ?_
  by_cases hqp : q = p
  · exact mem_landed_addRace_raceOf fun h => absurd (hqp ▸ h) hread
  · exact mem_landed_addRace_of_ne hp ha.symm hqp

end

/-- Settles O60: each clause from what the step it speaks of does. -/
theorem racesGiveFreeValues : Obligations.RacesGiveFreeValues := by
  refine ⟨fun s off k w rest hs hb hw hm hpick => ?_, fun s a v off rest hs hb ha hfate hnone hm => ?_,
    fun s a v p rest hs hf hb hp ha hread hr hm => ?_, fun s a v p rest hs hb hp ha hread _ hm => ?_,
    fun s hs hf hb hpending => ⟨fun a hd => ?_, fun c hc => ?_⟩⟩
  · obtain ⟨t, hstep, hmem⟩ := step_writes_racedWord hs hb hw hm hpick
    exact ⟨t, hstep, hmem ▸ storeWord_holds (hs.busy_checked hb) s.mem⟩
  · obtain ⟨hraced, hstored⟩ := racedWord_of_hostWrite (s := { s with moves := rest }) hb v ha hfate hnone
    have hholds := storeWord_holds (off := off) (w := raceWordAt { s with moves := rest } a.toNat)
      (hs.busy_checked hb) s.mem
    refine ⟨_, _, step_cons hm, hraced,
      fun hshown => raceWordAt_of_unshown { s with moves := rest } a.toNat off ha hshown hfate,
      fun hoff hwhole => ?_, fun hoff hfirst => ?_⟩
    · exact hstored hoff ▸ hholds.1 hwhole
    · exact hstored hoff ▸ hholds.2 hfirst
  · obtain ⟨b, hbyte⟩ := freeByte_of_hostWrite (hs.with_moves rest) hf.with_rest hb v hp ha hread hr
    exact ⟨_, b, step_cons hm, hbyte⟩
  · exact ⟨_, step_cons hm, lateByte_of_hostWrite (hs.with_moves rest) hb v hp ha hread⟩
  · obtain ⟨hfinal, hsome⟩ := hf.finalByte_of_pendingWords_nil hb hpending a
    exact ⟨hsome hd, by rw [← hfinal, finalByte_of_inDispute hd]⟩
  · rw [← (hf.finalByte_of_pendingWords_nil hb hpending c.1).1]
    exact hf.shown_value hb c hc

end Sys2Proof.Machine
end

section
/-! SUPPORT. Runs of a command with accesses of other agents: what a step of a busy machine can be, and the order in
which the engine's accesses come (R71). -/

namespace Sys2Proof.Machine

/-! ## Steps of a busy machine -/

/-- What a step of a busy machine does while RST is not asserted: nothing to the command, an engine move, or a memory
access of another agent. -/
inductive BusyCase (s : State) : State → Prop where
  | quiet (done err wign rst : Bool) (errCode : ErrCode) (regData : Word) (moves : List Move) (draws : Nat) :
      BusyCase s { s with done, err, wign, rst, errCode, regData, moves, draws }
  | engine {a : Action} {t : State} (moves : List Move) (draws : Nat) : a ∈ engineActions s →
      performAction a { s with moves, draws } = .ok t → BusyCase s t
  | hostWrite (a : Word) (v : Byte) (rest : List Move) : BusyCase s (hostWrite a v { s with moves := rest })
  | hostRead {t : State} (a : Word) (rest : List Move) : hostRead a { s with moves := rest } = .next t → BusyCase s t

section
variable {s t u : State}

theorem busyCase_of_step (hb : s.eng = .busy) (hr : ∀ rest, s.moves ≠ .rst true :: rest) (h : step s = .next t) :
    BusyCase s t := by
  cases stepCase_of_next h with
  | wait moves => exact .quiet _ _ _ _ _ _ _ _
  | served rest _ _ hexec =>
    cases execCase_of_next hexec with
    | ignored | readOnly | acknowledged f | read r => exact .quiet _ _ _ _ _ _ _ _
    | stored _ _ _ _ _ _ _ hi | nop _ hi | rejected _ hi | accepted _ hi => cases hb.symm.trans hi
  | engine moves draws _ _ _ ha hp => exact .engine moves draws ha hp
  | hostWrite a v rest _ => exact .hostWrite a v rest
  | hostRead a rest _ hread => exact .hostRead a rest hread
  | reset asserted rest hm =>
    cases asserted with
    | true => exact absurd hm (hr rest)
    | false => exact .quiet _ _ _ _ _ _ _ _

/-- A property that holds at the start of a run of a command, and that each step of the busy machine keeps, holds at
its end. -/
theorem racyRun_induct {P : State → Prop} (hrun : RacyRun s u) (start : P s)
    (next : ∀ x y, x.eng = .busy → BusyCase x y → step x = .next y → P x → P y) : P u := by
  induction hrun with
  | start => exact start
  | next _ hb hm hstep ih =>
    refine next _ _ hb (busyCase_of_step hb (fun rest hr => ?_) hstep) hstep ih
    have := hm (.rst true) (by rw [hr]; rfl)
    cases this

end

/-! ## Engine accesses -/

/-- An access that the engine may make, with the position it leaves the engine in (R60, R71). -/
inductive EngineAccess (s : State) : Work → MemEvent → Prop where
  | readPixel {p : Pixel} {b : Byte} : p ∈ s.work.toRead → bitmapByte s (bitmapAddr (operands s) p) = some b →
      EngineAccess s { s.work with toRead := s.work.toRead.erase p }
        { agent := .engine, kind := .read, addr := bitmapAddr (operands s) p, size := 1, value := b.setWidth 16 }
  | readClipped {p : Pixel} {value : PixelWord} : p ∈ s.work.mayRead →
      EngineAccess s { s.work with mayRead := s.work.mayRead.erase p }
        { agent := .engine, kind := .read, addr := bitmapAddr (operands s) p, size := 1, value := value }
  | readFrame {off size : Nat} {v : PixelWord} : off ∈ pendingWords s → heldValue off s.work.held = none →
      EngineAccess s (holdWord off v s).work
        { agent := .engine, kind := .read, addr := (operands s).fbBase + off, size := size, value := v }
  | writeFrame {off size : Nat} {v : PixelWord} : off ∈ pendingWords s →
      (heldValue off s.work.held).isSome = true → settled s off = true →
      EngineAccess s (finishWord off s).work
        { agent := .engine, kind := .write, addr := (operands s).fbBase + off, size := size, value := v }

section
variable {s t : State}

/-- An engine move is one access, which enters the history, or completion (R135). -/
theorem engineAccess_of_performAction {a : Action} (ha : a ∈ engineActions s) (h : performAction a s = .ok t) :
    (pendingWords s = [] ∧ t = completeCommand s)
      ∨ ∃ work mem e, EngineAccess s work e ∧ t = { s with work, mem, history := e :: s.history } := by
  obtain ⟨p, hp, rfl⟩ | ⟨p, hp, rfl⟩ | ⟨off, hoff, ha⟩ | ⟨rfl, -, hpending⟩ := (mem_engineActions s a).mp ha
  · obtain ⟨b, hb, rfl⟩ := readPixelStep_ok p s t h
    exact .inr ⟨_, _, _, .readPixel hp hb, rfl⟩
  · obtain ⟨b, -, rfl⟩ := readClippedStep_ok p s t h
    exact .inr ⟨_, _, _, .readClipped hp, rfl⟩
  · obtain ⟨rfl, hnone⟩ | ⟨rfl, hheld, hsettled⟩ := (mem_wordActions s off a).mp ha
    · obtain ⟨size, v, -, rfl⟩ := readFrameStep_ok off s t h
      exact .inr ⟨_, _, _, .readFrame hoff hnone, rfl⟩
    · obtain ⟨held, hvalue⟩ := Option.isSome_iff_exists.mp hheld
      obtain ⟨size, v, rfl, -⟩ := writeFrameStep_storeWord hvalue h
      exact .inr ⟨_, _, _, .writeFrame hoff hheld hsettled, rfl⟩
  · cases h; exact .inl ⟨hpending, rfl⟩

theorem writableWord_of_pending {off : Nat} (h : off ∈ pendingWords s) : writableWord (operands s) off := by
  obtain ⟨⟨p, hp, ho⟩, -⟩ := touched_of_mem_pendingWords h
  exact ⟨p, landed_subset_keptPixels hp, ho⟩

/-- A word that may be written does not begin at the byte of a bitmap pixel. -/
theorem bitmapAddr_ne_wordAddr {o : Operands} {p : Pixel} {off : Nat} (hchecked : startError o = none)
    (hx : p.x < o.w) (hy : p.y < o.h) (hoff : writableWord o off) : bitmapAddr o p ≠ o.fbBase + off := by
  intro e
  have hnone := frameWordOf_bitmapAddr hchecked hx hy
  rw [e, frameWordOf_base (writableWord_even hoff) (writableWord_fate hoff)] at hnone
  cases hnone

/-- A column-clipped pixel and a kept one have their bytes at two addresses (R52). -/
theorem bitmapAddr_ne_of_clipped {o : Operands} {p q : Pixel} (hp : p ∈ clippedPixels o) (hq : q ∈ keptPixels o) :
    bitmapAddr o p ≠ bitmapAddr o q := by
  obtain ⟨hpx, -, -, hclip⟩ := (mem_clippedPixels o p).mp hp
  obtain ⟨hqx, -, -, hkeep⟩ := (mem_keptPixels o q).mp hq
  intro e
  have hsum : p.y * o.w + p.x = q.y * o.w + q.x := by simp only [bitmapAddr] at e; omega
  have hx : p.x = q.x := by
    simpa [Nat.mul_add_mod_self_right, Nat.mod_eq_of_lt, hpx, hqx] using congrArg (· % o.w) hsum
  exact hclip (hx ▸ hkeep)

end

/-! ## Pixels still to be read -/

/-- What a running command keeps of the pixels it has still to read, whatever other agents do: they pass the clips,
none of them lands in a word already written (R71 (b)), and each lands by the byte that the engine will read
(R121). -/
structure State.Reading (s : State) : Prop where
  checked : startError (operands s) = none
  kept : ∀ p ∈ s.work.toRead, p ∈ keptPixels (operands s)
  clipped : ∀ p ∈ s.work.mayRead, p ∈ clippedPixels (operands s)
  order : ∀ p ∈ s.work.toRead, pixelOffset (operands s) p ∈ s.work.updated → p ∉ landed s
  lands : ∀ p ∈ s.work.toRead, ∀ b, bitmapByte s (bitmapAddr (operands s) p) = some b →
    drawsAt s (bitmapAddr (operands s) p) = (b != 0)

section
variable {s t : State}

theorem State.Reading.acceptCommand (hchecked : startError (operands s) = none) : (acceptCommand s).Reading where
  checked := hchecked
  kept := fun _ h => h
  clipped := fun _ h => h
  order := fun _ _ h => by cases h
  lands := fun p _ b hb => by
    have hb : s.mem.read (bitmapAddr (operands s) p) = some b := hb
    change opaqueAt s.mem (bitmapAddr (operands s) p) = (b != 0)
    simp only [opaqueAt, hb]

/-- The registers outside the operands, the history and the surroundings play no part in what is still to be read. -/
theorem State.Reading.with_rest (hs : s.Reading) {done err wign rst : Bool} {errCode : ErrCode} {regData : Word}
    {moves : List Move} {history : List MemEvent} {shown : List Host.Cell} {draws : Nat} :
    State.Reading { s with done, err, wign, rst, errCode, regData, moves, history, shown, draws } :=
  ⟨hs.checked, hs.kept, hs.clipped, hs.order, hs.lands⟩

/-- A pixel that lands by the byte the engine will read lands by the same byte where memory has it still. -/
theorem State.Reading.lands_of_mem (hs : s.Reading) {mem : Memory}
    (hmem : ∀ b, (frameRange (operands s)).covers b = false → mem.read b = s.mem.read b) :
    ∀ p ∈ s.work.toRead, ∀ b, bitmapByte { s with mem } (bitmapAddr (operands s) p) = some b →
      drawsAt s (bitmapAddr (operands s) p) = (b != 0) := by
  intro p hp b hb
  refine hs.lands p hp b (Eq.trans ?_ hb)
  have hout := not_covers_of_frameWordOf_none (frameWordOf_keptPixel hs.checked (hs.kept p hp))
  have hrace (a : Nat) : raceAt { s with mem } a = raceAt s a := rfl
  simp only [bitmapByte, hrace, hmem _ hout]

/-- An engine access keeps the pixels still to be read as they are decided. -/
theorem State.Reading.engineAccess {work : Work} {mem : Memory} {e : MemEvent} {history : List MemEvent}
    (hs : s.Reading) (hacc : EngineAccess s work e)
    (hmem : ∀ b, (frameRange (operands s)).covers b = false → mem.read b = s.mem.read b) :
    State.Reading { s with work, mem, history } := by
  have lands := hs.lands_of_mem hmem
  cases hacc with
  | readPixel => exact ⟨hs.checked, fun q hq => hs.kept q (List.mem_of_mem_erase hq), hs.clipped,
      fun q hq => hs.order q (List.mem_of_mem_erase hq), fun q hq => lands q (List.mem_of_mem_erase hq)⟩
  | readClipped => exact ⟨hs.checked, hs.kept, fun q hq => hs.clipped q (List.mem_of_mem_erase hq), hs.order, lands⟩
  | readFrame => exact ⟨hs.checked, hs.kept, hs.clipped, hs.order, lands⟩
  | @writeFrame off _ _ _ _ hsettled =>
    refine ⟨hs.checked, hs.kept, hs.clipped, fun p hp hu => ?_, lands⟩
    obtain ho | hu := List.mem_cons.mp hu
    · exact (settled_iff s off).mp hsettled p hp ho
    · exact hs.order p hp hu

/-- A race brings no pixel still to be read to land in a word already written (log entry 24). -/
theorem State.Reading.order_addRace (hs : s.Reading) (a : Nat) {p : Pixel} (hp : p ∈ s.work.toRead)
    (hu : pixelOffset (operands s) p ∈ s.work.updated) : p ∉ landed (addRace (raceOf s a) s) := by
  cases hk : keepsPast (addRace (raceOf s a) s) with
  | true => exact ((keepsPast_iff _).mp hk).2.1 p hp hu
  | false => exact fun hl => hs.order p hp hu ((mem_landed_addRace_raceOf fun _ => hk).mp hl)

/-- After another agent's write a pixel still to be read lands by the byte the engine will read: the free byte of its
race, or the one it would have read (R75 (b)). -/
theorem State.Reading.lands_hostWrite (hs : s.Reading) (hb : s.eng = .busy) (a : Word) (v : Byte) {p : Pixel}
    (hp : p ∈ s.work.toRead) {b : Byte}
    (hbyte : bitmapByte (hostWrite a v s) (bitmapAddr (operands s) p) = some b) :
    drawsAt (addRace (raceOf s a.toNat) s) (bitmapAddr (operands s) p) = (b != 0) := by
  have hkept := hs.kept p hp
  simp only [bitmapByte, raceAt_hostWrite hb, mem_hostWrite hb] at hbyte
  cases hr : raceAt s (bitmapAddr (operands s) p) with
  | some r =>
    have hdraws : drawsAt (addRace (raceOf s a.toNat) s) (bitmapAddr (operands s) p)
        = drawsAt s (bitmapAddr (operands s) p) := by
      simp only [drawsAt, raceAt_addRace, hr, Option.some_or]
      rfl
    rw [raceAt_addRace, hr, Option.some_or] at hbyte
    rw [hdraws]
    exact hs.lands p hp b (by simpa only [bitmapByte, hr] using hbyte)
  | none =>
    by_cases ha : a.toNat = bitmapAddr (operands s) p
    · have hlate : (raceOf s a.toNat).late = false := by
        have := alreadyRead_bitmapAddr hkept
        rw [← ha] at this
        exact this.trans (by simpa using hp)
      rw [← ha] at hr hbyte ⊢
      rw [raceAt_addRace_raceOf hr] at hbyte
      simp only [drawsAt, raceAt_addRace_raceOf hr, hlate, Bool.false_eq_true, if_false]
      rw [Option.some.inj hbyte]
    · rw [raceAt_addRace_of_ne _ ha, hr] at hbyte
      rw [drawsAt_addRace_of_ne _ ha]
      refine hs.lands p hp b ?_
      have hmem := read_racedWrite_of_frameWordOf_none (s := addRace (raceOf s a.toNat) s) v
        (frameWordOf_keptPixel hs.checked hkept) (Ne.symm ha)
      simp only [bitmapByte, hr]
      exact hmem.symm.trans hbyte

/-- A write of another agent keeps the pixels still to be read decided. -/
theorem State.Reading.hostWrite (hs : s.Reading) (hb : s.eng = .busy) (a : Word) (v : Byte) :
    (hostWrite a v s).Reading := by
  have lands := fun p hp b => hs.lands_hostWrite hb a v (p := p) hp (b := b)
  have order := fun p hp => hs.order_addRace a.toNat (p := p) hp
  rw [hostWrite_busy a v s hb] at lands ⊢
  exact ⟨hs.checked, hs.kept, hs.clipped, order, lands⟩

/-- What a running command keeps of the pixels still to be read is kept by every step that leaves it running. -/
theorem State.Reading.step (hs : s.Reading) (hb : s.eng = .busy) (h : BusyCase s t) (ht : t.eng = .busy) :
    t.Reading := by
  cases h with
  | quiet => exact hs.with_rest
  | engine moves draws ha hp =>
    have hmem := fun b => read_of_performAction (b := b) (s := { s with moves, draws }) hs.checked ha hp
    obtain ⟨-, rfl⟩ | ⟨work, mem, e, hacc, rfl⟩ := engineAccess_of_performAction (s := { s with moves, draws }) ha hp
    · cases ht
    · exact State.Reading.engineAccess hs.with_rest hacc hmem
  | hostWrite a v rest =>
    exact State.Reading.hostWrite (s := { s with moves := rest }) hs.with_rest hb a v
  | hostRead a rest hread =>
    obtain ⟨_, _, _, rfl, -⟩ := hostRead_fields hread
    exact hs.with_rest

end

/-! ## The record of a command's accesses -/

/-- A frame write comes after one read of its word and no other write of it, and no pixel of the word lands by a read
that comes after it: each such read returns 0 (R71). -/
def WriteInTurn (o : Operands) (later : List MemEvent) (w : MemEvent) (before : List MemEvent) : Prop :=
  ∃ off, writableWord o off ∧ w.addr = o.fbBase + off ∧ accessCount .read w.addr before = 1
    ∧ accessCount .write w.addr before = 0
    ∧ ∀ p ∈ keptPixels o, pixelOffset o p = off → ∀ e ∈ later, e.agent = .engine → e.addr = bitmapAddr o p →
      e.value = 0

/-- The accesses of a command so far, newest first: no pixel's byte is read twice, and each frame write is in turn. -/
structure OrderKept (o : Operands) (new : List MemEvent) : Prop where
  once : ∀ p ∈ keptPixels o, accessCount .read (bitmapAddr o p) new ≤ 1
  writes : ∀ later w before, new = later ++ w :: before → w.agent = .engine → w.kind = .write →
    WriteInTurn o later w before

/-- The engine's position is what the accesses say: a pixel is read or still to be read, a word is held or updated where
it has been read, and updated where it has been written. -/
structure Recorded (o : Operands) (work : Work) (new : List MemEvent) : Prop where
  pixels : ∀ p ∈ keptPixels o, accessCount .read (bitmapAddr o p) new + work.toRead.count p = 1
  reads : ∀ off, writableWord o off → accessCount .read (o.fbBase + off) new
    = (heldValue off work.held).isSome.toNat + work.updated.count off
  writes : ∀ off, writableWord o off → accessCount .write (o.fbBase + off) new = work.updated.count off

section
variable {s t : State} {o : Operands} {new : List MemEvent} {e : MemEvent}

theorem accessCount_cons (kind : AccessKind) (a : Nat) (e : MemEvent) (l : List MemEvent) :
    accessCount kind a (e :: l)
      = accessCount kind a l + if e.agent = .engine ∧ e.kind = kind ∧ e.addr = a then 1 else 0 := by
  simp only [accessCount, List.countP_cons, Bool.and_eq_true, beq_iff_eq, and_assoc]

theorem accessCount_cons_of_not {kind : AccessKind} {a : Nat}
    (h : ¬ (e.agent = .engine ∧ e.kind = kind ∧ e.addr = a)) (l : List MemEvent) :
    accessCount kind a (e :: l) = accessCount kind a l := by
  rw [accessCount_cons, if_neg h, Nat.add_zero]

theorem accessCount_append (kind : AccessKind) (a : Nat) (l m : List MemEvent) :
    accessCount kind a (l ++ m) = accessCount kind a l + accessCount kind a m := List.countP_append

theorem recorded_startWork (o : Operands) : Recorded o (startWork o) [] where
  pixels := fun p hp => by
    simpa [accessCount, startWork] using List.count_eq_one_of_mem (keptPixels_nodup o) hp
  reads := fun off _ => by simp [accessCount, startWork, heldValue]
  writes := fun off _ => by simp [accessCount, startWork]

/-- An access of another agent leaves the record. -/
theorem Recorded.cons_host {work : Work} (h : Recorded o work new) (he : e.agent = .host) :
    Recorded o work (e :: new) := by
  have hnot (kind : AccessKind) (a : Nat) : ¬ (e.agent = .engine ∧ e.kind = kind ∧ e.addr = a) := by simp [he]
  refine ⟨fun p hp => ?_, fun off hoff => ?_, fun off hoff => ?_⟩ <;> rw [accessCount_cons_of_not (hnot _ _)]
  · exact h.pixels p hp
  · exact h.reads off hoff
  · exact h.writes off hoff

/-- A pixel that a running command may still read lies in its bitmap. -/
theorem State.Reading.in_bitmap (hs : s.Reading) {p : Pixel} (hp : p ∈ s.work.toRead ∨ p ∈ s.work.mayRead) :
    p.x < (operands s).w ∧ p.y < (operands s).h := by
  obtain hp | hp := hp
  · obtain ⟨hx, hy, -⟩ := (mem_keptPixels _ p).mp (hs.kept p hp); exact ⟨hx, hy⟩
  · obtain ⟨hx, hy, -⟩ := (mem_clippedPixels _ p).mp (hs.clipped p hp); exact ⟨hx, hy⟩

/-- A bitmap read keeps the record of the words. -/
theorem Recorded.words_of_bitmapRead {work : Work} {p : Pixel} (h : Recorded o work new)
    (hchecked : startError o = none) (hp : p.x < o.w ∧ p.y < o.h) (haddr : e.addr = bitmapAddr o p) {off : Nat}
    (hoff : writableWord o off) :
    accessCount .read (o.fbBase + off) (e :: new) = (heldValue off work.held).isSome.toNat + work.updated.count off
      ∧ accessCount .write (o.fbBase + off) (e :: new) = work.updated.count off := by
  have hnot (kind : AccessKind) : ¬ (e.agent = .engine ∧ e.kind = kind ∧ e.addr = o.fbBase + off) := fun he =>
    bitmapAddr_ne_wordAddr hchecked hp.1 hp.2 hoff (haddr.symm.trans he.2.2)
  rw [accessCount_cons_of_not (hnot _), accessCount_cons_of_not (hnot _)]
  exact ⟨h.reads off hoff, h.writes off hoff⟩

/-- A frame access keeps the record of the pixels. -/
theorem Recorded.pixels_of_frameAccess {work : Work} {off : Nat} (h : Recorded o work new)
    (hchecked : startError o = none) (hoff : writableWord o off) (haddr : e.addr = o.fbBase + off) :
    ∀ p ∈ keptPixels o, accessCount .read (bitmapAddr o p) (e :: new) + work.toRead.count p = 1 := by
  intro p hp
  obtain ⟨hx, hy, -⟩ := (mem_keptPixels o p).mp hp
  rw [accessCount_cons_of_not fun he => bitmapAddr_ne_wordAddr hchecked hx hy hoff (he.2.2.symm.trans haddr)]
  exact h.pixels p hp

/-- An engine access keeps the record. -/
theorem Recorded.engineAccess {work : Work} (h : Recorded (operands s) s.work new) (hs : s.Reading)
    (hacc : EngineAccess s work e) : Recorded (operands s) work (e :: new) := by
  cases hacc with
  | @readPixel p b hp hb =>
    have hwords {off : Nat} (hoff : writableWord (operands s) off) :=
      h.words_of_bitmapRead (e := ⟨.engine, .read, bitmapAddr (operands s) p, 1, b.setWidth 16⟩) hs.checked
        (hs.in_bitmap (.inl hp)) rfl hoff
    refine ⟨fun q hq => ?_, fun off hoff => (hwords hoff).1, fun off hoff => (hwords hoff).2⟩
    have hpixel := h.pixels q hq
    by_cases hqp : q = p
    · subst hqp
      have hcount := List.count_pos_iff.mpr hp
      rw [accessCount_cons, if_pos ⟨rfl, rfl, rfl⟩, List.count_erase_self]
      omega
    · rw [accessCount_cons_of_not fun he => hqp (bitmapAddr_inj hq (hs.kept p hp) he.2.2.symm),
        List.count_erase_of_ne hqp]
      exact hpixel
  | @readClipped p value hp =>
    have hwords {off : Nat} (hoff : writableWord (operands s) off) :=
      h.words_of_bitmapRead (e := ⟨.engine, .read, bitmapAddr (operands s) p, 1, value⟩) hs.checked
        (hs.in_bitmap (.inr hp)) rfl hoff
    refine ⟨fun q hq => ?_, fun off hoff => (hwords hoff).1, fun off hoff => (hwords hoff).2⟩
    rw [accessCount_cons_of_not fun he => bitmapAddr_ne_of_clipped (hs.clipped p hp) hq he.2.2]
    exact h.pixels q hq
  | @readFrame off size v hoff hnone =>
    refine ⟨h.pixels_of_frameAccess hs.checked (writableWord_of_pending hoff) rfl, fun b hb => ?_, fun b hb => ?_⟩
    · have hread := h.reads b hb
      simp only [accessCount_cons, holdWord, heldValue_cons, hread]
      by_cases hob : off = b
      · subst hob
        simp [hnone, Nat.add_comm]
      · simp [hob]
    · rw [accessCount_cons_of_not (by simp)]
      exact h.writes b hb
  | @writeFrame off size v hoff hheld _ =>
    refine ⟨h.pixels_of_frameAccess hs.checked (writableWord_of_pending hoff) rfl, fun b hb => ?_, fun b hb => ?_⟩
    · have hread := h.reads b hb
      rw [accessCount_cons_of_not (by simp), hread]
      simp only [finishWord, heldValue_filter, List.count_cons]
      by_cases hob : off = b
      · subst hob
        simp [hheld, Nat.add_comm]
      · simp [hob]
    · have hwrite := h.writes b hb
      simp only [accessCount_cons, finishWord, List.count_cons, hwrite]
      by_cases hob : off = b <;> simp [hob]

/-! ## The order of the accesses -/

/-- The order is kept by an access that is no second read of a pixel's byte, no frame write out of turn, and no read of
a landing pixel whose word is written. -/
theorem OrderKept.cons (h : OrderKept o new)
    (once : ∀ p ∈ keptPixels o, accessCount .read (bitmapAddr o p) (e :: new) ≤ 1)
    (inTurn : e.agent = .engine → e.kind = .write → WriteInTurn o [] e new)
    (unlanded : ∀ p ∈ keptPixels o, e.agent = .engine → e.addr = bitmapAddr o p →
      writableWord o (pixelOffset o p) → 0 < accessCount .write (o.fbBase + pixelOffset o p) new → e.value = 0) :
    OrderKept o (e :: new) := by
  refine ⟨once, fun later w before hsplit hagent hkind => ?_⟩
  cases later with
  | nil => cases hsplit; exact inTurn hagent hkind
  | cons e' later =>
    obtain ⟨rfl, hnew⟩ := List.cons.inj (hsplit : e :: new = e' :: (later ++ w :: before))
    obtain ⟨off, hoff, haddr, hread, hwrite, hlater⟩ := h.writes later w before hnew hagent hkind
    refine ⟨off, hoff, haddr, hread, hwrite, fun p hp ho =>
      List.forall_mem_cons.mpr ⟨fun he hea => ?_, hlater p hp ho⟩⟩
    subst ho
    refine unlanded p hp he hea hoff ?_
    rw [← haddr, accessCount, List.countP_pos_iff]
    exact ⟨w, by simp [hnew], by simp [hagent, hkind]⟩

theorem OrderKept.cons_host (h : OrderKept o new) (he : e.agent = .host) : OrderKept o (e :: new) := by
  refine h.cons (fun p hp => ?_) (fun h => by cases he.symm.trans h) (fun p _ h => by cases he.symm.trans h)
  rw [accessCount_cons_of_not (by simp [he])]
  exact h.once p hp

/-- What the engine reads of a pixel whose word is written is 0: the pixel does not land (R71 (b)). -/
theorem State.Reading.bitmapByte_eq_zero (hs : s.Reading) {p : Pixel} (hp : p ∈ s.work.toRead)
    (hu : pixelOffset (operands s) p ∈ s.work.updated) {b : Byte}
    (hb : bitmapByte s (bitmapAddr (operands s) p) = some b) : b = 0 := by
  have hlanded := hs.order p hp hu
  rw [mem_landed, and_iff_right (hs.kept p hp), hs.lands p hp b hb] at hlanded
  simpa using hlanded

/-- An engine access keeps the order. -/
theorem OrderKept.engineAccess {work : Work} (h : OrderKept (operands s) new) (hs : s.Reading)
    (hrec : Recorded (operands s) s.work new) (hacc : EngineAccess s work e) : OrderKept (operands s) (e :: new) := by
  have once (p : Pixel) (hp : p ∈ keptPixels (operands s)) :
      accessCount .read (bitmapAddr (operands s) p) (e :: new) ≤ 1 := by
    have := (hrec.engineAccess hs hacc).pixels p hp
    omega
  have no_pixel {off : Nat} (hoff : writableWord (operands s) off) {p : Pixel} (hp : p ∈ keptPixels (operands s))
      (he : (operands s).fbBase + off = bitmapAddr (operands s) p) : False := by
    obtain ⟨hx, hy, -⟩ := (mem_keptPixels _ p).mp hp
    exact bitmapAddr_ne_wordAddr hs.checked hx hy hoff he.symm
  cases hacc with
  | @readPixel p b hp hb =>
    refine h.cons once (fun _ hkind => by cases hkind) fun q hq _ haddr hoff hwritten => ?_
    obtain rfl := bitmapAddr_inj (hs.kept p hp) hq haddr
    rw [hrec.writes _ hoff, List.count_pos_iff] at hwritten
    rw [hs.bitmapByte_eq_zero hp hwritten hb]
    rfl
  | readClipped hp =>
    exact h.cons once (fun _ hkind => by cases hkind) fun q hq _ haddr =>
      absurd haddr (bitmapAddr_ne_of_clipped (hs.clipped _ hp) hq)
  | readFrame hoff _ =>
    exact h.cons once (fun _ hkind => by cases hkind) fun q hq _ haddr =>
      (no_pixel (writableWord_of_pending hoff) hq haddr).elim
  | @writeFrame off _ _ hoff hheld _ =>
    have hwritable := writableWord_of_pending hoff
    have hcount : s.work.updated.count off = 0 :=
      List.count_eq_zero_of_not_mem (touched_of_mem_pendingWords hoff).2
    refine h.cons once (fun _ _ => ⟨off, hwritable, rfl, ?_, ?_, fun _ _ _ _ h => by cases h⟩)
      fun q hq _ haddr => (no_pixel hwritable hq haddr).elim
    · rw [hrec.reads off hwritable, hheld, hcount]; rfl
    · rw [hrec.writes off hwritable, hcount]

/-- What every run of a command keeps, from the history at its start on: its operands, the order of its accesses, and
while it goes on the record and the pixels still to be read. -/
def AccessesInOrder (o : Operands) (start : List MemEvent) (s : State) : Prop :=
  operands s = o ∧ ∃ new, s.history = new ++ start ∧ OrderKept o new
    ∧ (s.eng = .busy → s.Reading ∧ Recorded o s.work new)

theorem accessesInOrder_acceptCommand (hchecked : startError (operands s) = none) :
    AccessesInOrder (operands s) s.history (acceptCommand s) :=
  ⟨rfl, [], rfl, ⟨fun _ _ => Nat.zero_le _, fun later w before h => by simp at h⟩,
    fun _ => ⟨State.Reading.acceptCommand hchecked, recorded_startWork _⟩⟩

theorem AccessesInOrder.step {start : List MemEvent} (h : AccessesInOrder o start s) (hb : s.eng = .busy)
    (hstep : BusyCase s t) : AccessesInOrder o start t := by
  obtain ⟨rfl, new, hhistory, horder, hbusy⟩ := h
  obtain ⟨hs, hrec⟩ := hbusy hb
  have hreading := hs.step hb hstep
  cases hstep with
  | quiet => exact ⟨rfl, new, hhistory, horder, fun _ => ⟨hreading hb, hrec⟩⟩
  | engine moves draws ha hp =>
    obtain ⟨-, rfl⟩ | ⟨work, mem, e, hacc, rfl⟩ := engineAccess_of_performAction (s := { s with moves, draws }) ha hp
    · exact ⟨rfl, new, hhistory, horder, fun h => by cases h⟩
    · have hs' : State.Reading { s with moves, draws } := hs.with_rest
      exact ⟨rfl, e :: new, congrArg (e :: ·) hhistory,
        OrderKept.engineAccess (s := { s with moves, draws }) horder hs' hrec hacc,
        fun hb => ⟨hreading hb, Recorded.engineAccess (s := { s with moves, draws }) hrec hs' hacc⟩⟩
  | hostWrite a v rest =>
    rw [hostWrite_busy a v { s with moves := rest } hb] at hreading ⊢
    exact ⟨rfl, _ :: new, congrArg (_ :: ·) hhistory, horder.cons_host rfl,
      fun _ => ⟨hreading hb, hrec.cons_host rfl⟩⟩
  | hostRead a rest hread =>
    obtain ⟨b, -, rfl⟩ := hostRead_next a { s with moves := rest } t hread
    exact ⟨rfl, _ :: new, congrArg (_ :: ·) hhistory, horder.cons_host rfl,
      fun _ => ⟨hreading hb, hrec.cons_host rfl⟩⟩

end

end Sys2Proof.Machine
end

section
/-! SUPPORT. The order of R71 over runs, and what host reads during a command return. -/

namespace Sys2Proof.Machine

/-! ## Every admissible move can be granted -/

/-- Some choice names each move of the list. -/
theorem exists_pickAction_of_mem {l : List Action} {a : Action} (h : a ∈ l) : ∃ k, pickAction k l = some a := by
  match l, h with
  | [b], h => exact ⟨0, by rw [pickAction, List.mem_singleton.mp h]⟩
  | b :: c :: rest, h =>
    obtain ⟨k, hk, e⟩ := List.getElem_of_mem h
    refine ⟨k, ?_⟩
    have hmod : k % (rest.length + 2) = k := Nat.mod_eq_of_lt hk
    rw [pickAction, hmod]
    exact List.getElem?_eq_some_iff.mpr ⟨hk, e⟩

/-- Settles O53: the order of the accesses is an invariant of the run, and each move is among the admissible ones. -/
theorem accessOrderIsFreeButForItsRule : Obligations.AccessOrderIsFreeButForItsRule := by
  refine ⟨fun f s t u later before new w hi _ hexec hb hrun hu hbefore hagent hkind => ?_, fun s hb =>
    ⟨fun p hp => ?_, fun p hp => ?_, fun p hp hd hu => ⟨fun hnone => ?_, fun hheld hreads => ?_⟩,
      fun act => exists_pickAction_of_mem, fun k act rest t hrst hm hpick hperform => ?_⟩⟩
  · have hrecord : AccessesInOrder (operands t) s.history u := by
      obtain ⟨rfl, hchecked⟩ := eq_acceptCommand_of_drawChar hi hexec hb
      exact racyRun_induct hrun (accessesInOrder_acceptCommand hchecked) fun x y hb hcase _ h => h.step hb hcase
    obtain ⟨-, new', hhistory, horder, -⟩ := hrecord
    obtain rfl : new' = later ++ w :: new := by
      refine List.append_cancel_right (hhistory.symm.trans ?_)
      rw [hu, hbefore, List.append_assoc, List.cons_append]
    obtain ⟨off, ⟨q, hq, hqo, -⟩, haddr, hread, hwrite, hlater⟩ := horder.writes later w new rfl hagent hkind
    subst hbefore
    simp only [accessCount_append, hread, hwrite]
    refine ⟨Nat.add_comm _ _, Nat.zero_add _, off, List.mem_map.mpr ⟨q, hq, hqo⟩, haddr, fun p hp hpo => ?_⟩
    have honce := horder.once p hp
    rw [accessCount_append, accessCount_cons_of_not (by simp [hkind])] at honce
    obtain hnone | hone : accessCount .read (bitmapAddr (operands t) p) new = 0
        ∨ accessCount .read (bitmapAddr (operands t) p) new = 1 := by omega
    · exact .inr ⟨by omega, by omega, hlater p hp hpo⟩
    · exact .inl ⟨by omega, by omega⟩
  · exact (mem_engineActions s _).mpr (.inl ⟨p, hp, rfl⟩)
  · exact (mem_engineActions s _).mpr (.inr (.inl ⟨p, hp, rfl⟩))
  · exact (mem_engineActions s _).mpr (.inr (.inr (.inl
      ⟨_, (mem_pendingWords s _).mpr ⟨⟨p, hp, hd, rfl⟩, hu⟩, (mem_wordActions s _ _).mpr (.inl ⟨rfl, hnone⟩)⟩)))
  · have hsettled := (settled_iff s _).mpr fun q hq ho hl => hreads q hl ho hq
    exact (mem_engineActions s _).mpr (.inr (.inr (.inl
      ⟨_, (mem_pendingWords s _).mpr ⟨⟨p, hp, hd, rfl⟩, hu⟩,
        (mem_wordActions s _ _).mpr (.inr ⟨rfl, hheld, hsettled⟩)⟩)))
  · rw [step_grant hrst hm, afterEngine_of_ok (s := { s with moves := rest }) hb hpick hperform]

/-! ## Host reads during a command -/

section
variable {s t : State}

/-- Where the duty of R74 was kept the command gives each byte of the frame what the pure function of R145 says. -/
theorem commandByte_of_dutyKept (hduty : s.dutyKept) {a off : Nat}
    (ha : frameWordOf (operands s) a = some off) : commandByte s a = drawByte (operands s) s.atStart a := by
  have hraced : racedWord s off = none := by
    refine (racedWord_eq_none s off).mpr fun r hr hmem => ?_
    have hnone := hduty r.addr
      (.inl (covers_of_frameWordOf (frameWordOf_of_mem_wordAddrs (frameWordOf_even ha) hmem)))
    rw [raceAt, List.find?_eq_none] at hnone
    exact hnone r hr (by simp)
  have hlanded : landed s = landedPixels (operands s) s.atStart := landed_of_raceAt_none s fun p hp => by
    obtain ⟨hx, hy, -⟩ := (mem_keptPixels _ p).mp hp
    exact hduty _ (.inr (bitmapAddr_in_range _ p hx hy))
  obtain ⟨-, rfl⟩ := (frameWordOf_eq_some _ _ _).mp ha
  rw [commandByte_of_unraced s a hraced, hlanded, drawByte]

/-- A host read changes no byte of memory and nothing of the block, and its value enters the history. -/
theorem hostRead_event {a : Word} (h : hostRead a s = .next t) :
    ∃ b, hostReadValue s a.toNat = some b ∧ t.mem = s.mem ∧ t.block = s.block
      ∧ t.history =
        { agent := .host, kind := .read, addr := a.toNat, size := 1, value := b.setWidth 16 } :: s.history := by
  obtain ⟨b, hvalue, e⟩ := hostRead_next a s t h
  obtain ⟨_, _, _, e', -⟩ := hostRead_fields h
  exact ⟨b, hvalue, by rw [e'], by rw [e']; rfl, by rw [e]; rfl⟩

theorem hostWrote_cons (a : Nat) (e : MemEvent) (l : List MemEvent) :
    hostWrote a (e :: l) = true ↔ (e.agent = .host ∧ e.kind = .write ∧ e.addr = a) ∨ hostWrote a l = true := by
  simp [hostWrote, and_assoc]

/-! ## Host reads over a run -/

/-- What a host read of a frame byte has returned: the byte at acceptance, or the final one, unless another agent has
written the byte again since (R75 (c)). The final value is among those shown while the command runs, and in memory
when it has completed. -/
def ReadShown (start : Memory) (s : State) (later : List MemEvent) (e : MemEvent) : Prop :=
  start.read e.addr = some (e.value.setWidth 8) ∨ hostWrote e.addr later = true
    ∨ (s.eng = .busy ∧ (e.addr, e.value.setWidth 8) ∈ s.shown)
    ∨ (s.eng = .idle ∧ s.mem.read e.addr = some (e.value.setWidth 8))

/-- Every host read of a frame byte since the history was `base` has returned one of the values of R75 (c). -/
def ReadsShown (o : Operands) (start : Memory) (base : List MemEvent) (s : State) : Prop :=
  ∀ later e before, s.history = later ++ e :: (before ++ base) → e.agent = .host → e.kind = .read →
    (frameRange o).covers e.addr = true → ReadShown start s later e

section
variable {o : Operands} {start : Memory} {base later later' : List MemEvent} {e : MemEvent}

/-- What a step of a busy machine has to say of a read made before it: where its value stands that was shown. -/
theorem ReadShown.of_busy (h : ReadShown start s later e) (hb : s.eng = .busy)
    (hlater : hostWrote e.addr later = true → hostWrote e.addr later' = true)
    (hshown : (e.addr, e.value.setWidth 8) ∈ s.shown → ReadShown start t later' e) : ReadShown start t later' e := by
  obtain h | h | ⟨-, h⟩ | ⟨hi, -⟩ := h
  · exact .inl h
  · exact .inr (.inl (hlater h))
  · exact hshown h
  · cases hb.symm.trans hi

/-- At the start of a run no host read is in question. -/
theorem readsShown_of_history_eq (h : s.history = base) : ReadsShown o start base s := fun later e before hsplit => by
  have hlength := congrArg List.length (h.symm.trans hsplit)
  simp only [List.length_append, List.length_cons] at hlength
  omega

/-- A step that adds no event. -/
theorem ReadsShown.of_history_eq (h : ReadsShown o start base s) (hb : s.eng = .busy)
    (hhistory : t.history = s.history)
    (hshown : ∀ later e, (e.addr, e.value.setWidth 8) ∈ s.shown → ReadShown start t later e) :
    ReadsShown o start base t := fun later e before hsplit hagent hkind ha =>
  (h later e before (hhistory.symm.trans hsplit) hagent hkind ha).of_busy hb id (hshown later e)

/-- A step that adds an event `new`. -/
theorem ReadsShown.of_history_cons (h : ReadsShown o start base s) (hb : s.eng = .busy) {new : MemEvent}
    (hhistory : t.history = new :: s.history)
    (hnew : new.agent = .host → new.kind = .read → (frameRange o).covers new.addr = true → ReadShown start t [] new)
    (hshown : ∀ later e, (e.addr, e.value.setWidth 8) ∈ s.shown → ReadShown start t (new :: later) e) :
    ReadsShown o start base t := fun later e before hsplit hagent hkind ha => by
  rw [hhistory] at hsplit
  cases later with
  | nil =>
    obtain ⟨rfl, -⟩ := List.cons.inj hsplit
    exact hnew hagent hkind ha
  | cons e' later =>
    obtain ⟨rfl, hold⟩ := List.cons.inj hsplit
    exact (h later e before hold hagent hkind ha).of_busy hb (fun hw => (hostWrote_cons _ _ _).mpr (.inr hw))
      (hshown later e)

theorem readShown_of_mem_shown {s : State} (hb : s.eng = .busy) (h : (e.addr, e.value.setWidth 8) ∈ s.shown) :
    ReadShown start s later e := .inr (.inr (.inl ⟨hb, h⟩))

/-- Completion leaves in memory the final value of every byte that has been shown. -/
theorem State.Faithful.readShown_completeCommand (hf : s.Faithful) (hb : s.eng = .busy) (hp : pendingWords s = [])
    (h : (e.addr, e.value.setWidth 8) ∈ s.shown) : ReadShown start (completeCommand s) later e := by
  refine .inr (.inr (.inr ⟨rfl, ?_⟩))
  have hfinal := hf.shown_value hb _ h
  rwa [(hf.finalByte_of_pendingWords_nil hb hp e.addr).1] at hfinal

/-- Another agent's write leaves a byte among those shown, unless it is the byte written. -/
theorem mem_shown_hostWrite (a : Word) (v : Byte) (hb : s.eng = .busy) {c : Host.Cell} (hc : c ∈ s.shown) :
    c.1 = a.toNat ∨ c ∈ (hostWrite a v s).shown := by
  by_cases hca : c.1 = a.toNat
  · exact .inl hca
  · right
    rw [hostWrite_busy a v s hb]
    change c ∈ if inDispute s a.toNat then s.shown else s.shown.filter (fun c => c.1 != a.toNat)
    split
    · exact hc
    · exact List.mem_filter.mpr ⟨hc, by simpa using hca⟩

/-- A host read returns the byte at acceptance, or one that is from then on among those shown. -/
theorem readShown_hostRead {a : Word} {b : Byte} (hb : s.eng = .busy)
    (ha : (frameRange (operands s)).covers a.toNat = true) :
    s.atStart.read a.toNat = some b ∨ (a.toNat, b) ∈ (showByte a.toNat b s).shown := by
  by_cases hstart : s.atStart.read a.toNat = some b
  · exact .inl hstart
  · exact .inr (mem_shown_showByte.mpr (.inr ⟨rfl, hb, by rw [frameWordOf_of_covers ha]; rfl, hstart⟩))

/-- Every step of a running command keeps what host reads have returned. -/
theorem ReadsShown.step (hf : s.Faithful) (hb : s.eng = .busy) (h : ReadsShown (operands s) s.atStart base s)
    (hstep : BusyCase s t) : ReadsShown (operands s) s.atStart base t := by
  cases hstep with
  | quiet => exact h.of_history_eq hb rfl fun _ _ hc => readShown_of_mem_shown hb hc
  | engine moves draws ha hp =>
    obtain ⟨hpending, rfl⟩ | ⟨work, mem, e, hacc, rfl⟩ :=
      engineAccess_of_performAction (s := { s with moves, draws }) ha hp
    · exact h.of_history_eq hb rfl fun _ _ hc =>
        State.Faithful.readShown_completeCommand (s := { s with moves, draws }) hf.with_rest hb hpending hc
    · refine h.of_history_cons hb (new := e) rfl (fun he => ?_) fun _ _ hc => readShown_of_mem_shown hb hc
      cases hacc <;> cases he
  | hostWrite a v rest =>
    have hkept {c : Host.Cell} (hc : c ∈ s.shown) := mem_shown_hostWrite (s := { s with moves := rest }) a v hb hc
    rw [hostWrite_busy a v { s with moves := rest } hb] at hkept ⊢
    refine h.of_history_cons hb rfl (fun _ hk => by cases hk) fun later e hc => ?_
    obtain haddr | hc := hkept hc
    · exact .inr (.inl ((hostWrote_cons _ _ _).mpr (.inl ⟨rfl, rfl, haddr.symm⟩)))
    · exact readShown_of_mem_shown hb hc
  | hostRead a rest hread =>
    obtain ⟨b, hvalue, rfl⟩ := hostRead_next a { s with moves := rest } t hread
    refine h.of_history_cons hb rfl (fun _ _ ha => ?_) fun later e hc =>
      readShown_of_mem_shown hb (mem_shown_showByte.mpr (.inl hc))
    have hvalue : (b.setWidth 16).setWidth 8 = b := BitVec.setWidth_setWidth_of_le b (by omega)
    obtain hstart | hc := readShown_hostRead (s := { s with moves := rest }) (b := b) hb ha
    · exact .inl (hstart.trans (congrArg some hvalue.symm))
    · exact readShown_of_mem_shown hb (hvalue.symm ▸ hc)

end

end

/-- What a run of a command keeps of a machine that has the invariant when the command is accepted. -/
structure RunShown (t : State) (base : List MemEvent) (s : State) : Prop where
  inv : s.Inv
  faithful : s.Faithful
  same_operands : operands s = operands t
  same_start : s.eng = .busy → s.atStart = t.atStart
  shown : ReadsShown (operands t) t.atStart base s

theorem operands_of_busyCase {s t : State} (hb : s.eng = .busy) (h : BusyCase s t) : operands t = operands s := by
  cases h with
  | quiet => rfl
  | engine moves draws _ hp => exact operands_of_performAction (s := { s with moves, draws }) hp
  | hostWrite a v rest => rw [hostWrite_busy a v { s with moves := rest } hb]; rfl
  | hostRead a rest hread => obtain ⟨_, _, _, rfl, -⟩ := hostRead_fields hread; rfl

theorem atStart_of_busyCase {s t : State} (hb : s.eng = .busy) (h : BusyCase s t) (ht : t.eng = .busy) :
    t.atStart = s.atStart := by
  cases h with
  | quiet => rfl
  | engine moves draws _ hp =>
    obtain ⟨-, rfl⟩ | ⟨_, _, _, rfl⟩ := performAction_fields hp
    · cases ht
    · rfl
  | hostWrite a v rest => rw [hostWrite_busy a v { s with moves := rest } hb]; rfl
  | hostRead a rest hread => obtain ⟨_, _, _, rfl, -⟩ := hostRead_fields hread; rfl

theorem RunShown.step {t s u : State} {base : List MemEvent} (h : RunShown t base s) (hb : s.eng = .busy)
    (hcase : BusyCase s u) (hstep : step s = .next u) : RunShown t base u where
  inv := h.inv.step hstep
  faithful := h.faithful.step h.inv hstep
  same_operands := (operands_of_busyCase hb hcase).trans h.same_operands
  same_start := fun hu => (atStart_of_busyCase hb hcase hu).trans (h.same_start hb)
  shown := by
    have hshown := h.shown
    rw [← h.same_operands, ← h.same_start hb] at hshown ⊢
    exact hshown.step h.faithful hb hcase

/-- Settles O58: of one read by what it can return, of a whole run by what is shown until completion. -/
theorem hostReadDuringCommand : Obligations.HostReadDuringCommand := by
  refine ⟨fun s t a rest hs hf hb hm hstep => ?_, ?_⟩
  · rw [step_cons hm] at hstep
    obtain ⟨b, hvalue, hmem, hblock, hhistory⟩ := hostRead_event hstep
    have hread (hd : inDispute s a.toNat = true) :=
      State.Faithful.hostReadValue_inDispute (s := { s with moves := rest }) hf.with_rest hb hvalue hd
    refine ⟨b, hhistory, hread, fun hd hduty => ?_, fun hd => ?_, hmem, hblock⟩
    · obtain ⟨-, off, ha, -⟩ := (inDispute_iff s a.toNat).mp hd
      rw [← commandByte_of_dutyKept hduty ha]
      exact hread hd
    · rwa [hostReadValue_of_not_inDispute (s := { s with moves := rest }) hd] at hvalue
  · intro f s t u later before new e hs hi hrst hexec hb hrun hidle hu hbefore hagent hkind ha
    have hstart : RunShown t s.history t := by
      obtain ⟨rfl, hchecked⟩ := eq_acceptCommand_of_drawChar hi hexec hb
      exact ⟨inv_acceptCommand hrst hs.mem_wf rfl rfl rfl hchecked, faithful_acceptCommand _, rfl, fun _ => rfl,
        readsShown_of_history_eq rfl⟩
    have hatStart : t.atStart = s.mem := by
      obtain ⟨rfl, -⟩ := eq_acceptCommand_of_drawChar hi hexec hb
      rfl
    have hshown := (racyRun_induct hrun hstart fun x y hb hcase hstep h => h.step hb hcase hstep).shown
    rw [hatStart] at hshown
    obtain h | h | ⟨hbusy, -⟩ | ⟨-, h⟩ := hshown later e new (by rw [hu, hbefore]) hagent hkind ha
    · exact .inl h
    · exact .inr (.inr h)
    · cases hidle.symm.trans hbusy
    · exact .inr (.inl h)

end Sys2Proof.Machine
end

section
/-! SUPPORT. The fields of a data word taken out and put together again, the round trips between instructions and
transactions, and the transactions of the pseudo-instructions. -/

namespace Sys2Proof

/-! ## The fields of a data word (R81, R83) -/

theorem ctrlData_cmd (f : CtrlFields) (cmd : BitVec 4) : (ctrlData f cmd).extractLsb' 0 4 = cmd :=
  BitVec.extractLsb'_append_eq_right

theorem ctrlFieldsOf_ctrlData (f : CtrlFields) (cmd : BitVec 4) : ctrlFieldsOf (ctrlData f cmd) = f := by
  have hreserved : (ctrlData f cmd).extractLsb' 7 25 = f.reserved := by
    simp only [ctrlData]
    repeat rw [BitVec.extractLsb'_append_eq_of_le (by decide)]
    exact BitVec.extractLsb'_eq_self
  rw [ctrlFieldsOf, hreserved]
  simp only [ctrlData, BitVec.getLsbD_append]
  simp

theorem statusFieldsOf_statusData (f : StatusFields) : statusFieldsOf (statusData f) = f := by
  have hignored : (statusData f).extractLsb' 4 28 = f.ignoredHigh := by
    simp only [statusData]
    repeat rw [BitVec.extractLsb'_append_eq_of_le (by decide)]
    exact BitVec.extractLsb'_eq_self
  rw [statusFieldsOf, hignored]
  simp only [statusData, BitVec.getLsbD_append]
  simp

/-- A bit as the field of width 1 at its place. -/
theorem ofBool_getLsbD {w : Nat} (v : BitVec w) (i : Nat) : BitVec.ofBool (v.getLsbD i) = v.extractLsb' i 1 := by
  apply BitVec.eq_of_getLsbD_eq
  intro j hj
  obtain rfl : j = 0 := by omega
  simp

/-- Two fields of a value that adjoin, the lower one from bit 0 on, are the value. -/
theorem fields_append {m n : Nat} (v : BitVec (m + n)) : v.extractLsb' n m ++ v.extractLsb' 0 n = v := by
  rw [BitVec.extractLsb'_append_extractLsb'_eq_extractLsb' (Nat.zero_add n).symm]
  exact BitVec.extractLsb'_eq_self

theorem ctrlData_ctrlFieldsOf (data : Word) : ctrlData (ctrlFieldsOf data) (data.extractLsb' 0 4) = data := by
  simp only [ctrlData, ctrlFieldsOf, ofBool_getLsbD, BitVec.extractLsb'_append_extractLsb'_eq_extractLsb']
  exact BitVec.extractLsb'_eq_self

theorem statusData_statusFieldsOf (data : Word) : statusData (statusFieldsOf data) = data := by
  simp only [statusData, statusFieldsOf, ofBool_getLsbD, BitVec.extractLsb'_append_extractLsb'_eq_extractLsb']
  exact BitVec.extractLsb'_eq_self

/-! ## From an instruction to its transaction and back -/

/-- The row of a CTRL write by its command code (R82). -/
theorem decodeCtrl_ctrlData (f : CtrlFields) (cmd : BitVec 4) :
    decodeCtrl (ctrlData f cmd) =
      if cmd = 0x0 then .nop f
      else if cmd = 0x1 then .drawChar f
      else if cmd < 0x4 then .reservedCmd23 f cmd
      else if cmd < 0x8 then .reservedCmd47 f cmd
      else .reservedCmd8F f cmd := by
  simp only [decodeCtrl, ctrlFieldsOf_ctrlData, ctrlData_cmd]

theorem decodeCtrl_ctrlData_reservedCmd23 {f : CtrlFields} {cmd : BitVec 4}
    (h : (Instr.reservedCmd23 f cmd).wellFormed = true) : decodeCtrl (ctrlData f cmd) = .reservedCmd23 f cmd := by
  simp only [Instr.wellFormed, Bool.or_eq_true, beq_iff_eq] at h
  rw [decodeCtrl_ctrlData, if_neg (by bv_omega), if_neg (by bv_omega), if_pos (by bv_omega)]

theorem decodeCtrl_ctrlData_reservedCmd47 {f : CtrlFields} {cmd : BitVec 4}
    (h : (Instr.reservedCmd47 f cmd).wellFormed = true) : decodeCtrl (ctrlData f cmd) = .reservedCmd47 f cmd := by
  simp only [Instr.wellFormed, Bool.and_eq_true, decide_eq_true_eq] at h
  rw [decodeCtrl_ctrlData, if_neg (by bv_omega), if_neg (by bv_omega), if_neg (by bv_omega), if_pos (by bv_omega)]

theorem decodeCtrl_ctrlData_reservedCmd8F {f : CtrlFields} {cmd : BitVec 4}
    (h : (Instr.reservedCmd8F f cmd).wellFormed = true) : decodeCtrl (ctrlData f cmd) = .reservedCmd8F f cmd := by
  simp only [Instr.wellFormed, decide_eq_true_eq] at h
  rw [decodeCtrl_ctrlData, if_neg (by bv_omega), if_neg (by bv_omega), if_neg (by bv_omega), if_neg (by bv_omega)]

theorem decodeWrite_bmSize (h w : BitVec 16) : decodeWrite .bmSize (h ++ w) = .wrBmSize h w :=
  congrArg₂ Instr.wrBmSize BitVec.extractLsb'_append_eq_left BitVec.extractLsb'_append_eq_right

theorem decodeWrite_phase (d : BitVec 30) (p : BitVec 2) : decodeWrite .phase (d ++ p) = .wrPhase d p :=
  congrArg₂ Instr.wrPhase BitVec.extractLsb'_append_eq_left BitVec.extractLsb'_append_eq_right

theorem decodeWrite_status (f : StatusFields) : decodeWrite .status (statusData f) = .wrStatus f :=
  congrArg Instr.wrStatus (statusFieldsOf_statusData f)

theorem decodeWrite_wrRoAB {slot : RegName} {data : Word} (h : (Instr.wrRoAB slot data).wellFormed = true) :
    decodeWrite slot data = .wrRoAB slot data := by
  simp only [Instr.wellFormed, Bool.or_eq_true, beq_iff_eq] at h
  obtain rfl | rfl := h <;> rfl

theorem decodeWrite_wrRoCF {slot : RegName} {data : Word} (h : (Instr.wrRoCF slot data).wellFormed = true) :
    decodeWrite slot data = .wrRoCF slot data := by
  simp only [Instr.wellFormed, Bool.or_eq_true, beq_iff_eq] at h
  obtain ((rfl | rfl) | rfl) | rfl := h <;> rfl

theorem decodeTxn_encodeTxn {i : Instr} (h : i.wellFormed = true) : decodeTxn (encodeTxn i) = i := by
  cases i <;> simp only [encodeTxn, decodeTxn_writeTxn, decodeTxn_readTxn]
  case nop f => exact decodeCtrl_ctrlData f 0x0
  case drawChar f => exact decodeCtrl_ctrlData f 0x1
  case reservedCmd23 => exact decodeCtrl_ctrlData_reservedCmd23 h
  case reservedCmd47 => exact decodeCtrl_ctrlData_reservedCmd47 h
  case reservedCmd8F => exact decodeCtrl_ctrlData_reservedCmd8F h
  case wrStatus f => exact decodeWrite_status f
  case wrBmSize height width => exact decodeWrite_bmSize height width
  case wrPhase discarded phase => exact decodeWrite_phase discarded phase
  case wrRoAB => exact decodeWrite_wrRoAB h
  case wrRoCF => exact decodeWrite_wrRoCF h
  all_goals rfl

/-! ## From a transaction to its instruction and back -/

theorem regIndexOf_regNameOf : ∀ index : BitVec 4, regIndexOf (regNameOf index) = index := by decide

theorem encodeTxn_decodeCtrl_ctrlData (f : CtrlFields) (cmd : BitVec 4) :
    encodeTxn (decodeCtrl (ctrlData f cmd)) = writeTxn .ctrl (ctrlData f cmd) := by
  rw [decodeCtrl_ctrlData]
  split_ifs with hnop hdraw
  · rw [hnop]; rfl
  · rw [hdraw]; rfl
  all_goals rfl

theorem encodeTxn_decodeCtrl (data : Word) : encodeTxn (decodeCtrl data) = writeTxn .ctrl data := by
  rw [← ctrlData_ctrlFieldsOf data]
  exact encodeTxn_decodeCtrl_ctrlData _ _

/-- Every write is the encoding of what it decodes to. -/
theorem encodeTxn_decodeWrite (slot : RegName) (data : Word) :
    encodeTxn (decodeWrite slot data) = writeTxn slot data := by
  cases slot with
  | ctrl => exact encodeTxn_decodeCtrl data
  | status => exact congrArg (writeTxn .status) (statusData_statusFieldsOf data)
  | bmSize => exact congrArg (writeTxn .bmSize) (fields_append (m := 16) (n := 16) data)
  | phase => exact congrArg (writeTxn .phase) (fields_append (m := 30) (n := 2) data)
  | _ => rfl

/-- A transaction of kind 1 is the write of its data to the slot at its index (R80). -/
theorem writeTxn_of_kind {t : Txn} (h : t.getLsbD 36 = true) :
    writeTxn (regNameOf (t.extractLsb' 32 4)) (t.extractLsb' 0 32) = t := by
  have hkind : 1#1 = t.extractLsb' 36 1 := by rw [← ofBool_getLsbD, h]; rfl
  simp only [writeTxn, regIndexOf_regNameOf, hkind, BitVec.extractLsb'_append_extractLsb'_eq_extractLsb']
  exact BitVec.extractLsb'_eq_self

end Sys2Proof

namespace Sys2Proof.Machine

/-- Settles O3: the bytes give back the transaction, and each row's fields are taken out as they were put in. -/
theorem decodeEncodeRoundTrip : Obligations.DecodeEncodeRoundTrip := by
  intro i hi
  rw [encode, decode_txnBytes, decodeTxn_encodeTxn hi]

/-- Settles O4, a write by its slot and data, a read by its slot alone. -/
theorem everyTransactionDecodes : Obligations.EveryTransactionDecodes := by
  refine fun t => ⟨decode_txnBytes t, decodeTxn_wellFormed t, fun hwrite => ?_, fun hread => ?_⟩
  · rw [decodeTxn, if_pos hwrite, encodeTxn_decodeWrite, writeTxn_of_kind hwrite]
  · rw [decodeTxn, if_neg (ne_true_of_eq_false hread)]; rfl

/-- Settles O2, each transaction by evaluation. -/
theorem specTransactionsDecode : Obligations.SpecTransactionsDecode := by
  unfold Obligations.SpecTransactionsDecode
  decide

/-! ## The host assembly (R94, R95) -/

/-- A `wr` line is one transaction, the write of its value mod 2^32 (R93). -/
theorem map_decodeTxn_assembleLine_wr (n : Nat) (reg : RegName) (value : Int) :
    (assembleLine n (.wr reg value)).map decodeTxn = [decodeWrite reg (BitVec.ofInt 32 value)] := by
  simp only [assembleLine, List.map_cons, List.map_nil, decodeTxn_writeTxn]

theorem ofInt_toNat (v : Word) : BitVec.ofInt 32 v.toNat = v := by
  rw [BitVec.ofInt_natCast, BitVec.ofNat_toNat, BitVec.setWidth_eq]

/-- Settles O7: every line decodes as its write or as its reads. -/
theorem assemblyEncodesItsTransactions : Obligations.AssemblyEncodesItsTransactions := by
  have hctrl (cmd : BitVec 4) (irq fast bc : Bool) :
      decodeWrite .ctrl (asmCtrlWord cmd irq fast bc)
        = decodeCtrl (ctrlData { reserved := 0, byteClip := bc, fast := fast, irqEn := irq } cmd) := rfl
  refine ⟨fun irq fast bc => ⟨?_, ?_⟩, ?_, fun n => ?_, fun fb len bm xo yo ph w h => ?_⟩
  all_goals
    simp only [expandPseudo, List.flatMap_cons, List.flatMap_nil, List.append_nil, List.map_append,
      map_decodeTxn_assembleLine_wr, ofInt_toNat, hctrl, decodeCtrl_ctrlData, decodeWrite_bmSize]
  · rfl
  · rfl
  · rfl
  · simp only [assembleLine, List.map_replicate, decodeTxn_readTxn]
  · rfl

end Sys2Proof.Machine
end

section
/-! SUPPORT. The register transactions (40_control.md R96 to R105): what a guarded write does in each engine state,
what the acknowledge leaves, and the words of CTRL and STATUS as sums of their fields. -/

namespace Sys2Proof.Machine

section
variable {s : State}

/-! ## Guarded writes (R96, R97) -/

theorem operandWrite_idle (stored : State) (hi : s.eng = .idle) : operandWrite stored s = .next stored := by
  simp only [operandWrite, hi]

theorem operandWrite_busy (stored : State) (hb : s.eng = .busy) : operandWrite stored s = .next (setWign s) := by
  simp only [operandWrite, hb]

theorem ctrlWrite_idle (f : CtrlFields) (command : State → Host.Outcome State Fault Refusal) (hi : s.eng = .idle) :
    ctrlWrite f command s = command (storeCtrl f s) := by
  simp only [ctrlWrite, hi]

theorem ctrlWrite_busy (f : CtrlFields) (command : State → Host.Outcome State Fault Refusal) (hb : s.eng = .busy) :
    ctrlWrite f command s = .next (setWign s) := by
  simp only [ctrlWrite, hb]

/-- Every guarded write is a CTRL write or an operand write, and the busy engine ignores both. -/
theorem exec_guardedWrite_busy {i : Instr} (hb : s.eng = .busy) (hguarded : isGuardedWrite i = true) :
    exec i s = .next (setWign s) := by
  cases i with
  | drawChar f => exact ctrlWrite_busy f (fun t => drawCharStart (commandStart t)) hb
  | nop | reservedCmd23 | reservedCmd47 | reservedCmd8F => exact ctrlWrite_busy _ _ hb
  | wrFbBase | wrFbLen | wrBmBase | wrBmSize | wrXOffset | wrYOffset | wrPhase => exact operandWrite_busy _ hb
  | wrStatus | wrRo9 | wrRoAB | wrRoCF | rd => cases hguarded

theorem exec_nop_idle (f : CtrlFields) (hi : s.eng = .idle) : exec (.nop f) s = .next (storeCtrl f s) :=
  ctrlWrite_idle f .next hi

/-! ## The acknowledge (R104) -/

/-- While busy DONE and ERR are 0 already, and an acknowledge is left with WIGN alone. -/
theorem acknowledge_busy (f : StatusFields) (hs : s.Inv) (hb : s.eng = .busy) :
    acknowledge f s = { s with wign := s.wign && !f.clrWign } := by
  obtain ⟨hdone, herr⟩ := hs.busy_flags hb
  have herrCode : s.errCode = .none := hs.errCode_iff.mpr herr
  simp only [acknowledge, hdone, herr, herrCode, Bool.false_and, ite_self]

theorem and_not_eq_ite (flag clear : Bool) : (flag && !clear) = if clear then false else flag := by
  cases clear <;> simp

end

/-- Settles O14: an operand write while idle answers the stored state. -/
theorem operandWritesStore : Obligations.OperandWritesStore := by
  intro s v hi
  have hsize : exec (.wrBmSize (v.extractLsb' 16 16) (v.extractLsb' 0 16)) s = .next { s with bmSize := v } := by
    refine (operandWrite_idle _ hi).trans ?_
    rw [fields_append (m := 16) (n := 16) v]
  exact ⟨operandWrite_idle _ hi, operandWrite_idle _ hi, operandWrite_idle _ hi, hsize, operandWrite_idle _ hi,
    operandWrite_idle _ hi, operandWrite_idle _ hi⟩

/-- Settles O15: a guarded write is ignored, and the acknowledge is served as ever. -/
theorem busyWritesIgnored : Obligations.BusyWritesIgnored := fun s hb =>
  ⟨fun _ hguarded => exec_guardedWrite_busy hb hguarded, fun f => ⟨acknowledge f s, rfl, acknowledge_wign f s, hb⟩⟩

/-- Settles O16: NOP is the field stores of a CTRL write. -/
theorem nopStoresFields : Obligations.NopStoresFields := by
  refine fun f s => ⟨exec_nop_idle f, fun hi t h => ?_, fun hb => exec_guardedWrite_busy hb rfl⟩
  rw [exec_nop_idle f hi] at h
  cases h
  rw [State.irq, storeCtrl_done, storeCtrl_irqEn]

/-- Settles O18: each flag and its clear bit, and while busy WIGN alone. -/
theorem statusWriteAcknowledges : Obligations.StatusWriteAcknowledges := by
  refine fun f s => ⟨?_, fun hs hb => ?_⟩
  · simp only [← and_not_eq_ite]; rfl
  · rw [← and_not_eq_ite, ← acknowledge_busy f hs hb]; rfl

/-- Settles O19: the read-only and the reserved slots answer the state they are given, in either engine state. -/
theorem readOnlyWritesIgnored : Obligations.ReadOnlyWritesIgnored := fun _ _ =>
  ⟨rfl, fun _ => rfl, fun _ => rfl⟩

/-! ## The words of CTRL and STATUS (R84, R98) -/

theorem toNat_append_eq_add {m n : Nat} (v : BitVec m) (w : BitVec n) :
    (v ++ w).toNat = v.toNat * 2 ^ n + w.toNat := by
  rw [BitVec.toNat_append, ← Nat.shiftLeft_add_eq_or_of_lt w.isLt, Nat.shiftLeft_eq]

theorem eq_ofNat_of_toNat_eq {w n : Nat} {v : BitVec w} (h : v.toNat = n) : v = BitVec.ofNat w n := by
  rw [← h, BitVec.ofNat_toNat, BitVec.setWidth_eq]

theorem State.toNat_busy (s : State) : s.busy.toNat = if s.eng = .busy then 1 else 0 := by
  obtain h | h := eng_idle_or_busy s <;> simp [State.busy, h]

theorem ctrlWord_ofNat (s : State) :
    ctrlWord s = BitVec.ofNat 32 (64 * s.byteClip.toNat + 32 * s.fast.toNat + 16 * s.irqEn.toNat) := by
  apply eq_ofNat_of_toNat_eq
  simp only [ctrlWord, toNat_append_eq_add, BitVec.toNat_ofBool, BitVec.toNat_ofNat]
  omega

theorem statusWord_ofNat (s : State) :
    statusWord s = BitVec.ofNat 32
      (16 * (errCodeBits s.errCode).toNat + 8 * s.wign.toNat + 4 * s.err.toNat + 2 * s.done.toNat
        + (if s.eng = .busy then 1 else 0)) := by
  apply eq_ofNat_of_toNat_eq
  simp only [statusWord, toNat_append_eq_add, BitVec.toNat_ofBool, BitVec.toNat_ofNat, State.toNat_busy]
  omega

/-! ## Reserved commands (R102) -/

section
variable {s : State}

/-- The record that a reserved command leaves: its fields, no dropped pixels, and ILLEGAL_CMD. -/
def illegalRecord (f : CtrlFields) (s : State) : State :=
  raiseCmdError .illegalCmd (commandStart (storeCtrl f s))

theorem exec_reserved_idle {f : CtrlFields} {cmd : BitVec 4} {i : Instr} (hi : s.eng = .idle)
    (hreserved : i = .reservedCmd23 f cmd ∨ i = .reservedCmd47 f cmd ∨ i = .reservedCmd8F f cmd) :
    exec i s = .next (illegalRecord f s) := by
  obtain rfl | rfl | rfl := hreserved <;> exact ctrlWrite_idle f reservedCommand hi

/-- DONE, ERR and ILLEGAL_CMD, all else of STATUS 0. -/
theorem statusWord_illegalRecord (f : CtrlFields) (hi : s.eng = .idle) (hwign : s.wign = false) :
    statusWord (illegalRecord f s) = 0x00000016 := by
  rw [statusWord_ofNat]
  simp [illegalRecord, hi, hwign, errCodeBits]

end

/-- Settles O17: the three rows of reserved commands answer the same record. -/
theorem reservedCommandsRejected : Obligations.ReservedCommandsRejected := by
  refine fun f cmd s i hi hreserved => ⟨exec_reserved_idle hi hreserved, fun hwign t h => ?_⟩
  rw [exec_reserved_idle hi hreserved] at h
  cases h
  exact statusWord_illegalRecord f hi hwign

/-! ## Reads (R98, R183) -/

section
variable {s : State}

theorem readDraws_eq_true_iff {r : RegName} : readDraws r s = true ↔ r = .dropCount ∧ s.eng = .busy := by
  simp only [readDraws, State.busy, Bool.and_eq_true, beq_iff_eq]

theorem regRead_dropCount_idle (hi : s.eng = .idle) : regRead .dropCount s = s.dropCount := by
  simp only [regRead, hi]

theorem regRead_dropCount_busy (hb : s.eng = .busy) :
    regRead .dropCount s = Config.dropCountWhileBusy s.draws := by
  simp only [regRead, hb]

/-- A read that draws no free value leaves all but the read data. -/
theorem readRegister_of_not_draws {r : RegName} (h : ¬ (r = .dropCount ∧ s.eng = .busy)) :
    readRegister r s = { s with regData := regRead r s } := by
  simp only [readRegister, mt readDraws_eq_true_iff.mp h, Bool.false_eq_true, if_false]

theorem readRegister_dropCount_busy (hb : s.eng = .busy) :
    readRegister .dropCount s = { s with regData := Config.dropCountWhileBusy s.draws, draws := s.draws + 1 } := by
  simp only [readRegister, readDraws_eq_true_iff.mpr ⟨rfl, hb⟩, regRead_dropCount_busy hb, if_true]

end

/-- Settles O20: the read data slot by slot, and DROP_COUNT while busy by itself. -/
theorem readsReturnTheirSlot : Obligations.ReadsReturnTheirSlot := by
  refine ⟨fun s hb => congrArg _ (readRegister_dropCount_busy hb), fun s r hr => ?_⟩
  refine (congrArg Host.Outcome.next (readRegister_of_not_draws hr)).trans ?_
  congr 2
  cases r with
  | ctrl => exact ctrlWord_ofNat s
  | status => exact statusWord_ofNat s
  | dropCount => exact regRead_dropCount_idle ((eng_idle_or_busy s).resolve_right fun hb => hr ⟨rfl, hb⟩)
  | phase => exact (BitVec.ofNat_toNat 32 s.phase).symm
  | geomSize => exact geomSizeWord_eq
  | geomMargin => exact geomMarginWord_eq
  | geomStride => exact geomStrideWord_eq
  | geomPack => exact geomPackWord_eq
  | fbBase | fbLen | bmBase | bmSize | xOffset | yOffset | rsvd38 | rsvd3C => rfl

end Sys2Proof.Machine
end

section
/-! SUPPORT. Where the pixels of a command land, which of them pass the clips, and which the guard drops
(41_draw_char.md R115 to R128, R134, R136, R144). -/

namespace Sys2Proof.Machine

/-! ## Word offset and lane (R123, R125) -/

section
variable {o : Operands} {p q : Pixel}

theorem pixelLane_eq (o : Operands) (p : Pixel) : ((pixelLane o p).val : Int) = (8 + ((p.x : Int) + o.xo)) % 8 := by
  simp only [pixelLane, laneIndex, bufferX, Fin.val_ofNat, Config.leftMargin, Config.packedPixels]
  omega

/-- The word offset of a pixel that passes the clips, which takes neither of the two roundings to natural numbers. -/
theorem pixelOffset_eq (hp : p ∈ keptPixels o) :
    (pixelOffset o p : Int) = (8 + (1872 - ((p.y : Int) + o.yo) - 1)) * 1408 + (8 + ((p.x : Int) + o.xo)) / 8 * 2 := by
  obtain ⟨-, -, hrow, hcolumn⟩ := (mem_keptPixels o p).mp hp
  simp only [pixelOffset, wordOffset, bufferRow, bufferYPos, bufferX, Config.topMargin, Config.leftMargin,
    Config.bufHeight, Config.stride, Config.packedPixels, Config.wordBytes]
  omega

/-- The smallest word offset is that of row 0 and column 16 of the buffer with its margins, the largest that of row
1879 and column 1411. -/
theorem pixelOffset_bounds (hp : p ∈ keptPixels o) : 11268 ≤ pixelOffset o p ∧ pixelOffset o p ≤ 2645984 := by
  have hoff := pixelOffset_eq hp
  obtain ⟨-, -, hrow, hcolumn⟩ := (mem_keptPixels o p).mp hp
  omega

/-- A row of words is shorter than STRIDE, so word and lane give the row and the column back (R136). -/
theorem pixel_eq_of_word_lane (hp : p ∈ keptPixels o) (hq : q ∈ keptPixels o)
    (hoff : pixelOffset o p = pixelOffset o q) (hlane : pixelLane o p = pixelLane o q) : p = q := by
  have hpo := pixelOffset_eq hp
  have hqo := pixelOffset_eq hq
  have hpl := pixelLane_eq o p
  have hql := pixelLane_eq o q
  rw [hoff] at hpo
  rw [hlane] at hpl
  obtain ⟨-, -, -, hpx⟩ := (mem_keptPixels o p).mp hp
  obtain ⟨-, -, -, hqx⟩ := (mem_keptPixels o q).mp hq
  have hy : p.y = q.y := by omega
  have hx : p.x = q.x := by omega
  obtain ⟨px, py⟩ := p
  obtain ⟨qx, qy⟩ := q
  exact Pixel.mk.injEq .. ▸ ⟨hx, hy⟩

theorem opaqueAt_iff (m : Memory) (a : Nat) : opaqueAt m a = true ↔ ∃ b, m.read a = some b ∧ b ≠ 0 := by
  unfold opaqueAt
  cases m.read a <;> simp

theorem mem_landedPixels (o : Operands) (m : Memory) (p : Pixel) :
    p ∈ landedPixels o m ↔ p ∈ keptPixels o ∧ opaqueAt m (bitmapAddr o p) = true := List.mem_filter

theorem keptPixel_of_landed {m : Memory} (h : p ∈ landedPixels o m) : p ∈ keptPixels o :=
  ((mem_landedPixels o m p).mp h).1

end

/-- Settles O38: the formulas of the model are those of the spec where a pixel passes the clips. -/
theorem pixelLandingArithmetic : Obligations.PixelLandingArithmetic := by
  refine ⟨fun s p => rfl, fun o m p => ?_, fun o p hp => ?_⟩
  · rw [mem_landedPixels, opaqueAt_iff]; rfl
  · exact ⟨pixelOffset_eq hp, pixelLane_eq o p, pixelOffset_even o p, pixelOffset_bounds hp⟩

/-- Settles O39: word and lane determine the pixel. -/
theorem distinctPixelsDistinctLanes : Obligations.DistinctPixelsDistinctLanes :=
  fun _ _ _ hp hq hne ⟨hoff, hlane⟩ => hne (pixel_eq_of_word_lane hp hq hoff hlane)

/-- Settles O40: the flip turns the next row into the one a stride lower. -/
theorem nextRowOneStrideBefore : Obligations.NextRowOneStrideBefore := by
  intro o x y hrow hnext
  have hoff := pixelOffset_eq hrow
  have hoff' := pixelOffset_eq hnext
  simp only [Nat.cast_add, Nat.cast_one] at hoff hoff'
  exact ⟨by omega, rfl⟩

/-! ## The clips (R116, R119, R121) -/

section
variable {o : Operands}

/-- No pixel occurs twice among those of the kept rows that the column clip keeps, or skips. -/
theorem rowPixels_nodup (o : Operands) (keep : Bool) : ((keptRows o).flatMap (rowPixels o keep)).Nodup := by
  refine List.nodup_flatMap.mpr ⟨fun y _ => ?_, (List.nodup_range.filter _).imp fun hab p hpa hpb => ?_⟩
  · exact (List.nodup_range.filter _).map fun a b h => by simpa using h
  · obtain ⟨rfl, -⟩ := (mem_rowPixels o keep _ p).mp hpa
    obtain ⟨hy, -⟩ := (mem_rowPixels o keep _ p).mp hpb
    exact hab hy

theorem clippedPixels_nodup (o : Operands) : (clippedPixels o).Nodup := rowPixels_nodup o false

/-- A bitmap has at most W * H pixels that pass the clips. -/
theorem length_keptPixels_le (o : Operands) : (keptPixels o).length ≤ o.h * o.w := by
  have hrow (y : Nat) : (rowPixels o true y).length ≤ o.w := by
    rw [rowPixels, List.length_map]
    exact (List.length_filter_le _ _).trans (List.length_range).le
  have hrows : (keptRows o).length ≤ o.h := (List.length_filter_le _ _).trans (List.length_range).le
  calc (keptPixels o).length = ((keptRows o).map fun y => (rowPixels o true y).length).sum := List.length_flatMap
    _ ≤ (keptRows o).length * o.w := by
        simpa using List.sum_le_card_nsmul ((keptRows o).map fun y => (rowPixels o true y).length) o.w
          (by simpa using fun y _ => hrow y)
    _ ≤ o.h * o.w := Nat.mul_le_mul_right _ hrows

/-- An offset at an end of its range clips every pixel: a bitmap has fewer than 65536 rows and columns (R144). -/
theorem keptPixels_eq_nil_of_extreme {s : State}
    (h : s.xOffset = 0x7FFFFFFF ∨ s.xOffset = 0x80000000 ∨ s.yOffset = 0x7FFFFFFF ∨ s.yOffset = 0x80000000) :
    keptPixels (operands s) = [] := by
  have hmax : (0x7FFFFFFF : Word).toInt = 2147483647 := by decide
  have hmin : (0x80000000 : Word).toInt = -2147483648 := by decide
  refine List.eq_nil_iff_forall_not_mem.mpr fun p hp => ?_
  obtain ⟨hx, hy, hrow, hcolumn⟩ := (mem_keptPixels _ p).mp hp
  have hw : p.x < 65536 := hx.trans (BitVec.isLt _)
  have hh : p.y < 65536 := hy.trans (BitVec.isLt _)
  simp only [operands] at hrow hcolumn
  obtain h | h | h | h := h <;> simp only [h, hmax, hmin] at hrow hcolumn <;> omega

/-! ## The guard (R127, R128, R134) -/

theorem pixelDropped_eq_false {p : Pixel} :
    pixelDropped o p = false ↔
      pixelOffset o p + 1 < o.fbLen ∨
        (o.byteClip = true ∧ pixelOffset o p + 1 = o.fbLen ∧ 4 ≤ (pixelLane o p).val) := by
  rw [pixelDropped_eq_false_iff]
  obtain ⟨hfate, hlen⟩ | ⟨hfate, hclip, hlen⟩ | ⟨hfate, hlen, hclip⟩ := wordFate_cases o (pixelOffset o p) <;>
    rw [hfate]
  · simp [writtenLanes, hlen]
  · simp [writtenLanes, laneInFirstByte, hclip, ← hlen]
  · have hnot : ¬ (o.byteClip = true ∧ pixelOffset o p + 1 = o.fbLen) := fun ⟨hc, he⟩ => by
      simp only [hc, Bool.true_eq_false, false_or] at hclip
      omega
    simp [writtenLanes, hlen, ← and_assoc, hnot]

theorem mem_wordAddrs {off a : Nat} :
    a ∈ wordAddrs o off ↔
      (off + 1 < o.fbLen ∧ (a = o.fbBase + off ∨ a = o.fbBase + off + 1)) ∨
        (o.byteClip = true ∧ off + 1 = o.fbLen ∧ a = o.fbBase + off) := by
  rw [wordAddrs]
  obtain ⟨hfate, hlen⟩ | ⟨hfate, hclip, hlen⟩ | ⟨hfate, hlen, hclip⟩ := wordFate_cases o off <;> rw [hfate]
  · simp [hlen, hlen.ne]
  · simp [hclip, ← hlen]
  · have hnot : ¬ (o.byteClip = true ∧ off + 1 = o.fbLen) := fun ⟨hc, he⟩ => by
      simp only [hc, Bool.true_eq_false, false_or] at hclip
      omega
    simp [hlen, ← and_assoc, hnot]

/-- The largest word offset is 2645984: a frame that ends behind that word drops nothing. -/
theorem drawDropCount_eq_zero (m : Memory) (hlen : 2645986 ≤ o.fbLen) : drawDropCount o m = 0 := by
  refine List.length_eq_zero_iff.mpr (List.filter_eq_nil_iff.mpr fun p hp => ?_)
  have hbound := pixelOffset_bounds (keptPixel_of_landed hp)
  rw [pixelDropped_eq_false.mpr (.inl (by omega))]
  exact Bool.false_ne_true

/-- DROP_COUNT counts landed pixels, of which there are at most as many as bitmap bytes. -/
theorem drawDropCount_le (s : State) : drawDropCount (operands s) s.mem ≤ 65535 * 65535 := by
  have hw : (operands s).w ≤ 65535 := Nat.le_of_lt_succ (BitVec.isLt _)
  have hh : (operands s).h ≤ 65535 := Nat.le_of_lt_succ (BitVec.isLt _)
  calc drawDropCount (operands s) s.mem
      ≤ (landedPixels (operands s) s.mem).length := List.length_filter_le _ _
    _ ≤ (keptPixels (operands s)).length := List.length_filter_le _ _
    _ ≤ (operands s).h * (operands s).w := length_keptPixels_le _
    _ ≤ 65535 * 65535 := Nat.mul_le_mul hh hw

end

/-- Settles O43: the clips, the guard and the counts, each by its lemma. -/
theorem clippingAndDropCorners : Obligations.ClippingAndDropCorners := by
  refine ⟨fun s p => ⟨?_, ?_, keptPixels_nodup _, clippedPixels_nodup _⟩,
    fun o p _ => pixelDropped_eq_false, fun o off a => mem_wordAddrs, fun o m => ?_,
    fun o m => drawDropCount_eq_zero m, fun s => keptPixels_eq_nil_of_extreme, drawDropCount_le⟩
  · rw [mem_keptPixels, ← and_assoc]; rfl
  · rw [mem_clippedPixels, ← and_assoc]; rfl
  · exact (List.length_eq_length_filter_add (pixelDropped o)).symm

end Sys2Proof.Machine
end

section
/-! SUPPORT. Lanes as bits: what SetLane, the byte update and the lane form leave in each bit of a word
(41_draw_char.md R126 to R130). -/

namespace Sys2Proof.Machine

/-! ## A field of two bits -/

/-- The two bits of a value from bit `n` on replaced by a phase: what SetLane does in a word and in a byte. -/
def setField {w : Nat} (v : BitVec w) (n : Nat) (p : BitVec 2) : BitVec w :=
  (v &&& ~~~(3#w <<< n)) ||| (p.setWidth w <<< n)

section
variable {w n k : Nat}

theorem getLsbD_three_shiftLeft (hk : k < w) : (3#w <<< n).getLsbD k = decide (k = n ∨ k = n + 1) := by
  simp only [BitVec.getLsbD_shiftLeft, BitVec.getLsbD_ofNat, hk, decide_true, Bool.true_and]
  by_cases hn : k < n
  · simp [hn, show ¬ (k = n ∨ k = n + 1) by omega]
  · obtain ⟨j, rfl⟩ := Nat.exists_eq_add_of_le (Nat.le_of_not_lt hn)
    have htest : Nat.testBit 3 j = decide (j = 0 ∨ j = 1) := by
      match j with
      | 0 | 1 => rfl
      | j + 2 => simp [Nat.testBit_add]
    have hj : j < w := by omega
    simp [htest, hj]

theorem getLsbD_setField (v : BitVec w) (p : BitVec 2) (hk : k < w) :
    (setField v n p).getLsbD k =
      if k = n then p.getLsbD 0 else if k = n + 1 then p.getLsbD 1 else v.getLsbD k := by
  rw [setField, BitVec.getLsbD_or, BitVec.getLsbD_and, BitVec.getLsbD_not, getLsbD_three_shiftLeft hk,
    BitVec.getLsbD_shiftLeft, BitVec.getLsbD_setWidth]
  by_cases h0 : k = n
  · subst h0; simp [hk, Nat.zero_lt_of_lt hk]
  by_cases h1 : k = n + 1
  · subst h1; simp [hk, Nat.lt_of_le_of_lt (Nat.le_add_left 1 n) hk]
  by_cases hn : k < n
  · simp [h0, h1, hk, hn]
  · have hp : p.getLsbD (k - n) = false := BitVec.getLsbD_of_ge _ _ (by omega)
    simp [h0, h1, hk, hp]

/-- A field that begins at an even bit holds the bits of that pair of bits. -/
theorem getLsbD_setField_even (v : BitVec w) (p : BitVec 2) (hn : n % 2 = 0) (hk : k < w) :
    (setField v n p).getLsbD k = if k / 2 * 2 = n then p.getLsbD (k % 2) else v.getLsbD k := by
  rw [getLsbD_setField v p hk]
  by_cases h0 : k = n
  · rw [if_pos h0, if_pos (by omega), show k % 2 = 0 by omega]
  by_cases h1 : k = n + 1
  · rw [if_neg h0, if_pos h1, if_pos (by omega), show k % 2 = 1 by omega]
  · rw [if_neg h0, if_neg h1, if_neg (by omega)]

end

/-! ## Lanes of a word and of its byte (R126, R128, R129) -/

section
variable {k : Nat}

theorem setLane_eq_setField (v : PixelWord) (i : Fin 8) (p : BitVec 2) :
    setLane v i p = setField v (14 - 2 * i.val) p := by
  rw [setLane, laneShift_eq]; rfl

theorem setClipLane_eq_setField (c : Byte) (i : Fin 8) (p : BitVec 2) :
    setClipLane c i p = setField c ((14 - 2 * i.val) % 8) p := by
  rw [setClipLane, laneShift_eq]; rfl

/-- The lane that holds a bit of a word. -/
def laneAt (k : Nat) : Fin 8 := Fin.ofNat 8 (7 - k / 2)

theorem eq_laneAt_iff (i : Fin 8) (k : Nat) : i = laneAt k ↔ i.val = 7 - k / 2 := by
  rw [Fin.ext_iff, laneAt, Fin.val_ofNat, Nat.mod_eq_of_lt (by omega)]

theorem getLsbD_setLane (v : PixelWord) (i : Fin 8) (p : BitVec 2) (hk : k < 16) :
    (setLane v i p).getLsbD k = if laneAt k = i then p.getLsbD (k % 2) else v.getLsbD k := by
  rw [setLane_eq_setField, getLsbD_setField_even v p (by omega) hk]
  exact if_congr (by rw [eq_comm, eq_comm (a := laneAt k), eq_laneAt_iff]; omega) rfl rfl

theorem getLsbD_setClipLane (c : Byte) (i : Fin 8) (p : BitVec 2) (hk : k < 8) :
    (setClipLane c i p).getLsbD k = if i.val % 4 = 3 - k / 2 then p.getLsbD (k % 2) else c.getLsbD k := by
  rw [setClipLane_eq_setField, getLsbD_setField_even c p (by omega) hk]
  exact if_congr (by omega) rfl rfl

end

/-- Settles O36: SetLane and the byte update replace the field of their lane. -/
theorem setLaneChangesOnlyItsLane : Obligations.SetLaneChangesOnlyItsLane := by
  refine ⟨fun v i p k hk => ?_, fun c i p k hk => ?_⟩
  · rw [setLane_eq_setField, getLsbD_setField v p hk, show 15 - 2 * i.val = 14 - 2 * i.val + 1 by omega]
  · rw [setClipLane_eq_setField, getLsbD_setField c p hk]

/-! ## Sets of lanes (R130) -/

section
variable {k : Nat}

/-- Each bit of a word whose lanes are set holds the phase's bit where its lane is among them. -/
theorem getLsbD_setLanes (v : PixelWord) (lanes : List (Fin 8)) (p : BitVec 2) (hk : k < 16) :
    (setLanes v lanes p).getLsbD k = if laneAt k ∈ lanes then p.getLsbD (k % 2) else v.getLsbD k := by
  induction lanes generalizing v with
  | nil => simp
  | cons i lanes ih =>
    rw [setLanes_cons, ih, getLsbD_setLane v i p hk]
    by_cases hi : laneAt k = i <;> by_cases hl : laneAt k ∈ lanes <;> simp [hi, hl]

theorem getLsbD_setClipLanes (c : Byte) (lanes : List (Fin 8)) (p : BitVec 2) (hk : k < 8) :
    (setClipLanes c lanes p).getLsbD k =
      if ∃ i ∈ lanes, i.val % 4 = 3 - k / 2 then p.getLsbD (k % 2) else c.getLsbD k := by
  induction lanes generalizing c with
  | nil => simp
  | cons i lanes ih =>
    rw [setClipLanes_cons, ih, getLsbD_setClipLane c i p hk]
    simp only [List.exists_mem_cons_iff]
    by_cases hi : i.val % 4 = 3 - k / 2 <;> by_cases hl : ∃ j ∈ lanes, j.val % 4 = 3 - k / 2 <;> simp [hi, hl]

theorem mem_writtenLanes_little (lanes : List (Fin 8)) (i : Fin 8) :
    i ∈ writtenLanes .little .firstByte lanes ↔ i ∈ lanes ∧ 4 ≤ i.val := by
  simp [writtenLanes, laneInFirstByte]

theorem mem_writtenLanes_big (lanes : List (Fin 8)) (i : Fin 8) :
    i ∈ writtenLanes .big .firstByte lanes ↔ i ∈ lanes ∧ i.val ≤ 3 := by
  simp [writtenLanes, laneInFirstByte]

/-- A bit of the low byte and its lane: the only one of lanes 4 to 7 with that place in the byte. -/
theorem exists_lane_of_lowByte {lanes : List (Fin 8)} (hlanes : ∀ i ∈ lanes, 4 ≤ i.val) (hk : k < 8) :
    (∃ i ∈ lanes, i.val % 4 = 3 - k / 2) ↔ laneAt k ∈ lanes := by
  have hlane (i : Fin 8) (hi : i ∈ lanes) : i.val % 4 = 3 - k / 2 ↔ i = laneAt k := by
    have := hlanes i hi
    rw [eq_laneAt_iff]
    omega
  exact ⟨fun ⟨i, hi, h⟩ => (hlane i hi).mp h ▸ hi, fun h => ⟨_, h, (hlane _ h).mpr rfl⟩⟩

/-- A bit of the high byte and its lane: the only one of lanes 0 to 3 with that place in the byte. -/
theorem exists_lane_of_highByte {lanes : List (Fin 8)} (hlanes : ∀ i ∈ lanes, i.val ≤ 3) (hk : k < 8) :
    (∃ i ∈ lanes, i.val % 4 = 3 - k / 2) ↔ laneAt (8 + k) ∈ lanes := by
  have hlane (i : Fin 8) (hi : i ∈ lanes) : i.val % 4 = 3 - k / 2 ↔ i = laneAt (8 + k) := by
    have := hlanes i hi
    rw [eq_laneAt_iff]
    omega
  exact ⟨fun ⟨i, hi, h⟩ => (hlane i hi).mp h ▸ hi, fun h => ⟨_, h, (hlane _ h).mpr rfl⟩⟩

/-- The byte update is the word update, seen in the low byte, for lanes 4 to 7. -/
theorem setClipLanes_lowByte (v : PixelWord) {lanes others : List (Fin 8)} (p : BitVec 2)
    (hlanes : ∀ i ∈ lanes, 4 ≤ i.val) (h : ∀ i, i ∈ others ↔ i ∈ lanes) :
    setClipLanes (v.extractLsb' 0 8) lanes p = (setLanes v others p).extractLsb' 0 8 := by
  refine BitVec.eq_of_getLsbD_eq fun k hk => ?_
  rw [getLsbD_setClipLanes _ _ _ hk, BitVec.getLsbD_extractLsb', BitVec.getLsbD_extractLsb',
    getLsbD_setLanes _ _ _ (by omega)]
  simp only [exists_lane_of_lowByte hlanes hk, h, hk, decide_true, Bool.true_and, Nat.zero_add]

/-- The byte update is the word update, seen in the high byte, for lanes 0 to 3. -/
theorem setClipLanes_highByte (v : PixelWord) {lanes others : List (Fin 8)} (p : BitVec 2)
    (hlanes : ∀ i ∈ lanes, i.val ≤ 3) (h : ∀ i, i ∈ others ↔ i ∈ lanes) :
    setClipLanes (v.extractLsb' 8 8) lanes p = (setLanes v others p).extractLsb' 8 8 := by
  refine BitVec.eq_of_getLsbD_eq fun k hk => ?_
  rw [getLsbD_setClipLanes _ _ _ hk, BitVec.getLsbD_extractLsb', BitVec.getLsbD_extractLsb',
    getLsbD_setLanes _ _ _ (by omega)]
  simp only [exists_lane_of_highByte hlanes hk, h, hk, decide_true, Bool.true_and,
    show (8 + k) % 2 = k % 2 by omega]

/-- The mask of a lane set has the bits of its lanes. -/
theorem getLsbD_laneMask (lanes : List (Fin 8)) (hk : k < 16) :
    (laneMask lanes).getLsbD k = decide (laneAt k ∈ lanes) := by
  have hfold (m : PixelWord) : (lanes.foldl (fun m i => m ||| 3#16 <<< laneShift i) m).getLsbD k
      = (m.getLsbD k || decide (laneAt k ∈ lanes)) := by
    induction lanes generalizing m with
    | nil => simp
    | cons i lanes ih =>
      have hlane : (3#16 <<< laneShift i).getLsbD k = decide (laneAt k = i) := by
        rw [getLsbD_three_shiftLeft hk, laneShift_eq, decide_eq_decide, eq_comm (a := laneAt k), eq_laneAt_iff]
        omega
      rw [List.foldl_cons, ih, BitVec.getLsbD_or, hlane]
      by_cases hi : laneAt k = i <;> simp [hi]
  exact (hfold 0).trans (by simp)

/-- The pattern has the phase in each lane. -/
theorem getLsbD_phasePattern (p : BitVec 2) (hk : k < 16) : (phasePattern p).getLsbD k = p.getLsbD (k % 2) := by
  revert p
  interval_cases k <;> decide

end

/-- Settles O37: both forms have the same bits, lane by lane. -/
theorem laneFormEqualsLaneByLane : Obligations.LaneFormEqualsLaneByLane := by
  refine ⟨fun v lanes others p h => BitVec.eq_of_getLsbD_eq fun k hk => ?_,
    fun lanes i => ⟨mem_writtenLanes_little lanes i, mem_writtenLanes_big lanes i⟩,
    fun v lanes others p => ⟨fun h => ?_, fun h => ?_⟩⟩
  · rw [getLsbD_setLanes v lanes p hk, BitVec.getLsbD_or, BitVec.getLsbD_and, BitVec.getLsbD_not, BitVec.getLsbD_and,
      getLsbD_laneMask others hk, getLsbD_phasePattern p hk]
    by_cases hl : laneAt k ∈ others <;> simp [h, hl, hk]
  · exact setClipLanes_lowByte v p (fun i hi => ((mem_writtenLanes_little lanes i).mp hi).2)
      fun i => (h i).trans (mem_writtenLanes_little lanes i).symm
  · exact setClipLanes_highByte v p (fun i hi => ((mem_writtenLanes_big lanes i).mp hi).2)
      fun i => (h i).trans (mem_writtenLanes_big lanes i).symm

/-! ## The same lanes set twice (R142) -/

theorem setLanes_setLanes (v : PixelWord) (lanes : List (Fin 8)) (p : BitVec 2) :
    setLanes (setLanes v lanes p) lanes p = setLanes v lanes p := by
  refine BitVec.eq_of_getLsbD_eq fun k hk => ?_
  simp only [getLsbD_setLanes _ _ _ hk]
  split <;> rfl

theorem setClipLanes_setClipLanes (c : Byte) (lanes : List (Fin 8)) (p : BitVec 2) :
    setClipLanes (setClipLanes c lanes p) lanes p = setClipLanes c lanes p := by
  refine BitVec.eq_of_getLsbD_eq fun k hk => ?_
  simp only [getLsbD_setClipLanes _ _ _ hk]
  split <;> rfl

end Sys2Proof.Machine
end

section
/-! SUPPORT. What a command makes of the bytes and words of memory, as a function of memory at acceptance
(41_draw_char.md R113, R122, R140, R142, R145). -/

namespace Sys2Proof.Machine

/-! ## Bytes the command leaves -/

section
variable {o : Operands} {ps : List Pixel} {m : Memory} {off a : Nat}

/-- A lane of a word that is written is that of a pixel landing there which is not dropped (R133, R134). -/
theorem mem_wordLanes_iff (o : Operands) (ps : List Pixel) (off : Nat) (i : Fin 8) :
    i ∈ wordLanes o ps off ↔ ∃ p ∈ ps, pixelDropped o p = false ∧ pixelOffset o p = off ∧ pixelLane o p = i := by
  have hlanes : i ∈ lanesOf o ps off ↔ ∃ p ∈ ps, pixelOffset o p = off ∧ pixelLane o p = i := by
    simp [lanesOf, and_assoc]
  have hwritten : i ∈ wordLanes o ps off ↔ i ∈ lanesOf o ps off
      ∧ writtenLanes Config.wordByteOrder (wordFate o off) [i] ≠ [] := by
    rw [wordLanes]
    cases wordFate o off <;> simp [writtenLanes]
  rw [hwritten, hlanes]
  constructor
  · rintro ⟨⟨p, hp, rfl, rfl⟩, hw⟩
    exact ⟨p, hp, (pixelDropped_eq_false_iff o p).mpr hw, rfl, rfl⟩
  · rintro ⟨p, hp, hd, rfl, rfl⟩
    exact ⟨⟨p, hp, rfl, rfl⟩, (pixelDropped_eq_false_iff o p).mp hd⟩

/-- Under the byte-clip policy the word that begins at the frame's last byte has that byte in range (R128). -/
theorem wordFate_firstByte (hclip : o.byteClip = true) (hlen : off + 1 = o.fbLen) : wordFate o off = .firstByte := by
  obtain ⟨-, h⟩ | ⟨hfate, -⟩ | ⟨-, -, h⟩ := wordFate_cases o off
  · omega
  · exact hfate
  · simp only [hclip, Bool.true_eq_false, false_or] at h
    omega

/-- Only lanes of the byte in range are written in the frame's last byte (R128). -/
theorem lane_of_firstByte (hfate : wordFate o off = .firstByte) : ∀ i ∈ wordLanes o ps off, 4 ≤ i.val := by
  intro i hi
  rw [wordLanes, hfate] at hi
  exact ((mem_writtenLanes_little _ i).mp hi).2

/-- A byte of no frame word with a lane to write is left as it is. -/
theorem paintByte_eq_read (h : ∀ off, frameWordOf o a = some off → wordLanes o ps off = []) :
    paintByte o ps m a = m.read a := by
  by_cases hbase : a < o.fbBase
  · simp only [paintByte, if_pos hbase]
  simp only [paintByte, if_neg hbase, List.isEmpty_iff]
  split
  · rfl
  rename_i hlanes
  have hout : ¬ a < o.fbBase + o.fbLen := fun hlt =>
    hlanes (h _ ((frameWordOf_eq_some o a _).mpr ⟨⟨by omega, hlt⟩, rfl⟩))
  obtain ⟨hfate, hlen⟩ | ⟨hfate, -, hlen⟩ | ⟨hfate, -⟩ := wordFate_cases o ((a - o.fbBase) / 2 * 2) <;>
    simp only [hfate]
  · omega
  · rw [if_neg (by omega)]

theorem drawByte_of_frameWordOf_none (h : frameWordOf o a = none) : drawByte o m a = m.read a :=
  paintByte_eq_read fun off hoff => by cases h.symm.trans hoff

/-- A byte of a word that lies in the frame whole. -/
theorem paintByte_of_whole (heven : off % 2 = 0) (hfate : wordFate o off = .whole) (hlanes : wordLanes o ps off ≠ [])
    {j : Nat} (hj : j < 2) :
    paintByte o ps m (o.fbBase + off + j) = (m.readWord (o.fbBase + off)).map
      fun v => wordByte Config.wordByteOrder (setLanes v (wordLanes o ps off) o.phase) j := by
  have hoff : (o.fbBase + off + j - o.fbBase) / 2 * 2 = off := by omega
  have hbyte : o.fbBase + off + j - o.fbBase - off = j := by omega
  simp only [paintByte, hoff, hbyte, hfate, List.isEmpty_iff, hlanes, if_false,
    if_neg (show ¬ o.fbBase + off + j < o.fbBase by omega)]

/-- The one byte in range of a word at the end of the frame. -/
theorem paintByte_of_firstByte (heven : off % 2 = 0) (hfate : wordFate o off = .firstByte) :
    paintByte o ps m (o.fbBase + off) =
      (m.read (o.fbBase + off)).map fun c => setClipLanes c (wordLanes o ps off) o.phase := by
  have hoff : (o.fbBase + off - o.fbBase) / 2 * 2 = off := by omega
  simp only [paintByte, hoff, hfate, List.isEmpty_iff, if_neg (show ¬ o.fbBase + off < o.fbBase by omega), if_true]
  split
  · rename_i hlanes
    simp [hlanes]
  · rfl

/-! ## Words (R113) -/

theorem Memory.readWord_eq_some {a : Nat} {v : PixelWord} (h : m.readWord a = some v) :
    m.read a = some (wordByte Config.wordByteOrder v 0)
      ∧ m.read (a + 1) = some (wordByte Config.wordByteOrder v 1) := by
  unfold Memory.readWord at h
  split at h
  · rename_i b0 b1 h0 h1
    obtain ⟨e0, e1⟩ := wordByte_assembleWord Config.wordByteOrder b0 b1
    rw [← Option.some.inj h, e0, e1]
    exact ⟨h0, h1⟩
  · cases h

/-- A word both bytes of which hold what a function makes of the word holds that. -/
theorem Memory.readWord_map {m' : Memory} {a : Nat} {f : PixelWord → PixelWord}
    (h : ∀ j < 2, m'.read (a + j) = (m.readWord a).map fun v => wordByte Config.wordByteOrder (f v) j) :
    m'.readWord a = (m.readWord a).map f := by
  have h0 := h 0 (by omega)
  have h1 := h 1 (by omega)
  rw [Nat.add_zero] at h0
  cases hv : m.readWord a with
  | none =>
    rw [hv, Option.map_none] at h0
    simp only [Memory.readWord, h0, Option.map_none]
  | some v =>
    rw [hv, Option.map_some] at h0 h1
    simp only [Memory.readWord, h0, h1, Option.map_some, assembleWord_wordByte]

/-- Lanes 4 to 7 leave the high byte of a word. -/
theorem wordByte_one_setLanes {lanes : List (Fin 8)} (hlanes : ∀ i ∈ lanes, 4 ≤ i.val) (v : PixelWord) (p : BitVec 2) :
    wordByte Config.wordByteOrder (setLanes v lanes p) 1 = wordByte Config.wordByteOrder v 1 := by
  refine BitVec.eq_of_getLsbD_eq fun k hk => ?_
  have hout : laneAt (8 + k) ∉ lanes := fun hi => by
    have hlow := hlanes _ hi
    rw [(eq_laneAt_iff _ _).mp rfl] at hlow
    omega
  simp only [wordByte, BitVec.getLsbD_extractLsb', getLsbD_setLanes v _ _ (show 8 + k < 16 by omega), hout, if_false]

/-- The byte behind the frame's last one lies in no frame word. -/
theorem frameWordOf_behind (hlen : off + 1 = o.fbLen) : frameWordOf o (o.fbBase + off + 1) = none := by
  rw [frameWordOf, if_neg]
  rw [Region.covers_iff]
  simp only [frameRange]
  omega

/-- After a command each byte of a backed word has the lanes set that the command writes, whatever the guard leaves of
the word. -/
theorem drawByte_of_word (heven : off % 2 = 0) {v : PixelWord} (hv : m.readWord (o.fbBase + off) = some v) :
    drawByte o m (o.fbBase + off)
        = some (wordByte Config.wordByteOrder (setLanes v (touchedLanes o m off) o.phase) 0)
      ∧ drawByte o m (o.fbBase + off + 1)
        = some (wordByte Config.wordByteOrder (setLanes v (touchedLanes o m off) o.phase) 1) := by
  obtain ⟨h0, h1⟩ := Memory.readWord_eq_some hv
  by_cases hlanes : touchedLanes o m off = []
  · have hread (j : Nat) (hj : j < 2) : drawByte o m (o.fbBase + off + j) = m.read (o.fbBase + off + j) := by
      refine paintByte_eq_read fun off' ha => ?_
      obtain ⟨-, rfl⟩ := (frameWordOf_eq_some _ _ _).mp ha
      rwa [show (o.fbBase + off + j - o.fbBase) / 2 * 2 = off by omega]
    rw [hlanes]
    exact ⟨(hread 0 (by omega)).trans h0, (hread 1 (by omega)).trans h1⟩
  obtain ⟨hfate, -⟩ | ⟨hfate, -, hlen⟩ | ⟨hfate, -⟩ := wordFate_cases o off
  · have hread (j : Nat) (hj : j < 2) := paintByte_of_whole (m := m) heven hfate hlanes hj
    rw [hv] at hread
    exact ⟨hread 0 (by omega), hread 1 (by omega)⟩
  · have hlow : ∀ i ∈ touchedLanes o m off, 4 ≤ i.val := lane_of_firstByte hfate
    rw [drawByte, paintByte_of_firstByte heven hfate, h0, drawByte_of_frameWordOf_none (frameWordOf_behind hlen), h1,
      wordByte_one_setLanes hlow]
    exact ⟨congrArg some (setClipLanes_lowByte v o.phase hlow fun _ => Iff.rfl), rfl⟩
  · exact absurd (by rw [touchedLanes, wordLanes, hfate]; rfl) hlanes

theorem drawnWord_eq_setLanes (heven : off % 2 = 0) {v : PixelWord} (hv : m.readWord (o.fbBase + off) = some v) :
    drawnWord o m off = some (setLanes v (touchedLanes o m off) o.phase) := by
  simp only [drawnWord, drawByte_of_word heven hv, assembleWord_wordByte]

end

/-- Settles O41: each clause bit by bit, from the lanes that the command sets. -/
theorem drawnLanesHoldThePhaseOthersKeepTheirs : Obligations.DrawnLanesHoldThePhaseOthersKeepTheirs := by
  have hlane (o : Operands) (p : Pixel) (k : Nat) : (pixelLane o p).val = 7 - k / 2 ↔ pixelLane o p = laneAt k :=
    (eq_laneAt_iff _ _).symm
  refine ⟨fun o m p v v' k hp hzero hv hdrawn hk => ?_, fun o m off v heven hv => ?_,
    fun o m off c heven hclip hlen hc => ?_⟩
  · rw [drawnWord_eq_setLanes (pixelOffset_even o p) hv, Option.some.injEq] at hdrawn
    rw [← hdrawn, getLsbD_setLanes v _ _ (by omega), if_neg]
    rw [touchedLanes, mem_wordLanes_iff]
    rintro ⟨q, hq, -, hoff, hql⟩
    have hpl : pixelLane o p = laneAt k := (hlane o p k).mp (by omega)
    obtain rfl := pixel_eq_of_word_lane (keptPixel_of_landed hq) hp hoff (hql.trans hpl.symm)
    obtain ⟨-, hopaque⟩ := (mem_landedPixels o m q).mp hq
    simp [opaqueAt, hzero] at hopaque
  · refine ⟨_, drawnWord_eq_setLanes heven hv, fun k hk => ?_⟩
    simp only [hlane, getLsbD_setLanes v _ _ hk, touchedLanes, mem_wordLanes_iff]
    refine ⟨?_, fun h => ?_⟩
    · rintro ⟨p, hp, hoff, hpl, hd⟩
      exact if_pos ⟨p, hp, hd, hoff, hpl⟩
    · refine if_neg ?_
      rintro ⟨p, hp, hd, hoff, hpl⟩
      cases hd.symm.trans (h p hp hoff hpl)
  · have hfate := wordFate_firstByte hclip hlen
    refine ⟨_, (paintByte_of_firstByte heven hfate).trans (by rw [hc]; rfl), fun k hk => ?_⟩
    simp only [getLsbD_setClipLanes c _ _ hk, exists_lane_of_lowByte (lane_of_firstByte hfate) hk]
    simp only [hlane, ne_eq, mem_wordLanes_iff]
    refine ⟨?_, fun h => ?_⟩
    · rintro ⟨p, hp, hoff, hpl⟩
      have hd : pixelDropped o p = false := by
        refine pixelDropped_eq_false.mpr (.inr ⟨hclip, hoff ▸ hlen, ?_⟩)
        rw [(hlane o p k).mpr hpl]
        omega
      exact if_pos ⟨p, hp, hd, hoff, hpl⟩
    · refine if_neg ?_
      rintro ⟨p, hp, -, hoff, hpl⟩
      exact h p hp hoff hpl

/-! ## Drawing twice (R142) -/

section
variable {o : Operands} {m m' : Memory}

/-- Memory as a command leaves it has the landed pixels of memory at acceptance: no bitmap byte lies in the frame. -/
theorem landedPixels_of_drawn (hchecked : startError o = none) (h : ∀ a, m'.read a = drawByte o m a) :
    landedPixels o m' = landedPixels o m := by
  refine List.filter_congr fun p hp => ?_
  rw [opaqueAt, h, drawByte_of_frameWordOf_none (frameWordOf_keptPixel hchecked hp)]
  rfl

end

/-- Settles O42: the same pixels land, and lanes that are set are set again. -/
theorem drawIsIdempotent : Obligations.DrawIsIdempotent := by
  intro o m m' hchecked h
  have hlanded := landedPixels_of_drawn hchecked h
  refine ⟨fun a => ?_, by rw [drawDropCount, hlanded]; rfl⟩
  rw [drawByte, hlanded]
  by_cases hleft : ∀ off, frameWordOf o a = some off → wordLanes o (landedPixels o m) off = []
  · rw [paintByte_eq_read hleft, h]
  push Not at hleft
  obtain ⟨off, ha, hlanes⟩ := hleft
  have heven := frameWordOf_even ha
  obtain ⟨⟨hbase, hend⟩, hoff⟩ := (frameWordOf_eq_some o a off).mp ha
  obtain ⟨hfate, -⟩ | ⟨hfate, -, hlen⟩ | ⟨hfate, -⟩ := wordFate_cases o off
  · have hdrawn (j : Nat) (hj : j < 2) := paintByte_of_whole (m := m) heven hfate hlanes hj
    have hword := Memory.readWord_map fun j hj => (h _).trans (hdrawn j hj)
    obtain ⟨j, hj, rfl⟩ : ∃ j < 2, a = o.fbBase + off + j := ⟨a - o.fbBase - off, by omega, by omega⟩
    rw [drawByte, paintByte_of_whole heven hfate hlanes hj, hdrawn j hj, hword, Option.map_map]
    simp only [Function.comp_def, setLanes_setLanes]
  · obtain rfl : a = o.fbBase + off := by omega
    have hdrawn := paintByte_of_firstByte (ps := landedPixels o m) (m := m) heven hfate
    rw [drawByte, paintByte_of_firstByte heven hfate, h, drawByte, hdrawn, Option.map_map]
    simp only [Function.comp_def, setClipLanes_setClipLanes]
  · exact absurd (by rw [wordLanes, hfate]; rfl) hlanes

end Sys2Proof.Machine
end

section
/-! SUPPORT. The acceptance of a DRAW_CHAR, its completion, and the commands that have nothing to do in between
(41_draw_char.md R111, R112, R134, R135, R138). -/

namespace Sys2Proof.Machine

/-! ## Acceptance (R111) -/

section
variable {s : State}

/-- A DRAW_CHAR that passes the checks, with no range on a device, is accepted. BYTE_CLIP plays no part in either. -/
theorem exec_drawChar_accepted (f : CtrlFields) (hi : s.eng = .idle) (hchecked : startError (operands s) = none)
    (hdevices : onDevice s.devices (operands s) = false) :
    exec (.drawChar f) s = .next (acceptCommand (commandStart (storeCtrl f s))) := by
  refine (ctrlWrite_idle f (fun t => drawCharStart (commandStart t)) hi).trans ?_
  obtain ⟨c, hc, -⟩ | ⟨-, hdevice, -⟩ | ⟨-, -, haccepted⟩ := drawCharStart_cases (commandStart (storeCtrl f s))
  · cases hchecked.symm.trans hc
  · cases hdevices.symm.trans hdevice
  · exact haccepted

end

/-- Settles O22: the four checks on the register values, and the record of an accepted command. -/
theorem drawCharAccepted : Obligations.DrawCharAccepted := by
  intro f s hi fb len bm size overlap heven hframe hbitmap hapart hdevices started
  have hchecked : startError (operands s) = none :=
    (startError_eq_none _).mpr ⟨heven, hframe, hbitmap, fun ⟨hlen, hsize, hfb, hbm⟩ => hapart ⟨hsize, hlen, hfb, hbm⟩⟩
  have haccepted := exec_drawChar_accepted f hi hchecked hdevices
  refine ⟨haccepted, fun t ht => ?_⟩
  rw [haccepted] at ht
  cases ht
  exact statusWord_getLsbD_zero _

/-! ## Completion (R135) -/

section
variable {s : State}

/-- With nothing left to read or to update the engine has one move. -/
theorem engineActions_eq_complete (hread : s.work.toRead = []) (hmay : s.work.mayRead = [])
    (hpending : pendingWords s = []) : engineActions s = [.complete] := by
  simp [engineActions, hread, hmay, hpending]

/-- A command with nothing left to do completes, granted or alone; only the moves to come and the draws are not as
they were. -/
theorem step_completes (hrst : s.rst = false) (hb : s.eng = .busy) (hnext : engineMovesNext s)
    (hread : s.work.toRead = []) (hmay : s.work.mayRead = []) (hpending : pendingWords s = []) :
    ∃ moves draws, step s = .next (completeCommand { s with moves, draws }) := by
  have hpick (k : Nat) : pickAction k (engineActions s) = some .complete := by
    rw [engineActions_eq_complete hread hmay hpending]; rfl
  obtain hm | ⟨k, rest, hm⟩ := hnext
  · exact ⟨s.moves, s.draws + 1, (step_alone hrst hb hm).trans (engineAlone_of_ok hb (hpick _) rfl)⟩
  · refine ⟨rest, s.draws, ?_⟩
    rw [step_grant hrst hm, afterEngine_of_ok (s := { s with moves := rest }) hb (hpick k) rfl]

end

/-- Settles O46: the fields of the state that completion leaves. -/
theorem completionEndsTheCommand : Obligations.CompletionEndsTheCommand := by
  intro s hrst hb hnext hread hmay hpending
  obtain ⟨moves, draws, hstep⟩ := step_completes hrst hb hnext hread hmay hpending
  exact ⟨_, hstep, rfl, rfl, rfl, rfl, rfl, rfl, rfl, rfl, rfl, Bool.true_and _⟩

/-! ## Commands with nothing to do (R112, R138) -/

section
variable {s : State}

/-- A command none of whose rows passes the row clip, or that has no pixel at all, completes with its first move. -/
theorem step_accepted_of_no_pixels (hrst : s.rst = false) (hkept : keptPixels (operands s) = [])
    (hclipped : clippedPixels (operands s) = []) (k : Nat) :
    ∃ u, step ((acceptCommand s).withGrants [k]) = .next u ∧ u.eng = .idle ∧ u.mem = s.mem ∧ u.history = s.history
      ∧ u.dropCount = 0 ∧ u.done = true ∧ u.err = s.err := by
  have hlanded : landed ((acceptCommand s).withGrants [k]) = [] :=
    List.eq_nil_iff_forall_not_mem.mpr fun p hp => by
      have hp := landed_subset_keptPixels hp
      exact List.not_mem_nil (hkept ▸ hp)
  have hpending : pendingWords ((acceptCommand s).withGrants [k]) = [] := by
    rw [pendingWords, hlanded]; rfl
  obtain ⟨moves, draws, hstep⟩ := step_completes (s := (acceptCommand s).withGrants [k]) hrst rfl (.inr ⟨k, [], rfl⟩)
    hkept hclipped hpending
  refine ⟨_, hstep, rfl, rfl, rfl, ?_, rfl, rfl⟩
  change BitVec.ofNat 32 (droppedCount (operands s) (landed ((acceptCommand s).withGrants [k]))) = 0
  rw [hlanded]
  rfl

end

/-- Settles O54: no row passes the row clip, so there is nothing to read or to update. -/
theorem rowsOutsideDrawNothing : Obligations.RowsOutsideDrawNothing := by
  intro f s t k hi hrst hexec hb hrows
  obtain ⟨rfl, -⟩ := eq_acceptCommand_of_drawChar hi hexec hb
  refine step_accepted_of_no_pixels (s := commandStart (storeCtrl f s)) hrst ?_ ?_ k <;>
    refine List.eq_nil_iff_forall_not_mem.mpr fun p hp => ?_
  · obtain ⟨-, hy, ⟨hlow, hhigh⟩, -⟩ := (mem_keptPixels _ p).mp hp
    exact (hrows p.y hy).elim (not_lt.mpr hlow) (not_le.mpr hhigh)
  · obtain ⟨-, hy, ⟨hlow, hhigh⟩, -⟩ := (mem_clippedPixels _ p).mp hp
    exact (hrows p.y hy).elim (not_lt.mpr hlow) (not_le.mpr hhigh)

/-- Settles O55: a bitmap without rows or columns has no pixel. -/
theorem emptyCommandCompletes : Obligations.EmptyCommandCompletes := by
  intro f s k hi hrst hempty hchecked hdevices
  have no_pixel (p : Pixel) (hx : p.x < (s.bmSize.extractLsb' 0 16).toNat)
      (hy : p.y < (s.bmSize.extractLsb' 16 16).toNat) : False := by
    obtain h | h := hempty
    · rw [h] at hx; exact absurd hx (Nat.not_lt_zero _)
    · rw [h] at hy; exact absurd hy (Nat.not_lt_zero _)
  obtain ⟨u, hu⟩ := step_accepted_of_no_pixels (s := commandStart (storeCtrl f s)) hrst
    (List.eq_nil_iff_forall_not_mem.mpr fun p hp =>
      no_pixel p ((mem_keptPixels _ p).mp hp).1 ((mem_keptPixels _ p).mp hp).2.1)
    (List.eq_nil_iff_forall_not_mem.mpr fun p hp =>
      no_pixel p ((mem_clippedPixels _ p).mp hp).1 ((mem_clippedPixels _ p).mp hp).2.1) k
  exact ⟨_, u, exec_drawChar_accepted f hi hchecked hdevices, rfl, rfl, rfl, hu⟩

/-! ## The ranges of the engine's accesses (R60, R137) -/

section
variable {s t : State}

/-- An access to a word that is still to update, of the size that its fate gives it. -/
theorem engineEventLegal_of_pending {off size : Nat} (hchecked : startError (operands s) = none)
    (hoff : off ∈ pendingWords s)
    (hsize : wordFate (operands s) off = .whole ∧ size = 2 ∨ wordFate (operands s) off ≠ .whole ∧ size = 1)
    (kind : AccessKind) (v : PixelWord) :
    engineEventLegal (operands s)
      { agent := .engine, kind := kind, addr := (operands s).fbBase + off, size := size, value := v } := by
  obtain ⟨hbase, -⟩ := (startError_eq_none _).mp hchecked
  have heven := writableWord_even (writableWord_of_pending hoff)
  obtain ⟨hfate, hlen⟩ | ⟨hfate, hclip, hlen⟩ | ⟨hfate, -⟩ := wordFate_cases (operands s) off
  · obtain ⟨-, rfl⟩ | ⟨hne, -⟩ := hsize
    · exact .inr (.inl ⟨rfl, show ((operands s).fbBase + off) % 2 = 0 by omega, Nat.le_add_right _ _,
        show (operands s).fbBase + off + 1 < _ by omega⟩)
    · exact absurd hfate hne
  · obtain ⟨hw, -⟩ | ⟨-, rfl⟩ := hsize
    · cases hfate.symm.trans hw
    · exact .inr (.inr ⟨rfl, hclip, Nat.le_add_right _ _, show (operands s).fbBase + off + 1 = _ by omega⟩)
  · exact absurd hfate (writableWord_fate (writableWord_of_pending hoff))

/-- An engine move adds to the history one access of R60, or, at completion, nothing. -/
theorem engineEventLegal_of_performAction {a : Action} (hs : s.Inv) (hb : s.eng = .busy) (ha : a ∈ engineActions s)
    (h : performAction a s = .ok t) :
    t.history = s.history ∨ ∃ e, t.history = e :: s.history ∧ engineEventLegal (operands s) e := by
  have hchecked := hs.busy_checked hb
  obtain ⟨hkept, hclipped, -⟩ := hs.busy_work hb
  obtain ⟨p, hp, rfl⟩ | ⟨p, hp, rfl⟩ | ⟨off, hoff, ha⟩ | ⟨rfl, -⟩ := (mem_engineActions s a).mp ha
  · obtain ⟨b, -, rfl⟩ := readPixelStep_ok p s t h
    obtain ⟨hx, hy, -⟩ := (mem_keptPixels _ p).mp (hkept p hp)
    exact .inr ⟨_, rfl, .inl ⟨rfl, rfl, bitmapAddr_in_range _ p hx hy⟩⟩
  · obtain ⟨b, -, rfl⟩ := readClippedStep_ok p s t h
    obtain ⟨hx, hy, -⟩ := (mem_clippedPixels _ p).mp (hclipped p hp)
    exact .inr ⟨_, rfl, .inl ⟨rfl, rfl, bitmapAddr_in_range _ p hx hy⟩⟩
  · obtain ⟨rfl, -⟩ | ⟨rfl, hheld, -⟩ := (mem_wordActions s off a).mp ha
    · obtain ⟨size, v, hsize, rfl⟩ := readFrameStep_ok off s t h
      exact .inr ⟨_, rfl, engineEventLegal_of_pending hchecked hoff
        (hsize.imp (fun ⟨hf, e, _⟩ => ⟨hf, e⟩) fun ⟨hf, e, _⟩ => ⟨hf, e⟩) .read v⟩
    · obtain ⟨held, hvalue⟩ := Option.isSome_iff_exists.mp hheld
      obtain ⟨size, v, m, hsize, rfl⟩ := writeFrameStep_ok off s t held hvalue h
      exact .inr ⟨_, rfl, engineEventLegal_of_pending hchecked hoff
        (hsize.imp (fun ⟨hf, e, _⟩ => ⟨hf, e⟩) fun ⟨hf, e, _⟩ => ⟨hf, e⟩) .write v⟩
  · cases h; exact .inl rfl

/-- The state keeps the invariant, with these operands, and its engine has made accesses of R60 only since the history
was `base`. -/
def LegalSince (o : Operands) (base : List MemEvent) (s : State) : Prop :=
  s.Inv ∧ operands s = o ∧ ∃ new, s.history = new ++ base ∧ ∀ e ∈ new, engineEventLegal o e

theorem LegalSince.performAction {o : Operands} {base : List MemEvent} {a : Action} (hs : LegalSince o base s)
    (hb : s.eng = .busy) (ha : a ∈ engineActions s) (h : performAction a s = .ok t) : LegalSince o base t := by
  obtain ⟨hinv, rfl, new, hhistory, hlegal⟩ := hs
  refine ⟨hinv.performAction hb ha h, operands_of_performAction h, ?_⟩
  obtain e | ⟨e, he, hlegal'⟩ := engineEventLegal_of_performAction hinv hb ha h
  · exact ⟨new, e.trans hhistory, hlegal⟩
  · exact ⟨e :: new, by rw [he, hhistory]; rfl, List.forall_mem_cons.mpr ⟨hlegal', hlegal⟩⟩

/-- The moves that a command still makes when RST is asserted are accesses of R60 (R169). -/
theorem LegalSince.abandonCommand {o : Operands} {base : List MemEvent} (hs : LegalSince o base s) :
    LegalSince o base (abandonCommand s) := by
  have draw (u : State) (hu : LegalSince o base u) : LegalSince o base { u with draws := u.draws + 1 } :=
    ⟨hu.1.with_draws _, hu.2⟩
  obtain ⟨-, e⟩ | ⟨-, e⟩ := abandonCommand_cases s <;> rw [e]
  · exact hs
  · exact engineRun_induct (LegalSince o base) draw (fun _ _ _ hu hb ha hp => hu.performAction hb ha hp) _ _ (draw s hs)

/-- A step has added to the history engine accesses of R60 only, and one event at most unless it asserts RST. -/
def AccessesAdded (s t : State) : Prop :=
  ∃ new, t.history = new ++ s.history ∧ (∀ e ∈ new, e.agent = .engine → engineEventLegal (operands s) e)
    ∧ ((∀ rest, s.moves ≠ .rst true :: rest) → new.length ≤ 1)

theorem accessesAdded_of_history_eq (h : t.history = s.history) : AccessesAdded s t :=
  ⟨[], h, by simp, fun _ => Nat.zero_le _⟩

theorem accessesAdded_of_history_cons {e : MemEvent} (h : t.history = e :: s.history)
    (he : e.agent = .engine → engineEventLegal (operands s) e) : AccessesAdded s t :=
  ⟨[e], h, by simpa using he, fun _ => le_rfl⟩

theorem AccessesAdded.hostWrite (a : Word) (v : Byte) (rest : List Move) :
    AccessesAdded s (hostWrite a v { s with moves := rest }) := by
  obtain hi | hb := eng_idle_or_busy s
  · rw [hostWrite_idle a v { s with moves := rest } hi]
    exact accessesAdded_of_history_cons rfl fun he => by cases he
  · rw [hostWrite_busy a v { s with moves := rest } hb]
    exact accessesAdded_of_history_cons rfl fun he => by cases he

end

/-- Settles O44: one access at most in a step, and those of a reset along the moves that it still lets the engine
make. -/
theorem engineAccessesStayInRange : Obligations.EngineAccessesStayInRange := by
  intro s t hs h
  cases stepCase_of_next h with
  | wait moves => exact accessesAdded_of_history_eq rfl
  | served rest _ _ hexec =>
    obtain ⟨-, hhistory, -⟩ := surroundings_of_exec hexec
    exact accessesAdded_of_history_eq hhistory
  | engine moves draws _ hb _ ha hp =>
    obtain e | ⟨e, he, hlegal⟩ := engineEventLegal_of_performAction ((hs.with_moves moves).with_draws draws) hb ha hp
    · exact accessesAdded_of_history_eq e
    · exact accessesAdded_of_history_cons he fun _ => hlegal
  | hostWrite a v rest _ => exact AccessesAdded.hostWrite a v rest
  | hostRead a rest _ hread =>
    obtain ⟨b, -, -, -, hhistory⟩ := hostRead_event hread
    exact accessesAdded_of_history_cons hhistory fun he => by cases he
  | reset asserted rest hm =>
    cases asserted with
    | true =>
      have hstart : LegalSince (operands s) s.history { s with moves := rest } :=
        ⟨hs.with_moves rest, rfl, [], rfl, by simp⟩
      obtain ⟨-, -, new, hhistory, hlegal⟩ := hstart.abandonCommand
      exact ⟨new, hhistory, fun e he _ => hlegal e he, fun hno => absurd hm (hno rest)⟩
    | false => exact accessesAdded_of_history_eq rfl

end Sys2Proof.Machine
end

section
/-! SUPPORT. Runs of a command during which the duty of R74 is kept: every byte is on its way to the contract
(41_draw_char.md R145, R146), whatever the order of the engine's moves. -/

namespace Sys2Proof.Machine

/-! ## The duty along a run (R74) -/

section
variable {s t u : State}

theorem landed_of_dutyKept (hduty : s.dutyKept) : landed s = landedPixels (operands s) s.atStart :=
  landed_of_raceAt_none s fun p hp => by
    obtain ⟨hx, hy, -⟩ := (mem_keptPixels _ p).mp hp
    exact hduty _ (.inr (bitmapAddr_in_range _ p hx hy))

/-- A host write that leaves the duty kept is to no byte of the frame or of the bitmap. -/
theorem not_covers_of_dutyKept_hostWrite {a : Word} {v : Byte} (hb : s.eng = .busy)
    (hduty : (hostWrite a v s).dutyKept) :
    ¬ ((frameRange (operands s)).covers a.toNat = true ∨ (bitmapRange (operands s)).covers a.toNat = true) := by
  intro hcovers
  have ho : operands (hostWrite a v s) = operands s := by rw [hostWrite_busy a v s hb]; rfl
  have hnone := hduty a.toNat (by rwa [ho])
  rw [raceAt_hostWrite hb] at hnone
  have hsome := raceAt_addRace_isSome s a.toNat
  rw [hnone] at hsome
  cases hsome

/-- The duty is kept over a step whose move keeps it. -/
theorem State.dutyKept.step (hduty : s.dutyKept) (hb : s.eng = .busy)
    (hm : ∀ m, s.moves.head? = some m → keepsDuty (operands s) m = true) (h : step s = .next t) : t.dutyKept := by
  cases stepCase_of_next h with
  | wait moves => exact hduty
  | served rest _ _ hexec =>
    cases execCase_of_next hexec with
    | ignored | readOnly | acknowledged f | read r => exact hduty
    | stored _ _ _ _ _ _ _ hi | nop _ hi | rejected _ hi | accepted _ hi => cases hb.symm.trans hi
  | engine moves draws _ _ _ _ hp =>
    obtain ⟨-, rfl⟩ | ⟨work, mem, history, rfl⟩ := performAction_fields hp
    · exact fun _ _ => rfl
    · exact hduty
  | hostWrite a v rest hmoves =>
    have hkeeps := hm (.memWrite a v) (by rw [hmoves]; rfl)
    simp only [keepsDuty, Bool.and_eq_true, Bool.not_eq_true'] at hkeeps
    obtain ⟨hframe, hbitmap⟩ := hkeeps
    rw [hostWrite_busy a v { s with moves := rest } hb]
    intro b hcovers
    have hne : a.toNat ≠ b := fun e => by
      rw [← e] at hcovers
      obtain h | h := hcovers
      · cases hframe.symm.trans h
      · cases hbitmap.symm.trans h
    exact (raceAt_addRace_of_ne (s := { s with moves := rest }) _ hne).trans (hduty b hcovers)
  | hostRead a rest _ hread =>
    obtain ⟨_, _, _, rfl, -⟩ := hostRead_fields hread
    exact hduty
  | reset asserted rest hmoves =>
    cases asserted with
    | true => cases hm (.rst true) (by rw [hmoves]; rfl)
    | false => exact hduty

/-- A property that holds at the start of a run of a command that keeps the duty, and that each step of the busy machine
keeps, holds at its end. -/
theorem commandRun_induct {P : State → Prop} (hrun : CommandRun s u) (hduty : s.dutyKept) (start : P s)
    (next : ∀ x y, x.eng = .busy → BusyCase x y → step x = .next y → x.dutyKept → y.dutyKept → P x → P y) : P u := by
  suffices h : u.dutyKept ∧ P u from h.2
  induction hrun with
  | start => exact ⟨hduty, start⟩
  | next _ hb hm hstep ih =>
    obtain ⟨hd, hp⟩ := ih
    have hd' := hd.step hb hm hstep
    refine ⟨hd', next _ _ hb (busyCase_of_step hb (fun rest hr => ?_) hstep) hstep hd hd' hp⟩
    cases hm (.rst true) (by rw [hr]; rfl)

end

/-! ## The bytes of an undisturbed command -/

/-- The bytes of which the contract speaks: those of the ranges, and those that no host has written. -/
def InContract (o : Operands) (new : List MemEvent) (a : Nat) : Prop :=
  (frameRange o).covers a = true ∨ (bitmapRange o).covers a = true ∨ hostWrote a new = false

/-- An undisturbed command, `new` being the events since its acceptance: a word that is held has its value at
acceptance, a word that is updated the bytes of the contract, and every other byte is as at acceptance. -/
structure State.Undisturbed (s : State) (new : List MemEvent) : Prop where
  checked : startError (operands s) = none
  held : ∀ h ∈ s.work.held, heldAtStart s h.off = some h.value
  updated : ∀ a off, frameWordOf (operands s) a = some off → off ∈ s.work.updated →
    s.mem.read a = drawByte (operands s) s.atStart a
  others : ∀ a, (∀ off, frameWordOf (operands s) a = some off → off ∉ s.work.updated) →
    InContract (operands s) new a → s.mem.read a = s.atStart.read a

section
variable {s t : State} {new : List MemEvent} {a : Nat}

/-- Only a write of another agent takes a byte out of the contract. -/
theorem InContract.of_cons {o : Operands} {e : MemEvent} (h : InContract o (e :: new) a) : InContract o new a := by
  refine h.imp_right (Or.imp_right fun h => ?_)
  cases hw : hostWrote a new with
  | false => rfl
  | true => cases h.symm.trans ((hostWrote_cons a e new).mpr (.inr hw))

theorem undisturbed_acceptCommand (hchecked : startError (operands s) = none) : (acceptCommand s).Undisturbed [] where
  checked := hchecked
  held := fun _ h => by cases h
  updated := fun _ _ _ h => by cases h
  others := fun _ _ _ => rfl

/-- The registers outside the operands, the history and the surroundings play no part. -/
theorem State.Undisturbed.with_rest (hu : s.Undisturbed new) {done err wign rst : Bool} {errCode : ErrCode}
    {regData : Word} {moves : List Move} {history : List MemEvent} {shown : List Host.Cell} {draws : Nat} :
    State.Undisturbed { s with done, err, wign, rst, errCode, regData, moves, history, shown, draws } new :=
  ⟨hu.checked, hu.held, hu.updated, hu.others⟩

/-- An event that leaves memory and the words as they are. -/
theorem State.Undisturbed.with_event (hu : s.Undisturbed new) (e : MemEvent) : s.Undisturbed (e :: new) :=
  ⟨hu.checked, hu.held, hu.updated, fun a hnot ha => hu.others a hnot ha.of_cons⟩

/-- A word still to update is as at acceptance. -/
theorem State.Undisturbed.read_of_pending (hu : s.Undisturbed new) {off : Nat} (hoff : off ∈ pendingWords s) :
    ∀ a ∈ wordAddrs (operands s) off, s.mem.read a = s.atStart.read a := by
  intro a ha
  have hword := frameWordOf_of_mem_wordAddrs (writableWord_even (writableWord_of_pending hoff)) ha
  obtain ⟨-, hnot⟩ := touched_of_mem_pendingWords hoff
  refine hu.others a (fun off' ha' => ?_) (.inl (covers_of_frameWordOf hword))
  cases hword.symm.trans ha'
  exact hnot

/-- A bitmap read leaves the words. -/
theorem State.Undisturbed.bitmapRead (hu : s.Undisturbed new) (toRead mayRead : List Pixel) (e : MemEvent) :
    State.Undisturbed { s with work := { s.work with toRead, mayRead }, history := e :: s.history } (e :: new) :=
  State.Undisturbed.with_event (s := { s with work := { s.work with toRead, mayRead }, history := e :: s.history })
    ⟨hu.checked, hu.held, hu.updated, hu.others⟩ e

/-- A frame read finds the word's value at acceptance. -/
theorem State.Undisturbed.readFrameStep (hu : s.Undisturbed new) {off : Nat} (hoff : off ∈ pendingWords s)
    (h : readFrameStep off s = .ok t) : ∃ e, t.history = e :: s.history ∧ t.Undisturbed (e :: new) := by
  obtain ⟨size, v, hv, rfl⟩ := readFrameStep_ok off s t h
  have hsame := hu.read_of_pending hoff
  have hfirst : heldAtStart s off = some v := by
    obtain ⟨hfate, -, hread⟩ | ⟨hfate, -, b, hread, rfl⟩ := hv
    · simp only [wordAddrs, hfate, List.mem_cons, List.not_mem_nil, or_false, forall_eq_or_imp, forall_eq] at hsame
      simpa only [heldAtStart, hfate, Memory.readWord, hsame] using hread
    · cases hw : wordFate (operands s) off with
      | whole => exact absurd hw hfate
      | dropped => exact absurd hw (writableWord_fate (writableWord_of_pending hoff))
      | firstByte =>
        simp only [wordAddrs, hw, List.mem_singleton, forall_eq] at hsame
        simp only [heldAtStart, hw, ← hsame, hread, Option.map_some]
  exact ⟨_, rfl, hu.checked, List.forall_mem_cons.mpr ⟨hfirst, hu.held⟩, hu.updated,
    fun a hnot ha => hu.others a hnot ha.of_cons⟩

/-- A frame write leaves its word as the contract says. -/
theorem State.Undisturbed.writeFrameStep (hu : s.Undisturbed new) (hduty : s.dutyKept) {off : Nat}
    (hoff : off ∈ pendingWords s) (hheld : (heldValue off s.work.held).isSome = true)
    (h : writeFrameStep off s = .ok t) : ∃ e, t.history = e :: s.history ∧ t.Undisturbed (e :: new) := by
  obtain ⟨held, hvalue⟩ := Option.isSome_iff_exists.mp hheld
  have hstart : heldAtStart s off = some held := by
    obtain ⟨w, hw, rfl⟩ := Option.map_eq_some_iff.mp hvalue
    have hwo : w.off = off := by simpa using List.find?_some (p := fun w : HeldWord => w.off == off) hw
    rw [← hwo]
    exact hu.held w (List.mem_of_find?_eq_some hw)
  have hread := read_of_writeFrameStep hu.checked hoff hvalue (fun _ => hstart) h
  obtain ⟨size, v, rfl, -⟩ := writeFrameStep_storeWord hvalue h
  refine ⟨_, rfl, hu.checked, fun w hw => hu.held w (List.mem_filter.mp hw).1, fun a off' ha hoff' => ?_,
    fun a hnot ha => ?_⟩
  · by_cases hword : frameWordOf (operands s) a = some off
    · rw [((hread a).1 hword).2]
      exact commandByte_of_dutyKept hduty hword
    · rw [(hread a).2 hword]
      exact hu.updated a off' ha ((List.mem_cons.mp hoff').resolve_left fun (e : off' = off) => hword (e ▸ ha))
  · rw [(hread a).2 fun e => hnot off e List.mem_cons_self]
    exact hu.others a (fun off' ha' hu' => hnot off' ha' (List.mem_cons_of_mem _ hu')) ha.of_cons

/-- An engine access of an undisturbed command. -/
theorem State.Undisturbed.performAction (hu : s.Undisturbed new) (hduty : s.dutyKept) {act : Action}
    (ha : act ∈ engineActions s) (h : performAction act s = .ok t) (hb : t.eng = .busy) :
    ∃ e, t.history = e :: s.history ∧ t.Undisturbed (e :: new) := by
  obtain ⟨p, -, rfl⟩ | ⟨p, -, rfl⟩ | ⟨off, hoff, ha⟩ | ⟨rfl, -⟩ := (mem_engineActions s act).mp ha
  · obtain ⟨b, -, rfl⟩ := readPixelStep_ok p s t h
    exact ⟨_, rfl, hu.bitmapRead _ _ _⟩
  · obtain ⟨b, -, rfl⟩ := readClippedStep_ok p s t h
    exact ⟨_, rfl, hu.bitmapRead _ _ _⟩
  · obtain ⟨rfl, -⟩ | ⟨rfl, hheld, -⟩ := (mem_wordActions s off act).mp ha
    · exact hu.readFrameStep hoff h
    · exact hu.writeFrameStep hduty hoff hheld h
  · cases h
    cases hb

/-- A host write that keeps the duty changes no byte of the contract. -/
theorem State.Undisturbed.hostWrite (hu : s.Undisturbed new) (hb : s.eng = .busy) {b : Word} {v : Byte}
    (hduty : (hostWrite b v s).dutyKept) :
    ∃ e, (hostWrite b v s).history = e :: s.history ∧ (hostWrite b v s).Undisturbed (e :: new) := by
  have hout := not_covers_of_dutyKept_hostWrite hb hduty
  have hno_word (off : Nat) (h : frameWordOf (operands s) b.toNat = some off) : False :=
    hout (.inl (covers_of_frameWordOf h))
  have hread := read_hostWrite_of_not_updated (v := v) hb fun off h => (hno_word off h).elim
  rw [hostWrite_busy b v s hb] at hread ⊢
  refine ⟨_, rfl, hu.checked, hu.held, fun a off ha hoff => ?_, fun a hnot ha => ?_⟩ <;>
    refine (hread a).trans ?_
  · rw [if_neg fun (e : a = b.toNat) => hno_word off (e ▸ ha)]
    exact hu.updated a off ha hoff
  · rw [if_neg]
    · exact hu.others a hnot ha.of_cons
    · rintro rfl
      obtain h | h | h := ha
      · exact hout (.inl h)
      · exact hout (.inr h)
      · cases h.symm.trans ((hostWrote_cons _ _ _).mpr (.inl ⟨rfl, rfl, rfl⟩))

/-- With no word still to update every byte of the contract is what the contract says. -/
theorem State.Undisturbed.read_of_pendingWords_nil (hu : s.Undisturbed new) (hduty : s.dutyKept)
    (hpending : pendingWords s = []) (ha : InContract (operands s) new a) :
    s.mem.read a = drawByte (operands s) s.atStart a := by
  by_cases hword : ∃ off, frameWordOf (operands s) a = some off ∧ off ∈ s.work.updated
  · obtain ⟨off, hoff, hupdated⟩ := hword
    exact hu.updated a off hoff hupdated
  push Not at hword
  rw [hu.others a hword ha, drawByte, paintByte_eq_read fun off hoff => ?_]
  by_contra hlanes
  obtain ⟨p, hp, hd, ho⟩ := (wordLanes_ne_nil_iff _ _ off).mp hlanes
  rw [← landed_of_dutyKept hduty] at hp
  have hmem := (mem_pendingWords s off).mpr ⟨⟨p, hp, hd, ho⟩, hword off hoff⟩
  rw [hpending] at hmem
  cases hmem

end

/-! ## The contract at completion (R145, R146) -/

/-- A run of a command on memory `m` from the history `base`: while it goes on it is undisturbed, and once completed it
has met the contract. -/
def OnContract (o : Operands) (m : Memory) (base : List MemEvent) (s : State) : Prop :=
  operands s = o ∧ ∃ new, s.history = new ++ base
    ∧ (s.eng = .busy ∧ s.atStart = m ∧ s.Undisturbed new
      ∨ s.eng = .idle ∧ (∀ a, InContract o new a → s.mem.read a = drawByte o m a)
        ∧ s.dropCount = BitVec.ofNat 32 (drawDropCount o m))

section
variable {s t : State} {o : Operands} {m : Memory} {base : List MemEvent}

theorem onContract_acceptCommand (hchecked : startError (operands s) = none) :
    OnContract (operands s) s.mem s.history (acceptCommand s) :=
  ⟨rfl, [], rfl, .inl ⟨rfl, rfl, undisturbed_acceptCommand hchecked⟩⟩

/-- Completion of an undisturbed command meets the contract. -/
theorem State.Undisturbed.onContract_completeCommand {new : List MemEvent} (hu : s.Undisturbed new)
    (hduty : s.dutyKept) (hpending : pendingWords s = []) (hhistory : s.history = new ++ base) :
    OnContract (operands s) s.atStart base (completeCommand s) := by
  refine ⟨rfl, new, hhistory, .inr ⟨rfl, fun a ha => hu.read_of_pendingWords_nil hduty hpending ha, ?_⟩⟩
  rw [completeCommand_dropCount, landed_of_dutyKept hduty, drawDropCount]

theorem OnContract.step (h : OnContract o m base s) (hb : s.eng = .busy) (hcase : BusyCase s t) (hduty : s.dutyKept)
    (hduty' : t.dutyKept) : OnContract o m base t := by
  obtain ⟨rfl, new, hhistory, ⟨-, rfl, hu⟩ | ⟨hi, -⟩⟩ := h
  · cases hcase with
    | quiet => exact ⟨rfl, new, hhistory, .inl ⟨hb, rfl, hu.with_rest⟩⟩
    | engine moves draws ha hp =>
      have hu' : State.Undisturbed { s with moves, draws } new := hu.with_rest
      obtain ⟨hpending, rfl⟩ | ⟨work, mem, e, -, rfl⟩ :=
        engineAccess_of_performAction (s := { s with moves, draws }) ha hp
      · exact hu'.onContract_completeCommand hduty hpending hhistory
      · obtain ⟨e', he, hu''⟩ := hu'.performAction hduty ha hp hb
        exact ⟨rfl, e' :: new, by rw [he]; exact congrArg (e' :: ·) hhistory, .inl ⟨hb, rfl, hu''⟩⟩
    | hostWrite a v rest =>
      obtain ⟨e, he, hu'⟩ := State.Undisturbed.hostWrite (s := { s with moves := rest }) hu.with_rest hb hduty'
      refine ⟨operands_of_busyCase hb (.hostWrite a v rest), e :: new, ?_, .inl ⟨?_, ?_, hu'⟩⟩
      · rw [he]; exact congrArg (e :: ·) hhistory
      · exact (congrArg State.eng (block_hostWrite a v { s with moves := rest }) :).trans hb
      · rw [hostWrite_busy a v { s with moves := rest } hb]; rfl
    | hostRead a rest hread =>
      obtain ⟨b, -, rfl⟩ := hostRead_next a { s with moves := rest } t hread
      exact ⟨rfl, _ :: new, congrArg (_ :: ·) hhistory, .inl ⟨hb, rfl, (hu.with_event _).with_rest⟩⟩
  · cases hb.symm.trans hi

/-- A completed command that was accepted and kept undisturbed has met the contract. -/
theorem onContract_of_commandRun {u : State} (hchecked : startError (operands s) = none)
    (hrun : CommandRun (acceptCommand s) u) : OnContract (operands s) s.mem s.history u :=
  commandRun_induct hrun (fun _ _ => rfl) (onContract_acceptCommand hchecked)
    fun _ _ hb hcase _ hduty hduty' h => h.step hb hcase hduty hduty'

end

/-- Settles O51: every step keeps an undisturbed command on the contract. -/
theorem undisturbedDrawMeetsContract : Obligations.UndisturbedDrawMeetsContract := by
  intro f s t u hi _ hexec hb hrun hidle
  obtain ⟨rfl, hchecked⟩ := eq_acceptCommand_of_drawChar hi hexec hb
  obtain ⟨-, new, hhistory, ⟨hbusy, -⟩ | ⟨-, hmem, hdrop⟩⟩ :=
    onContract_of_commandRun (s := commandStart (storeCtrl f s)) hchecked hrun
  · cases hidle.symm.trans hbusy
  · exact ⟨new, hhistory, hmem, hdrop⟩

end Sys2Proof.Machine
end

section
/-! SUPPORT. The accesses of an undisturbed command counted: each byte it needs once, and no other
(41_draw_char.md R121, R131 to R133). -/

namespace Sys2Proof.Machine

/-! ## The account of an undisturbed command -/

/-- The word at an even frame offset has a lane that the command writes (R131). -/
def Touched (o : Operands) (m : Memory) (off : Nat) : Prop := off % 2 = 0 ∧ touchedLanes o m off ≠ []

/-- The accesses `new` of a command on memory `m` that has come to the position `work`: a column-clipped pixel is read
or left to read, no word is updated twice or held once updated, each word is written after its landed pixels are read,
and nothing is accessed but touched words and bitmap pixels of the kept rows. -/
structure AccessedOnce (o : Operands) (m : Memory) (work : Work) (new : List MemEvent) : Prop where
  clipped : ∀ p ∈ clippedPixels o, accessCount .read (bitmapAddr o p) new + work.mayRead.count p = 1
  updated : work.updated.Nodup
  held : ∀ off ∈ work.updated, heldValue off work.held = none
  writes : ∀ later w before, new = later ++ w :: before → w.agent = .engine → w.kind = .write →
    ∀ p ∈ landedPixels o m, w.addr = o.fbBase + pixelOffset o p → accessCount .read (bitmapAddr o p) before = 1
  only : ∀ e ∈ new, e.agent = .engine → (∃ off, Touched o m off ∧ e.addr = o.fbBase + off)
    ∨ (e.kind = .read ∧ ∃ p, (p ∈ keptPixels o ∨ p ∈ clippedPixels o) ∧ e.addr = bitmapAddr o p)

section
variable {s t : State} {o : Operands} {m : Memory} {work : Work} {new : List MemEvent} {e : MemEvent}

theorem writableWord_of_touched {off : Nat} (h : Touched o m off) : writableWord o off := by
  obtain ⟨p, hp, hd, ho⟩ := (wordLanes_ne_nil_iff o _ off).mp h.2
  exact ⟨p, keptPixel_of_landed hp, ho, hd⟩

theorem touched_of_pending (hduty : s.dutyKept) {off : Nat} (h : off ∈ pendingWords s) :
    Touched (operands s) s.atStart off := by
  obtain ⟨⟨p, hp, ho, hd⟩, -⟩ := touched_of_mem_pendingWords h
  rw [landed_of_dutyKept hduty] at hp
  exact ⟨writableWord_even (writableWord_of_pending h), (wordLanes_ne_nil_iff _ _ _).mpr ⟨p, hp, hd, ho⟩⟩

/-- A touched word is updated where none is pending. -/
theorem updated_of_touched (hduty : s.dutyKept) (hpending : pendingWords s = []) {off : Nat}
    (h : Touched (operands s) s.atStart off) : off ∈ s.work.updated := by
  obtain ⟨p, hp, hd, ho⟩ := (wordLanes_ne_nil_iff _ _ off).mp h.2
  rw [← landed_of_dutyKept hduty] at hp
  by_contra hnot
  have hmem := (mem_pendingWords s off).mpr ⟨⟨p, hp, hd, ho⟩, hnot⟩
  rw [hpending] at hmem
  cases hmem

/-- Two column-clipped pixels have their bytes at two addresses (R52). -/
theorem bitmapAddr_inj_of_clipped {p q : Pixel} (hp : p ∈ clippedPixels o) (hq : q ∈ clippedPixels o)
    (h : bitmapAddr o p = bitmapAddr o q) : p = q := by
  obtain ⟨hpx, -⟩ := (mem_clippedPixels o p).mp hp
  obtain ⟨hqx, -⟩ := (mem_clippedPixels o q).mp hq
  have hsum : p.y * o.w + p.x = q.y * o.w + q.x := by simp only [bitmapAddr] at h; omega
  have hx : p.x = q.x := by
    simpa [Nat.mul_add_mod_self_right, Nat.mod_eq_of_lt, hpx, hqx] using congrArg (· % o.w) hsum
  have hy : p.y = q.y := Nat.eq_of_mul_eq_mul_right (show 0 < o.w by omega) (by omega)
  obtain ⟨px, py⟩ := p
  obtain ⟨qx, qy⟩ := q
  exact Pixel.mk.injEq .. ▸ ⟨hx, hy⟩

theorem accessedOnce_startWork (o : Operands) (m : Memory) : AccessedOnce o m (startWork o) [] where
  clipped := fun p hp => by
    simpa [accessCount, startWork] using List.count_eq_one_of_mem (clippedPixels_nodup o) hp
  updated := List.nodup_nil
  held := fun _ h => by cases h
  writes := fun later _ _ h => by cases later <;> cases h
  only := fun _ h => by cases h

/-- What an event adds to the account. -/
theorem AccessedOnce.cons {work' : Work} (h : AccessedOnce o m work new)
    (clipped : ∀ p ∈ clippedPixels o, accessCount .read (bitmapAddr o p) (e :: new) + work'.mayRead.count p = 1)
    (updated : work'.updated.Nodup) (held : ∀ off ∈ work'.updated, heldValue off work'.held = none)
    (write : e.agent = .engine → e.kind = .write → ∀ p ∈ landedPixels o m, e.addr = o.fbBase + pixelOffset o p →
      accessCount .read (bitmapAddr o p) new = 1)
    (only : e.agent = .engine → (∃ off, Touched o m off ∧ e.addr = o.fbBase + off)
      ∨ (e.kind = .read ∧ ∃ p, (p ∈ keptPixels o ∨ p ∈ clippedPixels o) ∧ e.addr = bitmapAddr o p)) :
    AccessedOnce o m work' (e :: new) := by
  refine ⟨clipped, updated, held, fun later w before hsplit hagent hkind => ?_, List.forall_mem_cons.mpr ⟨only, h.only⟩⟩
  obtain ⟨rfl, hsame⟩ | ⟨later', rfl, hold⟩ := List.cons_eq_append_iff.mp hsplit
  · cases hsame
    exact write hagent hkind
  · exact h.writes later' w before hold hagent hkind

/-- An access of another agent leaves the account. -/
theorem AccessedOnce.cons_host (h : AccessedOnce o m work new) (he : e.agent = .host) :
    AccessedOnce o m work (e :: new) := by
  have not_engine {P : Prop} (h : e.agent = .engine) : P := by cases he.symm.trans h
  refine h.cons (fun p hp => ?_) h.updated h.held not_engine not_engine
  rw [accessCount_cons_of_not fun h => not_engine h.1]
  exact h.clipped p hp

/-- A frame access leaves the account of the column-clipped pixels. -/
theorem AccessedOnce.clipped_of_frameAccess (h : AccessedOnce o m work new) (hchecked : startError o = none) {off : Nat}
    (hoff : writableWord o off) (haddr : e.addr = o.fbBase + off) :
    ∀ p ∈ clippedPixels o, accessCount .read (bitmapAddr o p) (e :: new) + work.mayRead.count p = 1 := by
  intro p hp
  obtain ⟨hx, hy, -⟩ := (mem_clippedPixels o p).mp hp
  rw [accessCount_cons_of_not fun he => bitmapAddr_ne_wordAddr hchecked hx hy hoff (he.2.2.symm.trans haddr)]
  exact h.clipped p hp

/-- An engine access keeps the account. -/
theorem AccessedOnce.engineAccess (h : AccessedOnce (operands s) s.atStart s.work new) (hs : s.Reading)
    (hrec : Recorded (operands s) s.work new) (hduty : s.dutyKept) (hacc : EngineAccess s work e) :
    AccessedOnce (operands s) s.atStart work (e :: new) := by
  cases hacc with
  | @readPixel p b hp _ =>
    refine h.cons (fun q hq => ?_) h.updated h.held (fun _ hkind => by cases hkind)
      fun _ => .inr ⟨rfl, p, .inl (hs.kept p hp), rfl⟩
    rw [accessCount_cons_of_not fun he => bitmapAddr_ne_of_clipped hq (hs.kept p hp) he.2.2.symm]
    exact h.clipped q hq
  | @readClipped p value hp =>
    refine h.cons (fun q hq => ?_) h.updated h.held (fun _ hkind => by cases hkind)
      fun _ => .inr ⟨rfl, p, .inr (hs.clipped p hp), rfl⟩
    have hq' := h.clipped q hq
    by_cases hqp : q = p
    · subst hqp
      have hcount := List.count_pos_iff.mpr hp
      rw [accessCount_cons, if_pos ⟨rfl, rfl, rfl⟩, List.count_erase_self]
      omega
    · rw [accessCount_cons_of_not fun he => hqp (bitmapAddr_inj_of_clipped hq (hs.clipped p hp) he.2.2.symm),
        List.count_erase_of_ne hqp]
      exact hq'
  | @readFrame off size v hoff _ =>
    obtain ⟨-, hnot⟩ := touched_of_mem_pendingWords hoff
    refine h.cons (h.clipped_of_frameAccess hs.checked (writableWord_of_pending hoff) rfl) h.updated (fun b hb => ?_)
      (fun _ hkind => by cases hkind) fun _ => .inl ⟨off, touched_of_pending hduty hoff, rfl⟩
    refine (heldValue_cons v).trans ?_
    rw [if_neg fun (e : off = b) => hnot (e ▸ hb)]
    exact h.held b hb
  | @writeFrame off size v hoff _ hsettled =>
    obtain ⟨-, hnot⟩ := touched_of_mem_pendingWords hoff
    refine h.cons (h.clipped_of_frameAccess hs.checked (writableWord_of_pending hoff) rfl)
      (List.nodup_cons.mpr ⟨hnot, h.updated⟩) (fun b hb => ?_) (fun _ _ p hp haddr => ?_)
      fun _ => .inl ⟨off, touched_of_pending hduty hoff, rfl⟩
    · refine heldValue_filter.trans ?_
      split
      · rfl
      · rename_i hne
        exact h.held b ((List.mem_cons.mp hb).resolve_left fun e => hne e.symm)
    · have ho : pixelOffset (operands s) p = off := (Nat.add_left_cancel haddr).symm
      rw [← landed_of_dutyKept hduty] at hp
      have hread : p ∉ s.work.toRead := fun hr => (settled_iff s off).mp hsettled p hr ho hp
      have hpixel := hrec.pixels p (landed_subset_keptPixels hp)
      rwa [List.count_eq_zero_of_not_mem hread, Nat.add_zero] at hpixel

/-! ## The account along a run -/

/-- What a run of an undisturbed command on memory `m` keeps of its accesses since the history was `base`: their order
and their account at the engine's position, which at completion was the end of the work. -/
def AccountKept (o : Operands) (m : Memory) (base : List MemEvent) (s : State) : Prop :=
  operands s = o ∧ ∃ new work, s.history = new ++ base ∧ OrderKept o new ∧ Recorded o work new
    ∧ AccessedOnce o m work new
    ∧ (s.eng = .busy ∧ s.atStart = m ∧ s.work = work ∧ s.Reading
      ∨ s.eng = .idle ∧ work.toRead = [] ∧ ∀ off, Touched o m off → off ∈ work.updated)

variable {base : List MemEvent}

theorem accountKept_acceptCommand (hchecked : startError (operands s) = none) :
    AccountKept (operands s) s.mem s.history (acceptCommand s) :=
  ⟨rfl, [], _, rfl, ⟨fun _ _ => Nat.zero_le _, fun later _ _ h => by cases later <;> cases h⟩, recorded_startWork _,
    accessedOnce_startWork _ _, .inl ⟨rfl, rfl, rfl, State.Reading.acceptCommand hchecked⟩⟩

/-- An engine move that leaves the engine idle is completion, with nothing left to read or to update. -/
theorem nothing_left_of_performAction {a : Action} (hb : s.eng = .busy) (ha : a ∈ engineActions s)
    (h : performAction a s = .ok t) (hi : t.eng = .idle) : s.work.toRead = [] ∧ pendingWords s = [] := by
  obtain ⟨rfl, -⟩ | ⟨work, mem, history, rfl⟩ := performAction_fields h
  · exact (complete_mem_engineActions s).mp ha
  · cases hi.symm.trans hb

theorem AccountKept.step (h : AccountKept o m base s) (hb : s.eng = .busy) (hcase : BusyCase s t) (hduty : s.dutyKept) :
    AccountKept o m base t := by
  obtain ⟨rfl, new, work, hhistory, horder, hrec, honce, ⟨-, rfl, rfl, hs⟩ | ⟨hi, -⟩⟩ := h
  · have hreading := hs.step hb hcase
    cases hcase with
    | quiet => exact ⟨rfl, new, _, hhistory, horder, hrec, honce, .inl ⟨hb, rfl, rfl, hreading hb⟩⟩
    | engine moves draws ha hp =>
      have hs' : State.Reading { s with moves, draws } := hs.with_rest
      have hleft := nothing_left_of_performAction (s := { s with moves, draws }) hb ha hp
      obtain ⟨-, rfl⟩ | ⟨work, mem, e, hacc, rfl⟩ := engineAccess_of_performAction (s := { s with moves, draws }) ha hp
      · obtain ⟨hread, hpending⟩ := hleft rfl
        exact ⟨rfl, new, _, hhistory, horder, hrec, honce,
          .inr ⟨rfl, hread, fun off hoff => updated_of_touched hduty hpending hoff⟩⟩
      · exact ⟨rfl, e :: new, work, congrArg (e :: ·) hhistory,
          OrderKept.engineAccess (s := { s with moves, draws }) horder hs' hrec hacc,
          Recorded.engineAccess (s := { s with moves, draws }) hrec hs' hacc,
          AccessedOnce.engineAccess (s := { s with moves, draws }) honce hs' hrec hduty hacc,
          .inl ⟨hb, rfl, rfl, hreading hb⟩⟩
    | hostWrite a v rest =>
      rw [hostWrite_busy a v { s with moves := rest } hb] at hreading ⊢
      exact ⟨rfl, _ :: new, _, congrArg (_ :: ·) hhistory, horder.cons_host rfl, hrec.cons_host rfl,
        honce.cons_host rfl, .inl ⟨hb, rfl, rfl, hreading hb⟩⟩
    | hostRead a rest hread =>
      obtain ⟨b, -, rfl⟩ := hostRead_next a { s with moves := rest } t hread
      exact ⟨rfl, _ :: new, _, congrArg (_ :: ·) hhistory, horder.cons_host rfl, hrec.cons_host rfl,
        honce.cons_host rfl, .inl ⟨hb, rfl, rfl, hreading hb⟩⟩
  · cases hb.symm.trans hi

theorem accountKept_of_commandRun (hchecked : startError (operands s) = none)
    (hrun : CommandRun (acceptCommand s) t) : AccountKept (operands (acceptCommand s)) s.mem s.history t :=
  commandRun_induct hrun (fun _ _ => rfl) (accountKept_acceptCommand hchecked)
    fun _ _ hb hcase _ hduty _ h => h.step hb hcase hduty

/-! ## The counts at completion -/

/-- At the end of the work a touched word has been read once and written once. -/
theorem AccessedOnce.touched_counts (h : AccessedOnce o m work new) (hrec : Recorded o work new)
    (hall : ∀ off, Touched o m off → off ∈ work.updated) {off : Nat} (hoff : Touched o m off) :
    accessCount .read (o.fbBase + off) new = 1 ∧ accessCount .write (o.fbBase + off) new = 1 := by
  have hmem := hall off hoff
  have hwritable := writableWord_of_touched hoff
  have hcount := List.count_eq_one_of_mem h.updated hmem
  rw [hrec.reads off hwritable, hrec.writes off hwritable, h.held off hmem, hcount]
  exact ⟨rfl, rfl⟩

/-- The write of a touched word comes after its read and after the reads of its landed pixels. -/
theorem AccessedOnce.write_in_order (h : AccessedOnce o m work new) (horder : OrderKept o new) {off : Nat}
    (hwrite : accessCount .write (o.fbBase + off) new = 1) :
    ∃ later w before, new = later ++ w :: before ∧ w.agent = .engine ∧ w.kind = .write ∧ w.addr = o.fbBase + off
      ∧ accessCount .read (o.fbBase + off) before = 1
      ∧ ∀ p ∈ landedPixels o m, pixelOffset o p = off → accessCount .read (bitmapAddr o p) before = 1 := by
  obtain ⟨w, hw, hevent⟩ := List.countP_pos_iff.mp (Nat.lt_of_lt_of_eq Nat.zero_lt_one hwrite.symm)
  simp only [Bool.and_eq_true, beq_iff_eq] at hevent
  obtain ⟨⟨hagent, hkind⟩, haddr⟩ := hevent
  obtain ⟨later, before, hsplit⟩ := List.append_of_mem hw
  obtain ⟨_, -, -, hread, -⟩ := horder.writes later w before hsplit hagent hkind
  refine ⟨later, w, before, hsplit, hagent, hkind, haddr, haddr ▸ hread, fun p hp ho => ?_⟩
  exact h.writes later w before hsplit hagent hkind p hp (haddr.trans (by rw [ho]))

/-- An address of no touched word is never written, and read only as that of a pixel of a kept row. -/
theorem AccessedOnce.count_eq_zero (h : AccessedOnce o m work new) {kind : AccessKind} {a : Nat}
    (hword : ∀ off, Touched o m off → a ≠ o.fbBase + off)
    (hpixel : kind = .read → ∀ p, p ∈ keptPixels o ∨ p ∈ clippedPixels o → a ≠ bitmapAddr o p) :
    accessCount kind a new = 0 := by
  refine List.countP_eq_zero.mpr fun e he hevent => ?_
  simp only [Bool.and_eq_true, beq_iff_eq] at hevent
  obtain ⟨⟨hagent, rfl⟩, rfl⟩ := hevent
  obtain ⟨off, hoff, haddr⟩ | ⟨hread, p, hp, haddr⟩ := h.only e he hagent
  · exact hword off hoff haddr
  · exact hpixel hread p hp haddr

end

/-- Settles O52: the account of the run, read off at completion. -/
theorem eachWordReadOnceWrittenOnce : Obligations.EachWordReadOnceWrittenOnce := by
  intro f s t u hi _ hexec hb hrun hidle
  obtain ⟨rfl, hchecked⟩ := eq_acceptCommand_of_drawChar hi hexec hb
  obtain ⟨-, new, work, hhistory, horder, hrec, honce, ⟨hbusy, -⟩ | ⟨-, hread, hall⟩⟩ :=
    accountKept_of_commandRun (s := commandStart (storeCtrl f s)) hchecked hrun
  · cases hidle.symm.trans hbusy
  replace hhistory : u.history = new ++ s.history := hhistory
  simp only [hhistory, accessCount_append, Nat.add_sub_cancel]
  refine ⟨fun p hp => ?_, fun p hp => ?_, fun off hoff => honce.touched_counts hrec hall hoff, fun off hoff => ?_,
    fun a ha => ⟨honce.count_eq_zero ha (fun h => by cases h), fun hpixel => honce.count_eq_zero ha fun _ => hpixel⟩⟩
  · have hpixel := hrec.pixels p hp
    rwa [hread, List.count_nil, Nat.add_zero] at hpixel
  · exact Nat.le_of_add_right_le (honce.clipped p hp).le
  · obtain ⟨-, hwrite⟩ := honce.touched_counts hrec hall hoff
    obtain ⟨later, w, before, rfl, hagent, hkind, haddr, hword, hpixels⟩ := honce.write_in_order horder hwrite
    refine ⟨later, w, before ++ s.history, by simp, hagent, hkind, haddr, List.suffix_append _ _, ?_, fun p hp ho => ?_⟩
    · rw [accessCount_append, hword, Nat.add_comm]
    · rw [accessCount_append, hpixels p hp ho, Nat.add_comm]

end Sys2Proof.Machine
end

section
/-! SUPPORT. CTRL.FAST is stored and read back and decides nothing (41_draw_char.md R143): each operation answers the
state without FAST as it answers the state, but for FAST. -/

namespace Sys2Proof.Machine

/-- The operation answers alike for states that differ in FAST only. -/
def IgnoresFast (g : State → Host.Outcome State Fault Refusal) : Prop :=
  ∀ s, mapNext State.noFast (g s.noFast) = mapNext State.noFast (g s)

section
variable {s t : State}

theorem IgnoresFast.of_noFast_eq {g : State → Host.Outcome State Fault Refusal} (hg : IgnoresFast g)
    (h : s.noFast = t.noFast) : mapNext State.noFast (g s) = mapNext State.noFast (g t) := by
  rw [← hg s, ← hg t, h]

/-! ## Instructions -/

theorem ignoresFast_drawCharStart : IgnoresFast fun s => drawCharStart (commandStart s) := by
  intro s
  have hcheck : startError (operands (commandStart s.noFast)) = startError (operands (commandStart s)) := rfl
  have hdevice : onDevice (commandStart s.noFast).devices (operands (commandStart s.noFast))
      = onDevice (commandStart s).devices (operands (commandStart s)) := rfl
  simp only [drawCharStart, hcheck, hdevice]
  cases startError (operands (commandStart s)) with
  | some c => rfl
  | none => cases onDevice (commandStart s).devices (operands (commandStart s)) <;> rfl

/-- A CTRL write stores its own FAST, so the one before plays no part. -/
theorem ignoresFast_ctrlWrite (f : CtrlFields) (command : State → Host.Outcome State Fault Refusal) :
    IgnoresFast (ctrlWrite f command) := by
  intro s
  obtain hi | hb := eng_idle_or_busy s
  · rw [ctrlWrite_idle f command hi, ctrlWrite_idle (s := s.noFast) f command hi]; rfl
  · rw [ctrlWrite_busy f command hb, ctrlWrite_busy (s := s.noFast) f command hb]; rfl

/-- Two CTRL writes that differ in FAST give a command that ignores it the same state but for FAST. -/
theorem ctrlWrite_fast {command : State → Host.Outcome State Fault Refusal} (hc : IgnoresFast command) (f : CtrlFields)
    (b : Bool) (s : State) :
    mapNext State.noFast (ctrlWrite { f with fast := b } command s) = mapNext State.noFast (ctrlWrite f command s) := by
  obtain hi | hb := eng_idle_or_busy s
  · rw [ctrlWrite_idle f command hi, ctrlWrite_idle _ command hi]
    exact hc.of_noFast_eq rfl
  · rw [ctrlWrite_busy f command hb, ctrlWrite_busy _ command hb]

theorem ignoresFast_operandWrite {store : State → State} (h : ∀ s, (store s.noFast).noFast = (store s).noFast) :
    IgnoresFast fun s => operandWrite (store s) s := by
  intro s
  obtain hi | hb := eng_idle_or_busy s
  · simp only [operandWrite_idle _ hi, operandWrite_idle (s := s.noFast) _ hi, mapNext, h]
  · simp only [operandWrite_busy _ hb, operandWrite_busy (s := s.noFast) _ hb]; rfl

/-- FAST is in the word of CTRL and in no other. -/
theorem regRead_noFast {r : RegName} (hr : r ≠ .ctrl) : regRead r s.noFast = regRead r s := by
  cases r with
  | ctrl => exact absurd rfl hr
  | _ => rfl

/-- Every instruction but a read of CTRL ignores FAST. -/
theorem ignoresFast_exec {i : Instr} (hread : i ≠ .rd .ctrl) : IgnoresFast (exec i) := by
  cases i with
  | nop f => exact ignoresFast_ctrlWrite f .next
  | drawChar f => exact ignoresFast_ctrlWrite f fun t => drawCharStart (commandStart t)
  | reservedCmd23 f | reservedCmd47 f | reservedCmd8F f => exact ignoresFast_ctrlWrite f reservedCommand
  | wrFbBase v => exact ignoresFast_operandWrite (store := fun s => { s with fbBase := v }) fun _ => rfl
  | wrFbLen v => exact ignoresFast_operandWrite (store := fun s => { s with fbLen := v }) fun _ => rfl
  | wrBmBase v => exact ignoresFast_operandWrite (store := fun s => { s with bmBase := v }) fun _ => rfl
  | wrBmSize h w => exact ignoresFast_operandWrite (store := fun s => { s with bmSize := h ++ w }) fun _ => rfl
  | wrXOffset v => exact ignoresFast_operandWrite (store := fun s => { s with xOffset := v }) fun _ => rfl
  | wrYOffset v => exact ignoresFast_operandWrite (store := fun s => { s with yOffset := v }) fun _ => rfl
  | wrPhase d p => exact ignoresFast_operandWrite (store := fun s => { s with phase := p }) fun _ => rfl
  | wrStatus | wrRo9 | wrRoAB | wrRoCF => exact fun _ => rfl
  | rd r =>
    intro s
    have hr : r ≠ .ctrl := fun e => hread (e ▸ rfl)
    simp only [exec, execRd, readRegister, regRead_noFast hr]
    rfl

/-! ## The engine -/

/-- The moves to come, the draws and FAST play no part in an engine move. -/
theorem performAction_with (a : Action) (s : State) (fast : Bool) (moves : List Move) (draws : Nat) :
    performAction a { s with fast, moves, draws }
      = (performAction a s).map fun t => { t with fast, moves, draws } := by
  have hbyte (p : Pixel) : bitmapByte { s with fast, moves, draws }
      (bitmapAddr (operands { s with fast, moves, draws }) p) = bitmapByte s (bitmapAddr (operands s) p) := rfl
  have hfate (off : Nat) : wordFate (operands { s with fast, moves, draws }) off = wordFate (operands s) off := rfl
  have hbase : (operands { s with fast, moves, draws }).fbBase = (operands s).fbBase := rfl
  cases a with
  | readPixel p =>
    simp only [performAction, readPixelStep, hbyte]
    cases bitmapByte s (bitmapAddr (operands s) p) <;> rfl
  | readClipped p =>
    simp only [performAction, readClippedStep, hbyte]
    cases bitmapByte s (bitmapAddr (operands s) p) <;> rfl
  | readFrame off =>
    simp only [performAction, readFrameStep, hfate, hbase]
    cases wordFate (operands s) off with
    | whole => cases s.mem.readWord ((operands s).fbBase + off) <;> rfl
    | firstByte | dropped => cases s.mem.read ((operands s).fbBase + off) <;> rfl
  | writeFrame off =>
    simp only [performAction, writeFrameStep, hfate]
    cases heldValue off s.work.held with
    | none => rfl
    | some v => cases wordFate (operands s) off <;> rfl
  | complete => rfl

theorem performAction_noFast (a : Action) (s : State) :
    performAction a s.noFast = (performAction a s).map State.noFast := by
  refine (performAction_with a s false s.moves s.draws).trans ?_
  cases hp : performAction a s with
  | error b => rfl
  | ok t =>
    obtain ⟨-, rfl⟩ | ⟨work, mem, history, rfl⟩ := performAction_fields hp <;> rfl

theorem engineMove_noFast (k : Nat) (s : State) : engineMove k s.noFast = (engineMove k s).map State.noFast := by
  obtain ⟨hi, e⟩ | ⟨hb, a, hpick, -, e⟩ := engineMove_cases k s
  · obtain ⟨-, e'⟩ | ⟨hb, -⟩ := engineMove_cases k s.noFast
    · rw [e, e']; rfl
    · cases hi.symm.trans hb
  · rw [e, engineMove_of_pickAction (s := s.noFast) hb hpick, performAction_noFast]

theorem afterEngine_noFast (k : Nat) (s : State) : afterEngine k s.noFast = (afterEngine k s).noFast := by
  rw [afterEngine, afterEngine, engineMove_noFast]
  cases engineMove k s <;> rfl

theorem engineRun_noFast (n : Nat) (s : State) : engineRun n s.noFast = (engineRun n s).noFast := by
  induction n generalizing s with
  | zero => rfl
  | succ n ih =>
    rw [engineRun, engineRun, ← ih, ← afterEngine_noFast]
    rfl

theorem ignoresFast_engineAlone : IgnoresFast engineAlone := by
  intro s
  have hmove := engineMove_noFast (Config.engineOrder s.draws) { s with draws := s.draws + 1 }
  have hdraws : s.noFast.draws = s.draws := rfl
  simp only [engineAlone, hdraws]
  rw [show { s.noFast with draws := s.draws + 1 } = State.noFast { s with draws := s.draws + 1 } from rfl, hmove]
  cases engineMove (Config.engineOrder s.draws) { s with draws := s.draws + 1 } <;> rfl

/-! ## The other agents -/

theorem hostWrite_noFast (a : Word) (v : Byte) (s : State) : hostWrite a v s.noFast = (hostWrite a v s).noFast := by
  obtain hi | hb := eng_idle_or_busy s
  · rw [hostWrite_idle a v s hi, hostWrite_idle a v s.noFast hi]; rfl
  · rw [hostWrite_busy a v s hb, hostWrite_busy a v s.noFast hb]; rfl

theorem ignoresFast_hostRead (a : Word) : IgnoresFast (hostRead a) := by
  intro s
  have hvalue : hostReadValue s.noFast a.toNat = hostReadValue s a.toNat := rfl
  simp only [hostRead, hvalue]
  cases hostReadValue s a.toNat <;> rfl

theorem abandonCommand_noFast (s : State) : abandonCommand s.noFast = (abandonCommand s).noFast := by
  obtain ⟨hi, e⟩ | ⟨hb, e⟩ := abandonCommand_cases s <;>
    obtain ⟨hi', e'⟩ | ⟨hb', e'⟩ := abandonCommand_cases s.noFast <;> rw [e, e']
  · cases hi.symm.trans hb'
  · cases hi'.symm.trans hb
  · exact engineRun_noFast _ { s with draws := s.draws + 1 }

/-- Reset clears FAST with the rest. -/
theorem setRst_noFast (asserted : Bool) (s : State) :
    (setRst asserted s.noFast).noFast = (setRst asserted s).noFast := by
  cases asserted with
  | false => rfl
  | true => simp only [setRst, assertReset, abandonCommand_noFast, if_true]; rfl

/-! ## A step -/

theorem ignoresFast_serveReg {a : RegAccess} (hread : fetchReg a ≠ .ok (.rd .ctrl)) : IgnoresFast (serveReg a) := by
  intro s
  have hrst : s.noFast.rst = s.rst := rfl
  simp only [serveReg, hrst]
  cases s.rst with
  | true => rfl
  | false =>
    cases hfetch : fetchReg a with
    | error r => rfl
    | ok i => exact ignoresFast_exec (fun e => hread (e ▸ hfetch)) s

/-- The machine serves every move alike but for FAST, unless the move is a read of CTRL that it serves. -/
theorem serve_noFast {m : Move} {rest : List Move} (hm : s.moves = m :: rest)
    (hread : servedInstr s ≠ some (.rd .ctrl)) :
    mapNext State.noFast (serve m (State.noFast { s with moves := rest }))
      = mapNext State.noFast (serve m { s with moves := rest }) := by
  have hreg (a : RegAccess) (hserved : s.rst = false → servedInstr s = (fetchReg a).toOption) :
      mapNext State.noFast (serveReg a (State.noFast { s with moves := rest }))
        = mapNext State.noFast (serveReg a { s with moves := rest }) := by
    cases hrst : s.rst with
    | true => simp only [serveReg, State.noFast, if_true]; rfl
    | false => exact ignoresFast_serveReg (fun e => hread ((hserved hrst).trans (by rw [e]; rfl))) _
  cases m with
  | reg a => exact hreg a fun hrst => by simp [servedInstr, hm, hrst]
  | bus b =>
    cases hb : busToReg b with
    | none => simp only [serve, hb]; rfl
    | some a =>
      simp only [serve, hb]
      exact hreg a fun hrst => by simp [servedInstr, hm, hrst, hb]
  | memWrite a v => simp only [serve, hostWrite_noFast]; rfl
  | memRead a => exact ignoresFast_hostRead a _
  | rst asserted => simp only [serve, mapNext, setRst_noFast]
  | grant k =>
    have hrst : (State.noFast { s with moves := rest }).rst = s.rst := rfl
    simp only [serve, engineGranted, afterEngine_noFast, hrst]
    cases s.rst <;> rfl

theorem step_noFast (hread : servedInstr s ≠ some (.rd .ctrl)) :
    mapNext State.noFast (step s.noFast) = mapNext State.noFast (step s) := by
  cases hm : s.moves with
  | cons m rest =>
    rw [step_cons hm, step_cons (s := s.noFast) hm]
    exact serve_noFast hm hread
  | nil =>
    obtain hi | hb := eng_idle_or_busy s <;> cases hrst : s.rst
    · simp [step, State.noFast, hm, hrst, hi, mapNext]
    · simp [step, State.noFast, hm, hrst, mapNext]
    · rw [step_alone hrst hb hm, step_alone (s := s.noFast) hrst hb hm]
      exact ignoresFast_engineAlone s
    · simp [step, State.noFast, hm, hrst, mapNext]

theorem fetchReg_of_toOption {a : RegAccess} {i : Instr} (h : (fetchReg a).toOption = some i) :
    fetchReg a = .ok i := by
  cases hf : fetchReg a <;> rw [hf] at h <;> cases h
  rfl

/-- A step that serves an instruction runs it on the state with its move taken off. -/
theorem step_of_servedInstr {i : Instr} (h : servedInstr s = some i) :
    step s = exec i { s with moves := s.moves.tail } := by
  unfold servedInstr at h
  split at h
  · rename_i a rest hm
    obtain ⟨hrst, hfetch⟩ := Option.ite_none_left_eq_some.mp h
    rw [step_cons hm, hm]
    exact serveReg_of_fetchReg_ok (s := { s with moves := rest }) (by simpa using hrst) (fetchReg_of_toOption hfetch)
  · rename_i b rest hm
    obtain ⟨hrst, hbus⟩ := Option.ite_none_left_eq_some.mp h
    obtain ⟨a, hb, hfetch⟩ := Option.bind_eq_some_iff.mp hbus
    rw [step_bus hm hb, hm]
    exact serveReg_of_fetchReg_ok (s := { s with moves := rest }) (by simpa using hrst) (fetchReg_of_toOption hfetch)
  · cases h

/-- But for bit 5 CTRL reads the same whatever FAST is. -/
theorem ctrlWord_masked (s : State) (b : Bool) :
    ctrlWord { s with fast := b } &&& ~~~(0x20#32) = ctrlWord s &&& ~~~(0x20#32) := by
  have hbit : ∀ clip fast irq : Bool,
      (0#25 ++ BitVec.ofBool clip ++ BitVec.ofBool fast ++ BitVec.ofBool irq ++ 0#4 : Word) &&& ~~~(0x20#32)
        = (0#25 ++ BitVec.ofBool clip ++ 0#1 ++ BitVec.ofBool irq ++ 0#4 : Word) &&& ~~~(0x20#32) := by decide
  exact (hbit s.byteClip b s.irqEn).trans (hbit s.byteClip s.fast s.irqEn).symm

end

/-- Settles O35: no operation but the read of CTRL looks at FAST. -/
theorem fastIsOnlyAHint : Obligations.FastIsOnlyAHint := by
  refine ⟨fun s b hread => ?_, fun s b hread => ?_, fun f c s b => ⟨?_, ?_, ?_, ?_, ?_⟩⟩
  · rw [← step_noFast hread, ← step_noFast (s := { s with fast := b }) hread]
    rfl
  · rw [step_of_servedInstr hread, step_of_servedInstr (s := { s with fast := b }) hread]
    have hmasked := ctrlWord_masked { s with moves := s.moves.tail } b
    exact congrArg (fun w => Host.Outcome.next { State.noFast { s with moves := s.moves.tail } with regData := w })
      hmasked
  · exact ctrlWrite_fast (fun _ => rfl) f b s
  · exact ctrlWrite_fast ignoresFast_drawCharStart f b s
  all_goals exact ctrlWrite_fast (fun _ => rfl) f b s

end Sys2Proof.Machine
end

section
/-! SUPPORT. Grants bring an undisturbed command whose bytes are backed to its end, and the command of one pixel at the
origin of the buffer (41_draw_char.md R139). -/

namespace Sys2Proof.Machine

/-! ## Undisturbed commands whose bytes are backed -/

section
variable {s t : State} {o : Operands} {m : Memory} {base new : List MemEvent}

/-- The byte of a bitmap pixel is as at acceptance, and the engine reads that. -/
theorem State.Undisturbed.bitmapByte_eq (hu : s.Undisturbed new) (hduty : s.dutyKept) {p : Pixel}
    (hx : p.x < (operands s).w) (hy : p.y < (operands s).h) :
    bitmapByte s (bitmapAddr (operands s) p) = s.atStart.read (bitmapAddr (operands s) p) := by
  have hcovers := bitmapAddr_in_range (operands s) p hx hy
  have hnone := hduty _ (.inr hcovers)
  simp only [bitmapByte, hnone]
  refine hu.others _ (fun off hoff => ?_) (.inr (.inl hcovers))
  cases (frameWordOf_bitmapAddr hu.checked hx hy).symm.trans hoff

/-- An undisturbed command finds every byte that it needs, where all were backed at acceptance. -/
theorem stuckAt_of_commandBacked (hu : s.Undisturbed new) (hduty : s.dutyKept) (hs : s.Reading)
    (hbacked : commandBacked (operands s) s.atStart) {a : Action} (ha : a ∈ engineActions s) : stuckAt s a = none := by
  obtain ⟨hbitmap, hframe⟩ := hbacked
  have hread {p : Pixel} (hp : p ∈ s.work.toRead ∨ p ∈ s.work.mayRead) :
      (bitmapByte s (bitmapAddr (operands s) p)).isNone = false := by
    obtain ⟨hx, hy⟩ := hs.in_bitmap hp
    rw [hu.bitmapByte_eq hduty hx hy, Option.isNone_eq_false_iff]
    exact hbitmap _ (bitmapAddr_in_range _ p hx hy)
  obtain ⟨p, hp, rfl⟩ | ⟨p, hp, rfl⟩ | ⟨off, hoff, ha⟩ | ⟨rfl, -⟩ := (mem_engineActions s a).mp ha
  · simp [stuckAt, hread (.inl hp)]
  · simp [stuckAt, hread (.inr hp)]
  · obtain ⟨rfl, -⟩ | ⟨rfl, -⟩ := (mem_wordActions s off a).mp ha
    · have hany : (wordAddrs (operands s) off).any (fun b => (s.mem.read b).isNone) = false :=
        List.any_eq_false.mpr fun b hb => by
          obtain ⟨-, hlanes⟩ := touched_of_pending hduty hoff
          simp [hu.read_of_pending hoff b hb, Option.isSome_iff_ne_none.mp (hframe off hlanes b hb)]
      simp only [stuckAt, hany, Bool.false_eq_true, if_false]
    · rfl
  · rfl

/-- A grant to an idle engine changes nothing. -/
theorem step_grant_of_idle {k : Nat} {rest : List Move} (hi : s.eng = .idle) (hm : s.moves = .grant k :: rest) :
    step s = .next { s with moves := rest } := by
  have hstay : afterEngine k { s with moves := rest } = { s with moves := rest } :=
    (afterEngine_cases k _).resolve_right fun ⟨hb, _⟩ => by cases hi.symm.trans hb
  rw [step_cons hm]
  simp only [serve, engineGranted, hstay, ite_self]

theorem run_succ {n : Nat} (h : step s = .next t) :
    Host.Core.run Sys2Proof.core (n + 1) s = Host.Core.run Sys2Proof.core n t := by
  have hstep : Sys2Proof.core.step s = .next t := h
  simp only [Host.Core.run, hstep]

theorem OnContract.with_grants {ks : List Nat} (h : OnContract o m base s) : OnContract o m base (s.withGrants ks) := by
  obtain ⟨ho, new, hhistory, ⟨hb, hstart, hu⟩ | hdone⟩ := h
  · exact ⟨ho, new, hhistory, .inl ⟨hb, hstart, hu.with_rest⟩⟩
  · exact ⟨ho, new, hhistory, .inr hdone⟩

/-- Grants bring an undisturbed command whose bytes are backed to completion, in any order, as many as it has moves
left (R180, R182). -/
theorem run_grants_onContract (hbacked : commandBacked o m) (ks : List Nat) (s : State) (h : OnContract o m base s)
    (hbusy : s.eng = .busy → s.rst = false ∧ s.dutyKept ∧ s.Reading ∧ engineBudget s ≤ ks.length) :
    ∃ u, Host.Core.run Sys2Proof.core ks.length (s.withGrants ks) = .next u ∧ u.eng = .idle
      ∧ OnContract o m base u := by
  induction ks generalizing s with
  | nil =>
    obtain hi | hb := eng_idle_or_busy s
    · exact ⟨_, rfl, hi, h.with_grants⟩
    · obtain ⟨-, -, -, hbudget⟩ := hbusy hb
      rw [engineBudget_eq, List.length_nil] at hbudget
      omega
  | cons k ks ih =>
    obtain hi | hb := eng_idle_or_busy s
    · have hstep := step_grant_of_idle (s := s.withGrants (k :: ks)) hi rfl
      rw [List.length_cons, run_succ hstep]
      exact ih s h fun hb => by cases hi.symm.trans hb
    · obtain ⟨hrst, hduty, hs, hbudget⟩ := hbusy hb
      obtain ⟨a, ha, hpick⟩ := exists_pickAction k (s.withGrants ks)
      have hstuck : stuckAt (s.withGrants ks) a = none := by
        obtain ⟨rfl, new, -, ⟨-, rfl, hu⟩ | ⟨hi, -⟩⟩ := h
        · exact stuckAt_of_commandBacked (s := s.withGrants ks) hu.with_rest hduty hs.with_rest hbacked ha
        · cases hi.symm.trans hb
      obtain ⟨b, hstuck', -⟩ | ⟨-, t, ht⟩ := performAction_cases ha
      · cases hstuck.symm.trans hstuck'
      have hstep : step (s.withGrants (k :: ks)) = .next t := by
        refine (step_grant (s := s.withGrants (k :: ks)) (k := k) (rest := ks.map .grant) hrst rfl).trans ?_
        exact congrArg _ (afterEngine_of_ok (s := s.withGrants ks) hb hpick ht)
      have hcase : BusyCase s t := .engine (ks.map .grant) s.draws ha ht
      have hduty' : t.dutyKept := by
        refine State.dutyKept.step (s := s.withGrants (k :: ks)) hduty hb (fun m hm => ?_) hstep
        cases hm
        rfl
      have hmoves : t = t.withGrants ks ∧ t.rst = s.rst := by
        obtain ⟨-, rfl⟩ | ⟨_, _, _, rfl⟩ := performAction_fields ht <;> exact ⟨rfl, rfl⟩
      have hless := engineBudget_lt_of_performAction ha ht
      rw [List.length_cons, run_succ hstep, hmoves.1]
      refine ih t (h.step hb hcase hduty hduty') fun hbt => ⟨hmoves.2.trans hrst, hduty', hs.step hb hcase hbt, ?_⟩
      obtain hi | hless := hless
      · cases hi.symm.trans hbt
      · exact Nat.le_of_lt_succ (hless.trans_le hbudget)

end

/-! ## One opaque pixel at the origin (R139) -/

/-- The bitmap is one pixel, and the offsets put it at the first column of row 0 that the clips keep. -/
structure Operands.OneAtOrigin (o : Operands) : Prop where
  width : o.w = 1
  height : o.h = 1
  left : o.xo = 8
  top : o.yo = 0

namespace Operands.OneAtOrigin
variable {o : Operands} {m : Memory} {b : Byte}

theorem keptRows_eq (ho : o.OneAtOrigin) : keptRows o = [0] := by
  simp only [keptRows, ho.height, ho.top]
  decide

theorem keptPixels_eq (ho : o.OneAtOrigin) : keptPixels o = [⟨0, 0⟩] := by
  simp only [keptPixels, ho.keptRows_eq, List.flatMap_singleton, rowPixels, ho.width, ho.left]
  decide

theorem clippedPixels_eq (ho : o.OneAtOrigin) : clippedPixels o = [] := by
  simp only [clippedPixels, ho.keptRows_eq, List.flatMap_singleton, rowPixels, ho.width, ho.left]
  decide

theorem pixelOffset_eq (ho : o.OneAtOrigin) : pixelOffset o ⟨0, 0⟩ = 2645636 := by
  simp only [pixelOffset, ho.left, ho.top]
  decide

theorem pixelLane_eq (ho : o.OneAtOrigin) : pixelLane o ⟨0, 0⟩ = 0 := by
  simp only [pixelLane, ho.left]
  decide

theorem bitmapAddr_origin (o : Operands) : bitmapAddr o ⟨0, 0⟩ = o.bmBase := by
  simp [bitmapAddr]

theorem landedPixels_eq (ho : o.OneAtOrigin) (hread : m.read o.bmBase = some b) (hb : b ≠ 0) :
    landedPixels o m = [⟨0, 0⟩] := by
  have hopaque : opaqueAt m (bitmapAddr o ⟨0, 0⟩) = true :=
    (opaqueAt_iff _ _).mpr ⟨b, (bitmapAddr_origin o).symm ▸ hread, hb⟩
  rw [landedPixels, ho.keptPixels_eq, List.filter_singleton, hopaque, cond_true]

/-- Lane 0 is in the high byte, which no byte-clip writes: only a whole word takes the pixel. -/
theorem pixelDropped_iff (ho : o.OneAtOrigin) : pixelDropped o ⟨0, 0⟩ = false ↔ 2645638 ≤ o.fbLen := by
  rw [pixelDropped_eq_false, ho.pixelOffset_eq, ho.pixelLane_eq]
  simp [Nat.lt_iff_add_one_le]

theorem mem_touchedLanes_iff (ho : o.OneAtOrigin) (hread : m.read o.bmBase = some b) (hb : b ≠ 0)
    (hlen : 2645638 ≤ o.fbLen) (off : Nat) (i : Fin 8) : i ∈ touchedLanes o m off ↔ off = 2645636 ∧ i = 0 := by
  rw [touchedLanes, mem_wordLanes_iff, ho.landedPixels_eq hread hb]
  simp only [List.mem_singleton, exists_eq_left, ho.pixelDropped_iff.mpr hlen, ho.pixelOffset_eq, ho.pixelLane_eq,
    true_and, eq_comm]

/-- The word of the pixel has the phase in its two top bits. -/
theorem drawnWord_eq (ho : o.OneAtOrigin) (hread : m.read o.bmBase = some b) (hb : b ≠ 0) (hlen : 2645638 ≤ o.fbLen)
    {v : PixelWord} (hv : m.readWord (o.fbBase + 2645636) = some v) :
    drawnWord o m 2645636 = some (o.phase ++ v.extractLsb' 0 14) := by
  rw [drawnWord_eq_setLanes rfl hv, Option.some.injEq]
  refine BitVec.eq_of_getLsbD_eq fun k hk => ?_
  have hlane : laneAt k ∈ touchedLanes o m 2645636 ↔ ¬ k < 14 := by
    rw [ho.mem_touchedLanes_iff hread hb hlen, eq_comm (b := (0 : Fin 8)), eq_laneAt_iff, Fin.val_zero]
    omega
  rw [getLsbD_setLanes v _ _ hk, BitVec.getLsbD_append, BitVec.getLsbD_extractLsb']
  by_cases hlow : k < 14
  · simp [hlane, hlow]
  · simp [hlane, hlow, show k % 2 = k - 14 by omega]

theorem drawDropCount_eq (ho : o.OneAtOrigin) (hread : m.read o.bmBase = some b) (hb : b ≠ 0) :
    drawDropCount o m = if pixelDropped o ⟨0, 0⟩ then 1 else 0 := by
  rw [drawDropCount, droppedCount, ho.landedPixels_eq hread hb, List.filter_singleton]
  cases pixelDropped o ⟨0, 0⟩ <;> rfl

/-- The command needs the bitmap's byte and the two bytes of the word. -/
theorem commandBacked (ho : o.OneAtOrigin) (hread : m.read o.bmBase = some b) (hb : b ≠ 0) (hlen : 2645638 ≤ o.fbLen)
    {v : PixelWord} (hv : m.readWord (o.fbBase + 2645636) = some v) : commandBacked o m := by
  obtain ⟨h0, h1⟩ := Memory.readWord_eq_some hv
  refine ⟨fun a ha => ?_, fun off hlanes a ha => ?_⟩
  · rw [Region.covers_iff] at ha
    simp only [bitmapRange, ho.width, ho.height] at ha
    obtain rfl : a = o.bmBase := by omega
    exact Option.isSome_iff_exists.mpr ⟨b, hread⟩
  · obtain ⟨i, hi⟩ := List.exists_mem_of_ne_nil _ hlanes
    obtain ⟨rfl, -⟩ := (ho.mem_touchedLanes_iff hread hb hlen off i).mp hi
    obtain ⟨-, rfl | rfl⟩ | ⟨-, -, rfl⟩ := mem_wordAddrs.mp ha
    · exact Option.isSome_iff_exists.mpr ⟨_, h0⟩
    · exact Option.isSome_iff_exists.mpr ⟨_, h1⟩
    · exact Option.isSome_iff_exists.mpr ⟨_, h0⟩

end Operands.OneAtOrigin

section
variable {s u : State} {b : Byte}

/-- The bitmap read of a pixel whose byte is there. -/
theorem readPixelStep_of_byte {p : Pixel} (h : bitmapByte s (bitmapAddr (operands s) p) = some b) :
    readPixelStep p s = .ok (logEngine .read (bitmapAddr (operands s) p) 1 (b.setWidth 16)
      { s with work := { s.work with toRead := s.work.toRead.erase p } }) := by
  simp only [readPixelStep, h]

/-- A word of the frame is as the contract says when a command has completed. -/
theorem OnContract.readWord_eq_drawnWord {o : Operands} {m : Memory} {base : List MemEvent} {off : Nat}
    (h : OnContract o m base u) (hi : u.eng = .idle) (hlen : off + 1 < o.fbLen) :
    u.mem.readWord (o.fbBase + off) = drawnWord o m off ∧ u.dropCount = BitVec.ofNat 32 (drawDropCount o m) := by
  obtain ⟨-, new, -, ⟨hb, -⟩ | ⟨-, hmem, hdrop⟩⟩ := h
  · cases hi.symm.trans hb
  · have hread (a : Nat) (hlow : o.fbBase ≤ a) (hhigh : a ≤ o.fbBase + off + 1) : u.mem.read a = drawByte o m a :=
      hmem a (.inl ((Region.covers_iff _ _).mpr ⟨hlow, show a < o.fbBase + o.fbLen by omega⟩))
    refine ⟨?_, hdrop⟩
    rewrite [Memory.readWord, drawnWord, hread _ (by omega) (by omega), hread (_ + 1) (by omega) le_rfl]
    rfl

theorem work_acceptCommand_origin (ho : (operands s).OneAtOrigin) :
    (acceptCommand s).work = { toRead := [⟨0, 0⟩], mayRead := [], held := [], updated := [] } :=
  congrArg₂ (Work.mk · · [] []) ho.keptPixels_eq ho.clippedPixels_eq

theorem pendingWords_acceptCommand_origin (ho : (operands s).OneAtOrigin)
    (hread : s.mem.read (operands s).bmBase = some b) (hb : b ≠ 0) :
    pendingWords (acceptCommand s) = if pixelDropped (operands s) ⟨0, 0⟩ then [] else [2645636] := by
  have hoff : pixelOffset (operands s) ⟨0, 0⟩ = 2645636 := ho.pixelOffset_eq
  have hoperands : operands (acceptCommand s) = operands s := rfl
  rw [pendingWords, landed_acceptCommand, ho.landedPixels_eq hread hb, List.filter_singleton, hoperands]
  cases pixelDropped (operands s) ⟨0, 0⟩
  · simp [addOffset, hoff, acceptCommand, startWork]
  · rfl

/-- The bitmap read, the frame read, the frame write and completion: four moves. -/
theorem run_origin_of_long (ho : (operands s).OneAtOrigin) (hrst : s.rst = false)
    (hchecked : startError (operands s) = none) (hread : s.mem.read (operands s).bmBase = some b) (hb : b ≠ 0)
    (hlen : 2645638 ≤ (operands s).fbLen) {v : PixelWord}
    (hv : s.mem.readWord ((operands s).fbBase + 2645636) = some v) {ks : List Nat} (hks : ks.length = 4) :
    ∃ u, Host.Core.run Sys2Proof.core ks.length ((acceptCommand s).withGrants ks) = .next u ∧ u.eng = .idle ∧
      u.mem.readWord ((operands s).fbBase + 2645636) = some ((operands s).phase ++ v.extractLsb' 0 14) ∧
      u.dropCount = 0 := by
  have hbudget : engineBudget (acceptCommand s) ≤ ks.length := by
    rw [engineBudget_eq, work_acceptCommand_origin ho, pendingWords_acceptCommand_origin ho hread hb,
      ho.pixelDropped_iff.mpr hlen, hks]
    exact le_rfl
  obtain ⟨u, hrun, hi, hu⟩ := run_grants_onContract (ho.commandBacked hread hb hlen hv) ks (acceptCommand s)
    (onContract_acceptCommand hchecked) fun _ => ⟨hrst, fun _ _ => rfl, .acceptCommand hchecked, hbudget⟩
  obtain ⟨hword, hdrop⟩ := hu.readWord_eq_drawnWord hi (off := 2645636) hlen
  refine ⟨u, hrun, hi, hword.trans (ho.drawnWord_eq hread hb hlen hv), hdrop.trans ?_⟩
  rw [ho.drawDropCount_eq hread hb, ho.pixelDropped_iff.mpr hlen]
  rfl

/-- A command that has nothing left to do after one step completes with the next. -/
theorem run_two_of_completes {t : State} (hstep : step s = .next t) (hrst : t.rst = false) (hb : t.eng = .busy)
    (hnext : engineMovesNext t) (hread : t.work.toRead = []) (hmay : t.work.mayRead = [])
    (hpending : pendingWords t = []) :
    ∃ u, Host.Core.run Sys2Proof.core 2 s = .next u ∧ u.eng = .idle ∧ u.mem = t.mem ∧
      u.dropCount = BitVec.ofNat 32 (droppedCount (operands t) (landed t)) := by
  obtain ⟨moves, draws, hlast⟩ := step_completes hrst hb hnext hread hmay hpending
  exact ⟨_, (run_succ hstep).trans (run_succ hlast), rfl, rfl, rfl⟩

/-- The bitmap read and completion: two moves, neither of which writes. -/
theorem run_origin_of_short (ho : (operands s).OneAtOrigin) (hrst : s.rst = false)
    (hread : s.mem.read (operands s).bmBase = some b) (hb : b ≠ 0) (hlen : (operands s).fbLen < 2645638)
    (k1 k2 : Nat) :
    ∃ u, Host.Core.run Sys2Proof.core 2 ((acceptCommand s).withGrants [k1, k2]) = .next u ∧ u.eng = .idle ∧
      u.mem = s.mem ∧ u.dropCount = 1 := by
  have hdropped : pixelDropped (operands s) ⟨0, 0⟩ = true :=
    Bool.eq_true_of_not_eq_false fun h => absurd (ho.pixelDropped_iff.mp h) (Nat.not_le.mpr hlen)
  have hpending : pendingWords (acceptCommand s) = [] :=
    (pendingWords_acceptCommand_origin ho hread hb).trans (if_pos hdropped)
  have hpick : pickAction k1 (engineActions ((acceptCommand s).withGrants [k2])) = some (.readPixel ⟨0, 0⟩) := by
    have hactions : engineActions (acceptCommand s) = [.readPixel ⟨0, 0⟩] := by
      rw [engineActions, hpending, work_acceptCommand_origin ho]
      rfl
    exact congrArg (pickAction k1) hactions
  have hperform : performAction (.readPixel ⟨0, 0⟩) ((acceptCommand s).withGrants [k2]) = .ok _ :=
    readPixelStep_of_byte ((congrArg s.mem.read (Operands.OneAtOrigin.bitmapAddr_origin _)).trans hread)
  have hstep := (step_grant (s := (acceptCommand s).withGrants [k1, k2]) (k := k1) (rest := [.grant k2]) hrst rfl).trans
    (congrArg _ (afterEngine_of_ok (s := (acceptCommand s).withGrants [k2]) rfl hpick hperform))
  have htoRead : (keptPixels (operands s)).erase ⟨0, 0⟩ = [] := by rw [ho.keptPixels_eq]; rfl
  obtain ⟨u, hrun, hi, hmem, hdrop⟩ :=
    run_two_of_completes hstep hrst rfl (.inr ⟨k2, [], rfl⟩) htoRead ho.clippedPixels_eq hpending
  have hcount : drawDropCount (operands s) s.mem = 1 := (ho.drawDropCount_eq hread hb).trans (if_pos hdropped)
  exact ⟨u, hrun, hi, hmem, hdrop.trans (congrArg (BitVec.ofNat 32) hcount)⟩

end

/-- Settles O56: a long enough frame by the contract, a short one by the two moves that the command makes. -/
theorem singlePixelAtOrigin : Obligations.SinglePixelAtOrigin := by
  intro f s t b v k1 k2 k3 k4 hi hrst hexec hb hsize hx hy hread hopaque
  obtain ⟨rfl, hchecked⟩ := eq_acceptCommand_of_drawChar hi hexec hb
  have ho : (operands (commandStart (storeCtrl f s))).OneAtOrigin :=
    ⟨show (s.bmSize.extractLsb' 0 16).toNat = 1 by rw [hsize]; rfl,
      show (s.bmSize.extractLsb' 16 16).toNat = 1 by rw [hsize]; rfl,
      show s.xOffset.toInt = 8 by rw [hx]; rfl, show s.yOffset.toInt = 0 by rw [hy]; rfl⟩
  exact ⟨fun hlen hv => run_origin_of_long ho hrst hchecked hread hopaque hlen hv (ks := [k1, k2, k3, k4]) rfl,
    fun hlen => run_origin_of_short ho hrst hread hopaque hlen k1 k2⟩

end Sys2Proof.Machine
end

section
/-! SUPPORT. Command errors and the IRQ line (60_exceptions.md R147 to R159, R165): which step raises ERR, the check that
rejects a DRAW_CHAR, and what raises and lowers the line. -/

namespace Sys2Proof.Machine

/-! ## What raises ERR (R147, R154) -/

section
variable {s t : State}

/-- ERR rises only by a command that the idle engine rejects: an operand write and NOP store their fields alone. -/
theorem err_of_exec {i : Instr} (h : exec i s = .next t) (hs : s.err = false) (ht : t.err = true) :
    s.eng = .idle ∧ t.eng = .idle ∧ t.done = true ∧
      ∃ f, i = .drawChar f ∨ ∃ c, i = .reservedCmd23 f c ∨ i = .reservedCmd47 f c ∨ i = .reservedCmd8F f c := by
  have unraised {P : Prop} (e : t.err = s.err) : P := by cases hs.symm.trans (e.symm.trans ht)
  cases execCase_of_next h with
  | ignored | readOnly | read | stored | nop => exact unraised rfl
  | acknowledged f => simp [acknowledge, hs] at ht
  | accepted => cases ht
  | rejected f hi hguarded =>
    refine ⟨hi, hi, rfl, ?_⟩
    cases i with
    | drawChar f => exact ⟨f, .inl rfl⟩
    | reservedCmd23 f c => exact ⟨f, .inr ⟨c, .inl rfl⟩⟩
    | reservedCmd47 f c => exact ⟨f, .inr ⟨c, .inr (.inl rfl)⟩⟩
    | reservedCmd8F f c => exact ⟨f, .inr ⟨c, .inr (.inr rfl)⟩⟩
    | nop f =>
      rw [exec_nop_idle f hi] at h
      injection h with e
      exact unraised (congrArg State.err e).symm
    | wrFbBase | wrFbLen | wrBmBase | wrBmSize | wrXOffset | wrYOffset | wrPhase =>
      obtain ⟨-, e⟩ | ⟨-, e⟩ := operandWrite_next _ _ _ h <;> exact unraised (congrArg State.err e :)
    | wrStatus | wrRo9 | wrRoAB | wrRoCF | rd => cases hguarded

/-- Neither the engine nor a memory access of another agent touches the record of errors or RST. -/
theorem error_record_of_step (h : step s = .next t) :
    (t.err = s.err ∧ t.errCode = s.errCode ∧ t.rst = s.rst)
      ∨ (∃ i rest, servedInstr s = some i ∧ exec i { s with moves := rest } = .next t)
      ∨ ∃ asserted rest, s.moves = .rst asserted :: rest ∧ t = setRst asserted { s with moves := rest } := by
  cases stepCase_of_next h with
  | wait => exact .inl ⟨rfl, rfl, rfl⟩
  | @served i _ rest _ hserved hexec => exact .inr (.inl ⟨i, rest, hserved, hexec⟩)
  | engine moves draws _ _ _ _ hp =>
    obtain ⟨-, rfl⟩ | ⟨work, mem, history, rfl⟩ := performAction_fields hp <;> exact .inl ⟨rfl, rfl, rfl⟩
  | hostWrite a v rest =>
    obtain ⟨_, _, _, _, _, e⟩ := hostWrite_fields a v { s with moves := rest }
    rw [e]; exact .inl ⟨rfl, rfl, rfl⟩
  | hostRead a rest _ hread =>
    obtain ⟨_, _, _, rfl, -⟩ := hostRead_fields hread
    exact .inl ⟨rfl, rfl, rfl⟩
  | reset asserted rest hm => exact .inr (.inr ⟨asserted, rest, hm, rfl⟩)

end

/-- Settles O31: only an instruction that is served raises ERR. -/
theorem errorsOnlyByCommandWrites : Obligations.ErrorsOnlyByCommandWrites := by
  intro s t h hs ht
  obtain ⟨e, -⟩ | ⟨i, rest, hserved, hexec⟩ | ⟨asserted, rest, -, rfl⟩ := error_record_of_step h
  · cases hs.symm.trans (e.symm.trans ht)
  · obtain ⟨hi, hi', hdone, f, hcommand⟩ := err_of_exec hexec hs ht
    obtain ⟨hmem, hhistory, -⟩ := surroundings_of_exec hexec
    refine ⟨hi, hi', hmem, hhistory, hdone, f, ?_⟩
    simpa only [hserved, Option.some.injEq] using hcommand
  · cases asserted with
    | true => cases ht
    | false => cases hs.symm.trans ht

/-! ## The start checks in their order (R150 to R155) -/

section
variable {o : Operands}

theorem startError_misaligned (hodd : o.fbBase % 2 = 1) : startError o = some .fbMisaligned := if_pos hodd

theorem startError_fbRange (heven : o.fbBase % 2 = 0) (hframe : Config.memSize < o.fbBase + o.fbLen) :
    startError o = some .fbRange := by
  rw [startError, if_neg (by omega), if_pos ((Region.wraps_iff _).mpr hframe)]

theorem startError_bmRange (heven : o.fbBase % 2 = 0) (hframe : o.fbBase + o.fbLen ≤ Config.memSize)
    (hbitmap : Config.memSize < o.bmBase + o.w * o.h) : startError o = some .bmRange := by
  rw [startError, if_neg (by omega), if_neg (mt (Region.wraps_iff _).mp (Nat.not_lt.mpr hframe)),
    if_pos ((Region.wraps_iff _).mpr hbitmap)]

theorem startError_overlap (heven : o.fbBase % 2 = 0) (hframe : o.fbBase + o.fbLen ≤ Config.memSize)
    (hbitmap : o.bmBase + o.w * o.h ≤ Config.memSize) (hoverlap : (frameRange o).overlaps (bitmapRange o) = true) :
    startError o = some .overlap := by
  rw [startError, if_neg (by omega), if_neg (mt (Region.wraps_iff _).mp (Nat.not_lt.mpr hframe)),
    if_neg (mt (Region.wraps_iff _).mp (Nat.not_lt.mpr hbitmap)), if_pos hoverlap]

/-- A DRAW_CHAR that fails a check is rejected with it. BYTE_CLIP plays no part in the checks. -/
theorem exec_drawChar_rejected (f : CtrlFields) {s : State} {c : ErrCode} (hi : s.eng = .idle)
    (hc : startError (operands s) = some c) :
    exec (.drawChar f) s = .next (raiseCmdError c (commandStart (storeCtrl f s))) := by
  refine (ctrlWrite_idle f (fun t => drawCharStart (commandStart t)) hi).trans ?_
  obtain ⟨c', hc', hrejected⟩ | ⟨hnone, -⟩ | ⟨hnone, -⟩ := drawCharStart_cases (commandStart (storeCtrl f s))
  · cases hc.symm.trans hc'
    exact hrejected
  all_goals cases hc.symm.trans hnone

end

/-- Settles O21: each clause names the first check that fails. -/
theorem drawCharRejections : Obligations.DrawCharRejections := by
  intro f s hi fb len bm size overlap rejected
  exact ⟨fun hodd => exec_drawChar_rejected f hi (startError_misaligned hodd),
    fun heven hframe => exec_drawChar_rejected f hi (startError_fbRange heven hframe),
    fun heven hframe hbitmap => exec_drawChar_rejected f hi (startError_bmRange heven hframe hbitmap),
    fun heven hframe hbitmap ⟨hsize, hlen, hfb, hbm⟩ => exec_drawChar_rejected f hi
      (startError_overlap heven hframe hbitmap ((Region.overlaps_iff _ _).mpr ⟨hlen, hsize, hfb, hbm⟩))⟩

/-! ## The idle block (R165) -/

/-- Settles O33: a grant finds no move to make, and nothing else moves an idle block. -/
theorem idleBlockWaits : Obligations.IdleBlockWaits := by
  refine ⟨fun s hi hm => ?_, fun s k rest hi hm => step_grant_of_idle hi hm⟩
  simp only [step, hm, hi, ite_self]

/-! ## The IRQ line (R158, R159) -/

section
variable {s t : State}

theorem irq_of_done (hdone : s.done = true) : s.irq = s.irqEn := by rw [State.irq, hdone, Bool.true_and]

theorem irq_of_not_done (hdone : s.done = false) : s.irq = false := by rw [State.irq, hdone, Bool.false_and]

/-- A DRAW_CHAR raises the line with its own IRQ_EN when it is rejected, and lowers it when it is accepted. -/
theorem irq_of_drawChar {f : CtrlFields} (hi : s.eng = .idle) (h : exec (.drawChar f) s = .next t) :
    (startError (operands s) ≠ none → t.irq = f.irqEn) ∧ (startError (operands s) = none → t.irq = false) := by
  have hstart : exec (.drawChar f) s = drawCharStart (commandStart (storeCtrl f s)) :=
    ctrlWrite_idle f (fun t => drawCharStart (commandStart t)) hi
  rw [hstart] at h
  obtain ⟨c, hc, e⟩ | ⟨-, -, e⟩ | ⟨hnone, -, e⟩ := drawCharStart_cases (commandStart (storeCtrl f s)) <;>
    rw [e] at h <;> cases h
  · exact ⟨fun _ => irq_of_done rfl, fun hnone => by cases hc.symm.trans hnone⟩
  · exact ⟨fun hsome => absurd hnone hsome, fun _ => irq_of_not_done rfl⟩

/-- Completion sets DONE and leaves IRQ_EN (R135). -/
theorem irq_of_completion (h : step s = .next t) (hb : s.eng = .busy) (hi : t.eng = .idle)
    (hr : ∀ rest, s.moves ≠ .rst true :: rest) : t.irq = s.irqEn := by
  have hdone : t.done = true := by
    obtain ⟨-, -, hreturn⟩ := engineStateChangesOnlyBySpec
    obtain ⟨-, -, -, hdone⟩ | ⟨rest, hm⟩ := hreturn s t h hb hi
    · exact hdone
    · exact absurd hm (hr rest)
  exact (irq_of_done hdone).trans (congrArg State.irqEn (programmed_of_step h hb hr) :)

end

/-- Settles O34: each event by what it makes of DONE and of IRQ_EN. -/
theorem irqFollowsDoneAndEnable : Obligations.IrqFollowsDoneAndEnable := by
  refine ⟨fun s => Bool.and_eq_true_iff, fun f s t hi hdone h => ?_, fun f s t hclear h => ?_,
    fun f c i s t hi hreserved h => ?_, fun f s t hi h => irq_of_drawChar hi h,
    fun s t h hb hi hr => irq_of_completion h hb hi hr, fun s t rest hm h => ?_⟩
  · rw [exec_nop_idle f hi] at h
    cases h
    exact irq_of_done hdone
  · cases h
    exact irq_of_not_done (by rw [acknowledge_done, hclear, Bool.not_true, Bool.and_false])
  · rw [exec_reserved_idle hi hreserved] at h
    cases h
    exact irq_of_done rfl
  · rw [step_cons hm] at h
    cases h
    exact irq_of_not_done rfl

end Sys2Proof.Machine
end

section
/-! SUPPORT. An accepted command completes (60_exceptions.md R147, 70_reset_and_hazards.md R180, R182): a running command
that is undisturbed finds every byte it needs, every move that is served leaves it running or completes it, and the
engine's moves use up its budget. -/

namespace Sys2Proof.Machine

/-! ## Bytes stay backed (R57) -/

/-- Every byte that the first memory backs is backed in the second. -/
def Memory.BackedIn (m m' : Memory) : Prop := ∀ a, (m.read a).isSome = true → (m'.read a).isSome = true

section
variable {s t : State} {m m' : Memory}

theorem Memory.BackedIn.refl (m : Memory) : m.BackedIn m := fun _ h => h

theorem Memory.BackedIn.write (h : m.BackedIn m') (a : Nat) (v : Byte) : m.BackedIn (m'.write a v) := by
  intro b hb
  rw [Memory.read_write]
  split
  · rfl
  · exact h b hb

theorem Memory.BackedIn.writeWord (h : m.BackedIn m') (a : Nat) (v : PixelWord) : m.BackedIn (m'.writeWord a v) :=
  (h.write _ _).write _ _

theorem Memory.BackedIn.storeWord (h : m.BackedIn m') (o : Operands) (off : Nat) (w : PixelWord) :
    m.BackedIn (storeWord o off w m') := by
  by_cases hfate : wordFate o off = .whole
  · rw [storeWord_of_whole hfate]; exact h.writeWord _ _
  · rw [storeWord_of_ne_whole hfate]; exact h.write _ _

/-- An engine move takes no byte away. -/
theorem Memory.BackedIn.performAction {a : Action} (hm : m.BackedIn s.mem) (ha : a ∈ engineActions s)
    (h : performAction a s = .ok t) : m.BackedIn t.mem := by
  obtain ⟨p, -, rfl⟩ | ⟨p, -, rfl⟩ | ⟨off, -, ha⟩ | ⟨rfl, -⟩ := (mem_engineActions s a).mp ha
  · obtain ⟨_, -, rfl⟩ := readPixelStep_ok p s t h; exact hm
  · obtain ⟨_, -, rfl⟩ := readClippedStep_ok p s t h; exact hm
  · obtain ⟨rfl, -⟩ | ⟨rfl, hheld, -⟩ := (mem_wordActions s off a).mp ha
    · obtain ⟨_, _, -, rfl⟩ := readFrameStep_ok off s t h; exact hm
    · obtain ⟨held, hvalue⟩ := Option.isSome_iff_exists.mp hheld
      obtain ⟨_, v, rfl, -⟩ := writeFrameStep_storeWord hvalue h
      exact hm.storeWord _ _ _
  · cases h; exact hm

/-- A write of another agent during a command takes no byte away. -/
theorem Memory.BackedIn.hostWrite (hm : m.BackedIn s.mem) (hb : s.eng = .busy) (a : Word) (v : Byte) :
    m.BackedIn (hostWrite a v s).mem := by
  rw [mem_hostWrite hb]
  obtain e | ⟨off, w, -, -, -, ⟨-, e⟩ | ⟨-, e⟩⟩ := racedWrite_cases (addRace (raceOf s a.toNat) s) a.toNat v <;> rw [e]
  · exact hm.write _ _
  · exact hm.writeWord _ _
  · exact hm.write _ _

theorem Memory.BackedIn.busyCase (hm : m.BackedIn s.mem) (hb : s.eng = .busy) (h : BusyCase s t) :
    m.BackedIn t.mem := by
  cases h with
  | quiet => exact hm
  | engine moves draws ha hp => exact Memory.BackedIn.performAction (s := { s with moves, draws }) hm ha hp
  | hostWrite a v rest => exact Memory.BackedIn.hostWrite (s := { s with moves := rest }) hm hb a v
  | hostRead a rest hread => obtain ⟨_, _, _, rfl, -⟩ := hostRead_fields hread; exact hm

end

/-! ## What a step does to the moves, RST and STATUS -/

section
variable {s t : State}

theorem moves_of_performAction {a : Action} (h : performAction a s = .ok t) : t.moves = s.moves := by
  obtain ⟨-, rfl⟩ | ⟨_, _, _, rfl⟩ := performAction_fields h <;> rfl

theorem moves_of_serve {m : Move} (h : serve m s = .next t) : t.moves = s.moves := by
  have access {a : RegAccess} (h : serveReg a s = .next t) : t.moves = s.moves := by
    obtain ⟨-, rfl⟩ | ⟨-, i, -, hexec⟩ := serveReg_next a s t h
    · rfl
    · obtain ⟨-, -, hmoves, -⟩ := surroundings_of_exec hexec
      exact hmoves
  cases m with
  | reg a => exact access h
  | bus b =>
    simp only [serve] at h
    split at h
    · exact access h
    · cases h; rfl
  | memWrite a v =>
    obtain ⟨_, _, _, _, _, e⟩ := hostWrite_fields a v s
    cases h; rw [e]
  | memRead a => obtain ⟨_, _, _, rfl, -⟩ := hostRead_fields h; rfl
  | rst asserted => cases h; cases asserted <;> rfl
  | grant k =>
    simp only [serve] at h
    split at h <;> cases h
    · rfl
    · obtain e | ⟨-, a, -, hp⟩ := afterEngine_cases k s
      · rw [e]
      · exact moves_of_performAction hp

/-- A step takes the move that it serves off the list. -/
theorem moves_of_step (h : step s = .next t) : t.moves = s.moves.tail := by
  obtain ⟨hm, ⟨-, rfl⟩ | ⟨-, hb, ha⟩⟩ | ⟨m, rest, hm, h⟩ := step_next s t h
  · rw [hm]; rfl
  · obtain ⟨a, -, hp⟩ := engineAlone_next s t hb ha
    rw [hm, moves_of_performAction hp, hm]; rfl
  · rw [hm, moves_of_serve h]; rfl

/-- RST stays released but for its assertion. -/
theorem released_of_step (h : step s = .next t) (hr : ∀ rest, s.moves ≠ .rst true :: rest) (hrst : s.rst = false) :
    t.rst = false := by
  obtain ⟨-, -, e⟩ | ⟨i, rest, -, hexec⟩ | ⟨asserted, rest, hm, rfl⟩ := error_record_of_step h
  · exact e.trans hrst
  · obtain ⟨-, -, -, e, -⟩ := surroundings_of_exec hexec
    exact e.trans hrst
  · cases asserted with
    | true => exact absurd hm (hr rest)
    | false => rfl

/-- No error is recorded. -/
def State.NoError (s : State) : Prop := s.err = false ∧ s.errCode = .none

/-- While busy no step records an error (R147, R156). -/
theorem State.NoError.step (hs : s.NoError) (hb : s.eng = .busy) (h : step s = .next t) : t.NoError := by
  obtain ⟨herr, hcode⟩ := hs
  obtain ⟨e, e', -⟩ | ⟨i, rest, -, hexec⟩ | ⟨asserted, rest, -, rfl⟩ := error_record_of_step h
  · exact ⟨e.trans herr, e'.trans hcode⟩
  · cases execCase_of_next hexec with
    | ignored | readOnly | read => exact ⟨herr, hcode⟩
    | acknowledged f => exact ⟨by simp [herr], by simp [hcode]⟩
    | stored _ _ _ _ _ _ _ hi | nop _ hi | rejected _ hi | accepted _ hi => cases hb.symm.trans hi
  · cases asserted with
    | true => exact ⟨rfl, rfl⟩
    | false => exact ⟨herr, hcode⟩

/-- An engine move leaves WIGN (R33). -/
theorem wign_of_engineMove (hnext : engineMovesNext s) (h : step s = .next t) : t.wign = s.wign := by
  have hserved : servedInstr s = none := by
    obtain hm | ⟨k, rest, hm⟩ := hnext <;> simp only [servedInstr, hm]
  obtain e | ⟨-, -, i, hi, -⟩ | ⟨f, hf, -⟩ | ⟨-, rest, hm⟩ := wign_of_step h
  · exact e
  · cases hserved.symm.trans hi
  · cases hserved.symm.trans hf
  · obtain hm' | ⟨k, rest', hm'⟩ := hnext <;> cases hm.symm.trans hm'

/-- A step that ends a command, RST apart, completes it (R135). -/
theorem done_of_step (h : step s = .next t) (hr : ∀ rest, s.moves ≠ .rst true :: rest) (hb : s.eng = .busy)
    (hi : t.eng = .idle) : t.done = true := by
  obtain e | ⟨hi', -⟩ | ⟨-, -, -, -, hdone⟩ | ⟨rest, hm⟩ := eng_of_step h
  · cases hi.symm.trans (e.trans hb)
  · cases hb.symm.trans hi'
  · exact hdone
  · exact absurd hm (hr rest)

end

/-! ## Moves that a busy machine serves -/

section
variable {s t : State} {m : Memory}

/-- A busy block serves every instruction. -/
theorem exec_next_of_busy (hb : s.eng = .busy) (i : Instr) : ∃ t, exec i s = .next t := by
  cases i with
  | wrStatus | wrRo9 | wrRoAB | wrRoCF | rd => exact ⟨_, rfl⟩
  | nop | drawChar | reservedCmd23 | reservedCmd47 | reservedCmd8F | wrFbBase | wrFbLen | wrBmBase | wrBmSize
    | wrXOffset | wrYOffset | wrPhase => exact ⟨_, exec_guardedWrite_busy hb rfl⟩

theorem serveReg_next_of_busy {a : RegAccess} (hb : s.eng = .busy) (ha : (fetchReg a).toOption.isSome = true) :
    ∃ t, serveReg a s = .next t := by
  obtain ⟨i, hi⟩ := Option.isSome_iff_exists.mp ha
  cases hrst : s.rst with
  | true => exact ⟨s, by simp only [serveReg, hrst, if_true]⟩
  | false =>
    obtain ⟨t, ht⟩ := exec_next_of_busy hb i
    exact ⟨t, (serveReg_of_fetchReg_ok hrst (fetchReg_of_toOption hi)).trans ht⟩

/-- A servable move has a next state in a busy machine whose memory backs what the move was servable with. -/
theorem serve_next_of_servable {o : Operands} {mv : Move} (hb : s.eng = .busy) (hm : m.BackedIn s.mem)
    (h : servable o m mv = true) : ∃ t, serve mv s = .next t := by
  cases mv with
  | reg a => exact serveReg_next_of_busy hb h
  | bus b =>
    cases ha : busToReg b with
    | none => exact ⟨s, by simp only [serve, ha]⟩
    | some a =>
      obtain ⟨t, ht⟩ := serveReg_next_of_busy (s := s) (a := a) hb (by simpa [servable, ha] using h)
      exact ⟨t, by simpa only [serve, ha] using ht⟩
  | memWrite a v => exact ⟨_, rfl⟩
  | memRead a =>
    have hvalue : (hostReadValue s a.toNat).isSome = true := (hostReadValue_isSome s a.toNat).trans (hm _ h)
    obtain ⟨b, hread⟩ := Option.isSome_iff_exists.mp hvalue
    exact ⟨_, by simp only [serve, hostRead, hread]; rfl⟩
  | rst asserted => exact ⟨_, rfl⟩
  | grant k =>
    cases hrst : s.rst with
    | true => exact ⟨s, if_pos hrst⟩
    | false => exact ⟨afterEngine k s, if_neg (by simp [hrst])⟩

theorem keepsDuty_of_servable {o : Operands} {mv : Move} (h : servable o m mv = true) : keepsDuty o mv = true := by
  cases mv with
  | reg | bus | memRead | grant => rfl
  | memWrite | rst => exact h

/-- A busy engine that needs no byte that is not backed makes its move, granted or alone, and completes the command or
comes nearer to completion. -/
theorem step_of_engineMovesNext (hrst : s.rst = false) (hb : s.eng = .busy) (hnext : engineMovesNext s)
    (hfree : ∀ a ∈ engineActions s, stuckAt s a = none) :
    ∃ t, step s = .next t ∧ (t.eng = .idle ∨ engineBudget t < engineBudget s) := by
  have progress {a : Action} (moves : List Move) (draws : Nat) (ha : a ∈ engineActions s) :
      ∃ t, performAction a { s with moves, draws } = .ok t ∧ (t.eng = .idle ∨ engineBudget t < engineBudget s) := by
    obtain ⟨_, hstuck, -⟩ | ⟨-, t, ht⟩ := performAction_cases (s := { s with moves, draws }) ha
    · cases hstuck.symm.trans (hfree a ha)
    · exact ⟨t, ht, engineBudget_lt_of_performAction (s := { s with moves, draws }) ha ht⟩
  obtain hm | ⟨k, rest, hm⟩ := hnext
  · obtain ⟨a, ha, hpick⟩ := exists_pickAction (Config.engineOrder s.draws) s
    obtain ⟨t, ht, hless⟩ := progress s.moves (s.draws + 1) ha
    exact ⟨t, (step_alone hrst hb hm).trans (engineAlone_of_ok hb hpick ht), hless⟩
  · obtain ⟨a, ha, hpick⟩ := exists_pickAction k s
    obtain ⟨t, ht, hless⟩ := progress rest s.draws ha
    refine ⟨t, (step_grant hrst hm).trans ?_, hless⟩
    rw [afterEngine_of_ok (s := { s with moves := rest }) hb hpick ht]

/-- No move adds to the engine's budget while the duty is kept (R180). -/
theorem engineBudget_le_of_busyCase (hb : s.eng = .busy) (h : BusyCase s t) (hduty : s.dutyKept)
    (hduty' : t.dutyKept) (ht : t.eng = .busy) : engineBudget t ≤ engineBudget s := by
  cases h with
  | quiet => exact Nat.le_refl _
  | engine moves draws ha hp =>
    obtain hi | hless := engineBudget_lt_of_performAction (s := { s with moves, draws }) ha hp
    · cases hi.symm.trans ht
    · exact Nat.le_of_lt hless
  | hostWrite a v rest =>
    have ho := operands_of_busyCase hb (.hostWrite a v rest)
    have hstart := atStart_of_busyCase hb (.hostWrite a v rest) ht
    have hwork : (hostWrite a v { s with moves := rest }).work = s.work :=
      (congrArg State.work (block_hostWrite a v { s with moves := rest }) :)
    have hlanded : landed (hostWrite a v { s with moves := rest }) = landed s := by
      rw [landed_of_dutyKept hduty', landed_of_dutyKept hduty, ho, hstart]
    simp only [engineBudget, pendingWords, hwork, hlanded, ho, Nat.le_refl]
  | hostRead a rest hread => obtain ⟨_, _, _, rfl, -⟩ := hostRead_fields hread; exact Nat.le_refl _

end

/-! ## A command on its way -/

/-- A command with operands `o`, accepted on memory `m` with the history `base`, that runs undisturbed and without
error, RST released and every byte backed that was backed at acceptance. -/
structure Underway (o : Operands) (m : Memory) (base : List MemEvent) (s : State) : Prop where
  busy : s.eng = .busy
  released : s.rst = false
  contract : OnContract o m base s
  duty : s.dutyKept
  reading : s.Reading
  no_error : s.NoError
  backed : m.BackedIn s.mem

/-- The command has completed without error (R135). -/
def Completed (s : State) : Prop := s.eng = .idle ∧ s.done = true ∧ s.NoError

section
variable {s t : State} {o : Operands} {m : Memory} {base : List MemEvent}

theorem underway_acceptCommand (hrst : s.rst = false) (hchecked : startError (operands s) = none) (hs : s.NoError) :
    Underway (operands s) s.mem s.history (acceptCommand s) where
  busy := rfl
  released := hrst
  contract := onContract_acceptCommand hchecked
  duty := fun _ _ => rfl
  reading := .acceptCommand hchecked
  no_error := hs
  backed := .refl _

/-- A command on its way needs no byte that is not backed. -/
theorem Underway.stuckAt_eq_none (h : Underway o m base s) (hbacked : commandBacked o m) {a : Action}
    (ha : a ∈ engineActions s) : stuckAt s a = none := by
  obtain ⟨rfl, new, -, ⟨-, rfl, hu⟩ | ⟨hi, -⟩⟩ := h.contract
  · exact stuckAt_of_commandBacked hu h.duty h.reading hbacked ha
  · cases h.busy.symm.trans hi

/-- A step with a move that keeps the duty completes the command or leaves it on its way, with no more engine moves to
make. -/
theorem Underway.of_step (h : Underway o m base s) (hm : ∀ mv, s.moves.head? = some mv → keepsDuty o mv = true)
    (hstep : step s = .next t) : Completed t ∨ Underway o m base t ∧ engineBudget t ≤ engineBudget s := by
  have hr (rest : List Move) : s.moves ≠ .rst true :: rest := fun e => by cases hm (.rst true) (by rw [e]; rfl)
  have herror := h.no_error.step h.busy hstep
  obtain hi | hb := eng_idle_or_busy t
  · exact .inl ⟨hi, done_of_step hstep hr h.busy hi, herror⟩
  · have hcase := busyCase_of_step h.busy hr hstep
    obtain ⟨ho, -⟩ := h.contract
    have hduty := h.duty.step h.busy (fun mv hmv => ho ▸ hm mv hmv) hstep
    exact .inr ⟨⟨hb, released_of_step hstep hr h.released, h.contract.step h.busy hcase h.duty hduty, hduty,
      h.reading.step h.busy hcase hb, herror, h.backed.busyCase h.busy hcase⟩,
      engineBudget_le_of_busyCase h.busy hcase h.duty hduty hb⟩

/-- With the engine to move a command on its way has a step, which completes it or uses up some of its budget. -/
theorem Underway.step_engine (h : Underway o m base s) (hbacked : commandBacked o m) (hnext : engineMovesNext s) :
    ∃ t, step s = .next t
      ∧ (Completed t ∨ Underway o m base t ∧ engineBudget t < engineBudget s) ∧ t.wign = s.wign := by
  obtain ⟨t, hstep, hless⟩ :=
    step_of_engineMovesNext h.released h.busy hnext fun a ha => h.stuckAt_eq_none hbacked ha
  refine ⟨t, hstep, ?_, wign_of_engineMove hnext hstep⟩
  have hkeeps (mv : Move) (hmv : s.moves.head? = some mv) : keepsDuty o mv = true := by
    obtain hm | ⟨k, rest, hm⟩ := hnext <;> rw [hm] at hmv <;> cases hmv
    rfl
  refine (h.of_step hkeeps hstep).imp_right fun ⟨ht, _⟩ => ⟨ht, hless.resolve_left fun hi => ?_⟩
  cases hi.symm.trans ht.busy

/-- A servable move, a grant or not, has a step that completes a command on its way or leaves it so; a grant uses up
some of its budget. -/
theorem Underway.step_servable (h : Underway o m base s) (hbacked : commandBacked o m) {mv : Move} {rest : List Move}
    (hm : s.moves = mv :: rest) (hmv : servable o m mv = true) :
    ∃ t, step s = .next t
      ∧ (Completed t ∨ Underway o m base t ∧ engineBudget t + grantCount [mv] ≤ engineBudget s)
      ∧ ((∃ k, mv = .grant k) → t.wign = s.wign) := by
  by_cases hgrant : ∃ k, mv = .grant k
  · obtain ⟨k, rfl⟩ := hgrant
    obtain ⟨t, hstep, hout, hwign⟩ := h.step_engine hbacked (.inr ⟨k, rest, hm⟩)
    exact ⟨t, hstep, hout, fun _ => hwign⟩
  · obtain ⟨t, hserve⟩ := serve_next_of_servable (s := { s with moves := rest }) h.busy h.backed hmv
    have hstep : step s = .next t := (step_cons hm).trans hserve
    have hcount : grantCount [mv] = 0 := by
      cases mv with
      | grant k => exact absurd ⟨k, rfl⟩ hgrant
      | reg | bus | memWrite | memRead | rst => rfl
    refine ⟨t, hstep, ?_, fun hk => absurd hk hgrant⟩
    rw [hcount]
    refine h.of_step (fun mv' hmv' => ?_) hstep
    rw [hm] at hmv'
    cases hmv'
    exact keepsDuty_of_servable hmv

theorem grantCount_cons (mv : Move) (ms : List Move) : grantCount (mv :: ms) = grantCount [mv] + grantCount ms :=
  List.countP_append (l₁ := [mv])

theorem run_one (h : step s = .next t) : Host.Core.run Sys2Proof.core 1 s = .next t := run_succ h

/-- With no move pending the engine alone completes a command on its way (R182). -/
theorem Underway.run_alone (hbacked : commandBacked o m) (n : Nat) (h : Underway o m base s) (hm : s.moves = [])
    (hbudget : engineBudget s ≤ n) :
    ∃ k u, k ≤ n ∧ Host.Core.run Sys2Proof.core k s = .next u ∧ Completed u ∧ u.wign = s.wign := by
  induction n generalizing s with
  | zero => rw [engineBudget_eq] at hbudget; omega
  | succ n ih =>
    obtain ⟨t, hstep, hdone | ⟨ht, hless⟩, hwign⟩ := h.step_engine hbacked (.inl hm)
    · exact ⟨1, t, by omega, run_one hstep, hdone, hwign⟩
    · obtain ⟨k, u, hk, hrun, hdone, hwign'⟩ := ih ht (by rw [moves_of_step hstep, hm]; rfl) (by omega)
      exact ⟨k + 1, u, by omega, (run_succ hstep).trans hrun, hdone, hwign'.trans hwign⟩

/-- Servable moves, and after them the engine alone, complete a command on its way. -/
theorem Underway.run_servable (hbacked : commandBacked o m) (ms : List Move) (h : Underway o m base s)
    (hm : s.moves = ms) (hms : ∀ mv ∈ ms, servable o m mv = true) :
    ∃ n u, n ≤ ms.length + (engineBudget s - grantCount ms) ∧ Host.Core.run Sys2Proof.core n s = .next u
      ∧ Completed u ∧ ((∀ mv ∈ ms, ∃ k, mv = .grant k) → u.wign = s.wign) := by
  induction ms generalizing s with
  | nil =>
    obtain ⟨n, u, hn, hrun, hdone, hwign⟩ := h.run_alone hbacked (engineBudget s) hm (Nat.le_refl _)
    exact ⟨n, u, hn.trans (Nat.le_add_left _ _), hrun, hdone, fun _ => hwign⟩
  | cons mv ms ih =>
    obtain ⟨hmv, hms⟩ := List.forall_mem_cons.mp hms
    rw [grantCount_cons, List.length_cons]
    obtain ⟨t, hstep, hdone | ⟨ht, hbudget⟩, hwign⟩ := h.step_servable hbacked hm hmv
    · exact ⟨1, t, by omega, run_one hstep, hdone, fun hgrants => hwign (hgrants mv List.mem_cons_self)⟩
    · obtain ⟨n, u, hn, hrun, hdone, hwign'⟩ := ih ht (by rw [moves_of_step hstep, hm]; rfl) hms
      refine ⟨n + 1, u, by omega, (run_succ hstep).trans hrun, hdone, fun hgrants => ?_⟩
      obtain ⟨hgrant, hgrants⟩ := List.forall_mem_cons.mp hgrants
      exact (hwign' hgrants).trans (hwign hgrant)

end

/-- Settles O50: the accepted command is on its way, and its moves bring it to completion. -/
theorem acceptedCommandCompletes : Obligations.AcceptedCommandCompletes := by
  intro f s t ms hi hrst hexec hb hbacked hms
  obtain ⟨rfl, hchecked⟩ := eq_acceptCommand_of_drawChar hi hexec hb
  have hunderway := underway_acceptCommand (s := { commandStart (storeCtrl f s) with moves := ms }) hrst hchecked
    ⟨rfl, rfl⟩
  obtain ⟨n, u, hn, hrun, ⟨hidle, hdone, herr, hcode⟩, hwign⟩ := hunderway.run_servable hbacked ms rfl hms
  exact ⟨n, u, hn, hrun, hidle, hdone, herr, hcode, hwign⟩

end Sys2Proof.Machine
end

section
/-! SUPPORT. Reset (70_reset_and_hazards.md R167 to R170): the reset state, the block held in reset, and what the moves
that a command still makes when RST is asserted leave in memory and in the history. -/

namespace Sys2Proof.Machine

/-! ## The reset state (R168) -/

/-- Settles O8: each register by evaluation, the GEOM registers by their words. -/
theorem resetState : Obligations.ResetState := by
  refine ⟨fun r hr => ?_, rfl, rfl, rfl, rfl, rfl, rfl, rfl, rfl, geomSizeWord_eq, geomMarginWord_eq,
    geomStrideWord_eq, geomPackWord_eq, rfl, rfl, rfl, rfl⟩
  cases r with
  | geomSize | geomMargin | geomStride | geomPack => exact absurd hr (by decide)
  | _ => rfl

/-- Settles O9: the engine is idle, and its hidden state is empty. -/
theorem resetMeetsInvariant : Obligations.ResetMeetsInvariant :=
  inv_of_idle rfl Memory.wf_reset (by simp [State.reset]) ⟨rfl, rfl, rfl, rfl⟩ fun _ => rfl

/-! ## The block held in reset (R167) -/

section
variable {s t : State}

theorem serveReg_of_rst (a : RegAccess) (hrst : s.rst = true) : serveReg a s = .next s := if_pos hrst

/-- The IRQ line is a function of the block alone (R53, R158). -/
theorem irq_congr_block (h : t.block = s.block) : t.irq = s.irq := (congrArg State.irq h :)

/-- While idle every slot reads a word that the block holds: none gives a free value (R98, R183). -/
theorem regRead_block (hi : s.eng = .idle) (r : RegName) : regRead r s.block = regRead r s := by
  have hi' : s.block.eng = .idle := hi
  cases r with
  | dropCount => rw [regRead_dropCount_idle hi', regRead_dropCount_idle hi]; rfl
  | _ => rfl

theorem regRead_congr_block (hi : s.eng = .idle) (h : t.block = s.block) (r : RegName) :
    regRead r t = regRead r s := by
  have hi' : t.eng = .idle := (congrArg State.eng h :).trans hi
  rw [← regRead_block hi', h, regRead_block hi]

end

/-- Settles O13: each of the three moves is passed over while RST is asserted. -/
theorem heldResetServesNothing : Obligations.HeldResetServesNothing := by
  intro s m rest hrst hm hmove
  have hheld : State.rst { s with moves := rest } = true := hrst
  rw [step_cons hm]
  obtain ⟨a, rfl⟩ | ⟨b, rfl⟩ | ⟨k, rfl⟩ := hmove
  · exact serveReg_of_rst a hheld
  · cases hb : busToReg b with
    | none => simp only [serve, hb]
    | some a => simp only [serve, hb, serveReg_of_rst a hheld]
  · exact if_pos hheld

/-- Settles O12: the release changes RST alone, and a block held in reset is that of reset. -/
theorem releaseLeavesResetState : Obligations.ReleaseLeavesResetState := by
  intro s rest hm
  have hstep : step s = .next { s with rst := false, moves := rest } := step_cons hm
  refine ⟨hstep, fun hs hrst t ht => ?_⟩
  obtain rfl : { s with rst := false, moves := rest } = t := by simpa [hstep] using ht
  have hblock : s.block = State.reset.block := hs.rst_block hrst
  exact ⟨hblock, irq_congr_block hblock, rfl, regRead_congr_block rfl hblock⟩

/-! ## The moves that a command still makes (R169) -/

section
variable {s t : State} {o : Operands}

/-- A property that each draw and each admissible action of a busy engine keep is kept when a command is abandoned. -/
theorem abandonCommand_induct (P : State → Prop) (draw : ∀ u, P u → P { u with draws := u.draws + 1 })
    (act : ∀ u a v, P u → u.eng = .busy → a ∈ engineActions u → performAction a u = .ok v → P v) (h : P s) :
    P (abandonCommand s) := by
  obtain ⟨-, e⟩ | ⟨-, e⟩ := abandonCommand_cases s <;> rw [e]
  · exact h
  · exact engineRun_induct P draw act _ _ (draw s h)

theorem abandonCommand_of_idle (hi : s.eng = .idle) : abandonCommand s = s := by
  obtain ⟨-, e⟩ | ⟨hb, -⟩ := abandonCommand_cases s
  · exact e
  · cases hi.symm.trans hb

/-- The step that asserts RST. -/
theorem step_assertReset {rest : List Move} (hm : s.moves = .rst true :: rest) :
    step s = .next (assertReset { s with moves := rest }) := step_cons hm

theorem EngineAccess.agent_eq {work : Work} {e : MemEvent} (h : EngineAccess s work e) : e.agent = .engine := by
  cases h <;> rfl

/-- The history has grown by accesses of the engine only since it was `base`. -/
def EngineSince (base : List MemEvent) (s : State) : Prop :=
  ∃ new, s.history = new ++ base ∧ ∀ e ∈ new, e.agent = .engine

theorem EngineSince.performAction {base : List MemEvent} {a : Action} (hs : EngineSince base s)
    (ha : a ∈ engineActions s) (h : performAction a s = .ok t) : EngineSince base t := by
  obtain ⟨new, hhistory, hagent⟩ := hs
  obtain ⟨-, rfl⟩ | ⟨work, mem, e, hacc, rfl⟩ := engineAccess_of_performAction ha h
  · exact ⟨new, hhistory, hagent⟩
  · exact ⟨e :: new, congrArg (e :: ·) hhistory, List.forall_mem_cons.mpr ⟨hacc.agent_eq, hagent⟩⟩

/-- The moves that a command still makes when RST is asserted are the engine's (R169; log entry 9). -/
theorem engineSince_abandonCommand (s : State) : EngineSince s.history (abandonCommand s) :=
  abandonCommand_induct (EngineSince s.history) (fun _ h => h) (fun _ _ _ hu _ ha hp => hu.performAction ha hp)
    ⟨[], rfl, by simp⟩

/-- The ranges of a checked command share no byte (R153). -/
theorem not_frame_of_bitmap (hchecked : startError o = none) {a : Nat} (h : (bitmapRange o).covers a = true) :
    (frameRange o).covers a = false := by
  obtain ⟨-, -, -, hdisjoint⟩ := (startError_eq_none o).mp hchecked
  rw [Region.covers_iff] at h
  rw [← Bool.not_eq_true, Region.covers_iff]
  simp only [frameRange, bitmapRange] at *
  omega

/-- A command that is abandoned leaves its bitmap as it was (R169). -/
theorem read_abandonCommand_of_bitmap (hs : s.Inv) {a : Nat} (h : (bitmapRange (operands s)).covers a = true) :
    (abandonCommand s).mem.read a = s.mem.read a := by
  obtain hi | hb := eng_idle_or_busy s
  · rw [abandonCommand_of_idle hi]
  · have hstart : FrameOnly (operands s) s.mem s := ⟨rfl, fun _ _ => rfl⟩
    exact (hstart.abandonCommand hs.busy_checked).2 a (not_frame_of_bitmap (hs.busy_checked hb) h)

end

/-- Settles O10: the block is that of reset, and what surrounds it is as the abandoned command leaves it. -/
theorem resetAnyState : Obligations.ResetAnyState := by
  intro s rest hs hm
  obtain ⟨new, hhistory, hagent⟩ := engineSince_abandonCommand { s with moves := rest }
  refine ⟨_, new, step_assertReset hm, rfl, rfl, rfl, rfl, hhistory, hagent, fun hi => ?_, fun a ha => ?_⟩
  · have e := abandonCommand_of_idle (s := { s with moves := rest }) hi
    have hmem : (abandonCommand { s with moves := rest }).mem = s.mem := (congrArg State.mem e :)
    exact ⟨List.append_left_eq_self.mp (hhistory.symm.trans (congrArg State.history e)), hmem⟩
  · exact read_abandonCommand_of_bitmap (hs.with_moves rest) ha

/-! ## The words of an abandoned command (R169) -/

section
variable {s t : State} {o : Operands} {start base : Memory}

/-- An engine move leaves memory, or updates in it a word still to update. -/
theorem mem_of_performAction {a : Action} (ha : a ∈ engineActions s) (h : performAction a s = .ok t) :
    t.mem = s.mem ∨ ∃ off ∈ pendingWords s, ∃ v, t.mem = storeWord (operands s) off v s.mem := by
  obtain ⟨p, -, rfl⟩ | ⟨p, -, rfl⟩ | ⟨off, hoff, ha⟩ | ⟨rfl, -⟩ := (mem_engineActions s a).mp ha
  · obtain ⟨_, -, rfl⟩ := readPixelStep_ok p s t h; exact .inl rfl
  · obtain ⟨_, -, rfl⟩ := readClippedStep_ok p s t h; exact .inl rfl
  · obtain ⟨rfl, -⟩ | ⟨rfl, hheld, -⟩ := (mem_wordActions s off a).mp ha
    · obtain ⟨_, _, -, rfl⟩ := readFrameStep_ok off s t h; exact .inl rfl
    · obtain ⟨held, hvalue⟩ := Option.isSome_iff_exists.mp hheld
      obtain ⟨_, v, rfl, -⟩ := writeFrameStep_storeWord hvalue h
      exact .inr ⟨off, hoff, v, rfl⟩
  · cases h; exact .inl rfl

/-- Memory in the middle of a command with operands `o`, accepted on memory `start`, that has run undisturbed since
memory was `base`: each word that the command writes is as at acceptance or as drawn, and no other byte has changed. -/
structure PartlyDrawn (o : Operands) (start base mem : Memory) : Prop where
  words : ∀ off, Touched o start off →
    (∀ a ∈ wordAddrs o off, mem.read a = start.read a) ∨ (∀ a ∈ wordAddrs o off, mem.read a = drawByte o start a)
  others : ∀ a, (∀ off, Touched o start off → a ∉ wordAddrs o off) → mem.read a = base.read a

/-- Where the duty was kept no word of the frame is raced. -/
theorem racedWord_of_dutyKept (hduty : s.dutyKept) {off : Nat} (heven : off % 2 = 0) : racedWord s off = none := by
  refine (racedWord_eq_none s off).mpr fun r hr hmem => ?_
  have hnone := hduty r.addr (.inl (covers_of_frameWordOf (frameWordOf_of_mem_wordAddrs heven hmem)))
  exact List.find?_eq_none.mp hnone r hr (beq_self_eq_true r.addr)

/-- Where the duty was kept a running command has left each word as at acceptance or as drawn (R145). -/
theorem State.Faithful.word_cases (hf : s.Faithful) (hb : s.eng = .busy) (hduty : s.dutyKept) {off : Nat}
    (heven : off % 2 = 0) :
    (∀ a ∈ wordAddrs (operands s) off, s.mem.read a = s.atStart.read a)
      ∨ (∀ a ∈ wordAddrs (operands s) off, s.mem.read a = drawByte (operands s) s.atStart a) := by
  by_cases hoff : off ∈ s.work.updated
  · refine .inr fun a ha => ?_
    obtain ⟨-, e⟩ := hf.updated_value hb off hoff a ha
    exact e.trans (commandByte_of_dutyKept hduty (frameWordOf_of_mem_wordAddrs heven ha))
  · exact .inl (hf.pending_value hb off heven hoff (racedWord_of_dutyKept hduty heven))

/-- A command that is about to be abandoned: memory is partly drawn, and while the engine goes on so does the contract,
with the duty kept. -/
def Stopping (o : Operands) (start base : Memory) (s : State) : Prop :=
  PartlyDrawn o start base s.mem
    ∧ (s.eng = .busy → s.Inv ∧ s.Faithful ∧ s.dutyKept ∧ operands s = o ∧ s.atStart = start)

theorem stopping_self (hs : s.Inv) (hf : s.Faithful) (hb : s.eng = .busy) (hduty : s.dutyKept) :
    Stopping (operands s) s.atStart s.mem s :=
  ⟨⟨fun _ hoff => hf.word_cases hb hduty hoff.1, fun _ _ => rfl⟩, fun _ => ⟨hs, hf, hduty, rfl, rfl⟩⟩

/-- An engine move changes no byte but those of words that the command writes. -/
theorem read_of_performAction_of_untouched {a : Action} (hchecked : startError (operands s) = none)
    (hduty : s.dutyKept) (ha : a ∈ engineActions s) (h : performAction a s = .ok t) {b : Nat}
    (hb : ∀ off, Touched (operands s) s.atStart off → b ∉ wordAddrs (operands s) off) :
    t.mem.read b = s.mem.read b := by
  obtain e | ⟨off, hoff, v, e⟩ := mem_of_performAction ha h <;> rw [e]
  have hwritable := writableWord_of_pending hoff
  have heven := writableWord_even hwritable
  have hfate := writableWord_fate hwritable
  rw [read_storeWord hchecked heven hfate]
  exact if_neg fun hw => hb off (touched_of_pending hduty hoff) ((mem_wordAddrs_iff heven).mpr ⟨hw, hfate⟩)

theorem Stopping.performAction {a : Action} (hs : Stopping o start base s) (hb : s.eng = .busy)
    (ha : a ∈ engineActions s) (h : performAction a s = .ok t) : Stopping o start base t := by
  obtain ⟨hmem, hbusy⟩ := hs
  obtain ⟨hinv, hf, hduty, rfl, rfl⟩ := hbusy hb
  have others (b : Nat) (hout : ∀ off, Touched (operands s) s.atStart off → b ∉ wordAddrs (operands s) off) :
      t.mem.read b = base.read b :=
    (read_of_performAction_of_untouched (hinv.busy_checked hb) hduty ha h hout).trans (hmem.others b hout)
  have hinv' := hinv.performAction hb ha h
  have hf' := State.Faithful.performAction hinv hf hb ha h
  obtain ⟨-, rfl⟩ | ⟨work, mem, history, rfl⟩ := performAction_fields h
  · exact ⟨hmem, fun hb' => by cases hb'⟩
  · exact ⟨⟨fun off hoff => hf'.word_cases hb hduty hoff.1, others⟩, fun _ => ⟨hinv', hf', hduty, rfl, rfl⟩⟩

/-- A command that is abandoned leaves memory partly drawn. -/
theorem Stopping.abandonCommand (h : Stopping o start base s) : PartlyDrawn o start base (abandonCommand s).mem := by
  have draw (u : State) (hu : Stopping o start base u) : Stopping o start base { u with draws := u.draws + 1 } := by
    refine ⟨hu.1, fun hb => ?_⟩
    obtain ⟨hinv, hf, hrest⟩ := hu.2 hb
    exact ⟨hinv.with_draws _, hf.with_rest, hrest⟩
  exact (abandonCommand_induct (Stopping o start base) draw (fun _ _ _ hu hb ha hp => hu.performAction hb ha hp) h).1

end

/-- Settles O11: the moves that the command still makes leave each of its words as it was or draw it. -/
theorem resetDuringCommand : Obligations.ResetDuringCommand := by
  intro s rest hs hf hb hduty hm
  have hstopping := stopping_self (hs.with_moves rest) (s := { s with moves := rest }) hf.with_rest hb hduty
  obtain ⟨words, others⟩ := hstopping.abandonCommand
  exact ⟨_, step_assertReset hm, rfl, fun off heven hoff => words off ⟨heven, hoff⟩,
    fun a hout => others a fun off hoff => hout off hoff.1 hoff.2⟩

end Sys2Proof.Machine
end

section
/-! SUPPORT. How many accesses a command makes (70_reset_and_hazards.md R180), whatever other agents do: each bitmap
read takes a pixel off the lists of those to read, and each frame access moves a word on from unread to held to
written. -/

namespace Sys2Proof.Machine

/-! ## Pixels and words -/

section
variable {o : Operands}

/-- Each pixel of a kept row is kept by the column clip or skipped, so both together are at most the bitmap. -/
theorem length_keptPixels_add_length_clippedPixels_le (o : Operands) :
    (keptPixels o).length + (clippedPixels o).length ≤ o.w * o.h := by
  have hrow (y : Nat) : (rowPixels o true y).length + (rowPixels o false y).length = o.w := by
    have := List.length_eq_length_filter_add (l := List.range o.w) fun x => columnKept (bufferX o.xo x)
    rw [List.length_range] at this
    simpa [rowPixels] using this.symm
  have hrows : (keptRows o).length ≤ o.h := (List.length_filter_le _ _).trans (List.length_range).le
  calc (keptPixels o).length + (clippedPixels o).length
      = ((keptRows o).map fun y => (rowPixels o true y).length + (rowPixels o false y).length).sum := by
        rw [List.sum_map_add, keptPixels, clippedPixels, List.length_flatMap, List.length_flatMap]
    _ = (keptRows o).length * o.w := by simp [hrow]
    _ ≤ o.h * o.w := Nat.mul_le_mul_right _ hrows
    _ = o.w * o.h := Nat.mul_comm _ _

/-- Distinct words that the command may write are at most as many as the kept pixels. -/
theorem length_le_of_writable {offs : List Nat} (hnodup : offs.Nodup) (h : ∀ off ∈ offs, writableWord o off) :
    offs.length ≤ (keptPixels o).length := by
  have hsub : offs ⊆ (keptPixels o).map (pixelOffset o) := fun off hoff => by
    obtain ⟨p, hp, ho, -⟩ := h off hoff
    exact List.mem_map.mpr ⟨p, hp, ho⟩
  simpa using (List.subperm_of_subset hnodup hsub).length_le

end

/-! ## Words that have been read -/

/-- The words that have been read: those held, and those already written. -/
def wordsRead (work : Work) : List Nat := work.held.map HeldWord.off ++ work.updated

section
variable {s t : State} {off : Nat}

theorem heldValue_eq_none_iff (off : Nat) (held : List HeldWord) :
    heldValue off held = none ↔ off ∉ held.map HeldWord.off := by
  simp [heldValue]

theorem wordsRead_holdWord (off : Nat) (v : PixelWord) (s : State) :
    wordsRead (holdWord off v s).work = off :: wordsRead s.work := rfl

/-- A held word that is written stays among those that have been read. -/
theorem wordsRead_finishWord (hnodup : (wordsRead s.work).Nodup) (hheld : (heldValue off s.work.held).isSome = true) :
    (wordsRead (finishWord off s).work).Perm (wordsRead s.work) := by
  have hmem : off ∈ s.work.held.map HeldWord.off := by
    by_contra hnot
    simp [(heldValue_eq_none_iff _ _).mpr hnot] at hheld
  have herase : (s.work.held.filter fun h => h.off != off).map HeldWord.off
      = (s.work.held.map HeldWord.off).erase off := by
    rw [(List.nodup_append.mp hnodup).1.erase_eq_filter, List.filter_map]; rfl
  calc wordsRead (finishWord off s).work
      = (s.work.held.map HeldWord.off).erase off ++ off :: s.work.updated := by rw [← herase]; rfl
    List.Perm _ (off :: (s.work.held.map HeldWord.off).erase off ++ s.work.updated) := List.perm_middle
    List.Perm _ (wordsRead s.work) := (List.perm_cons_erase hmem).symm.append_right _

end

/-! ## The count of a command's accesses -/

/-- The accesses `new` of a command that has come to the position `work`: no more bitmap reads than pixels that have
left the lists of those to read, and for each word that has been read one frame access, or two once it is written. -/
structure Counted (o : Operands) (work : Work) (new : List MemEvent) : Prop where
  reads : bitmapReadCount o new + work.toRead.length + work.mayRead.length
    ≤ (keptPixels o).length + (clippedPixels o).length
  frame : frameAccessCount o new ≤ (wordsRead work).length + work.updated.length
  once : (wordsRead work).Nodup
  writable : ∀ off ∈ wordsRead work, writableWord o off

section
variable {s t : State} {o : Operands} {work : Work} {new : List MemEvent} {e : MemEvent}

theorem bitmapReadCount_append (o : Operands) (l m : List MemEvent) :
    bitmapReadCount o (l ++ m) = bitmapReadCount o l + bitmapReadCount o m := List.countP_append

theorem frameAccessCount_append (o : Operands) (l m : List MemEvent) :
    frameAccessCount o (l ++ m) = frameAccessCount o l + frameAccessCount o m := List.countP_append

theorem bitmapReadCount_cons_le (o : Operands) (e : MemEvent) (l : List MemEvent) :
    bitmapReadCount o (e :: l) ≤ bitmapReadCount o l + 1 := by
  rw [bitmapReadCount, List.countP_cons]
  exact Nat.add_le_add_left (by split <;> simp) _

theorem frameAccessCount_cons_le (o : Operands) (e : MemEvent) (l : List MemEvent) :
    frameAccessCount o (e :: l) ≤ frameAccessCount o l + 1 := by
  rw [frameAccessCount, List.countP_cons]
  exact Nat.add_le_add_left (by split <;> simp) _

theorem bitmapReadCount_cons_of_not (h : (bitmapRange o).covers e.addr = false ∨ e.agent = .host)
    (l : List MemEvent) :
    bitmapReadCount o (e :: l) = bitmapReadCount o l := by
  obtain h | h := h <;> simp [bitmapReadCount, h]

theorem frameAccessCount_cons_of_not (h : (frameRange o).covers e.addr = false ∨ e.agent = .host)
    (l : List MemEvent) :
    frameAccessCount o (e :: l) = frameAccessCount o l := by
  obtain h | h := h <;> simp [frameAccessCount, h]

theorem counted_startWork (o : Operands) : Counted o (startWork o) [] where
  reads := by simp [bitmapReadCount, startWork]
  frame := by simp [frameAccessCount]
  once := by simp [wordsRead, startWork]
  writable := by simp [wordsRead, startWork]

/-- A command makes no more bitmap reads than its bitmap has pixels (R180). -/
theorem Counted.bitmapReads_le (h : Counted o work new) : bitmapReadCount o new ≤ o.w * o.h := by
  have hreads := h.reads
  have hpixels := length_keptPixels_add_length_clippedPixels_le o
  omega

/-- A command makes no more than two frame accesses for each kept pixel (R180). -/
theorem Counted.frameAccesses_le (h : Counted o work new) : frameAccessCount o new ≤ 2 * (keptPixels o).length := by
  have hframe := h.frame
  have hwords := length_le_of_writable h.once h.writable
  have hlen : (wordsRead work).length = (work.held.map HeldWord.off).length + work.updated.length :=
    List.length_append
  omega

/-- An access of another agent is not counted. -/
theorem Counted.cons_host (h : Counted o work new) (he : e.agent = .host) : Counted o work (e :: new) where
  reads := by rw [bitmapReadCount_cons_of_not (.inr he)]; exact h.reads
  frame := by rw [frameAccessCount_cons_of_not (.inr he)]; exact h.frame
  once := h.once
  writable := h.writable

/-- A bitmap read that takes a pixel off the lists of those to read keeps the count. -/
theorem Counted.bitmapRead {work' : Work} (h : Counted o work new) (hchecked : startError o = none)
    (haddr : (bitmapRange o).covers e.addr = true) (hheld : work'.held = work.held)
    (hupdated : work'.updated = work.updated)
    (hfewer : work'.toRead.length + work'.mayRead.length + 1 = work.toRead.length + work.mayRead.length) :
    Counted o work' (e :: new) := by
  have hwords : wordsRead work' = wordsRead work := by rw [wordsRead, hheld, hupdated]; rfl
  have hreads := h.reads
  have hcons := bitmapReadCount_cons_le o e new
  refine ⟨by omega, ?_, hwords ▸ h.once, hwords ▸ h.writable⟩
  rw [frameAccessCount_cons_of_not (.inl (not_frame_of_bitmap hchecked haddr)), hwords, hupdated]
  exact h.frame

/-- A frame access to a word that may be written is no bitmap read (R153). -/
theorem bitmapReadCount_cons_frame {off : Nat} (hchecked : startError o = none) (hoff : writableWord o off)
    (haddr : e.addr = o.fbBase + off) (l : List MemEvent) : bitmapReadCount o (e :: l) = bitmapReadCount o l := by
  refine bitmapReadCount_cons_of_not (.inl ?_) l
  have hframe := covers_of_frameWordOf (frameWordOf_base (writableWord_even hoff) (writableWord_fate hoff))
  by_contra hbitmap
  rw [← haddr, not_frame_of_bitmap hchecked (by simpa using hbitmap)] at hframe
  cases hframe

/-- An engine access keeps the count. -/
theorem Counted.engineAccess (h : Counted (operands s) s.work new) (hs : s.Reading) (hacc : EngineAccess s work e) :
    Counted (operands s) work (e :: new) := by
  have in_bitmap {p : Pixel} (hp : p ∈ s.work.toRead ∨ p ∈ s.work.mayRead) :
      (bitmapRange (operands s)).covers (bitmapAddr (operands s) p) = true := by
    obtain ⟨hx, hy⟩ := hs.in_bitmap hp
    exact bitmapAddr_in_range _ p hx hy
  cases hacc with
  | @readPixel p b hp _ =>
    refine h.bitmapRead hs.checked (in_bitmap (.inl hp)) rfl rfl ?_
    have := List.length_erase_add_one hp
    simp only; omega
  | @readClipped p value hp =>
    refine h.bitmapRead hs.checked (in_bitmap (.inr hp)) rfl rfl ?_
    have := List.length_erase_add_one hp
    simp only; omega
  | @readFrame off size v hoff hnone =>
    have hwritable := writableWord_of_pending hoff
    have hunread : off ∉ wordsRead s.work := fun hr => (List.mem_append.mp hr).elim
      ((heldValue_eq_none_iff _ _).mp hnone) (touched_of_mem_pendingWords hoff).2
    refine ⟨?_, (frameAccessCount_cons_le _ _ _).trans ?_, List.nodup_cons.mpr ⟨hunread, h.once⟩,
      List.forall_mem_cons.mpr ⟨hwritable, h.writable⟩⟩
    · rw [bitmapReadCount_cons_frame hs.checked hwritable rfl]; exact h.reads
    · have hframe := h.frame
      have hupdated : (holdWord off v s).work.updated = s.work.updated := rfl
      rw [wordsRead_holdWord, List.length_cons, hupdated]
      omega
  | @writeFrame off size v hoff hheld _ =>
    have hperm := wordsRead_finishWord h.once hheld
    refine ⟨?_, (frameAccessCount_cons_le _ _ _).trans ?_, hperm.nodup_iff.mpr h.once,
      fun b hb => h.writable b (hperm.mem_iff.mp hb)⟩
    · rw [bitmapReadCount_cons_frame hs.checked (writableWord_of_pending hoff) rfl]; exact h.reads
    · have hframe := h.frame
      rw [hperm.length_eq]
      simp only [finishWord_work, List.length_cons]
      omega

/-! ## The count along a run -/

/-- What every run of a command keeps of its accesses since the history was `base`: their count at the position that
the engine has come to, or had come to at completion. -/
def CountKept (o : Operands) (base : List MemEvent) (s : State) : Prop :=
  operands s = o ∧ ∃ new work, s.history = new ++ base ∧ Counted o work new
    ∧ (s.eng = .busy → work = s.work ∧ s.Reading)

theorem countKept_acceptCommand (hchecked : startError (operands s) = none) :
    CountKept (operands s) s.history (acceptCommand s) :=
  ⟨rfl, [], _, rfl, counted_startWork _, fun _ => ⟨rfl, State.Reading.acceptCommand hchecked⟩⟩

theorem CountKept.step {base : List MemEvent} (h : CountKept o base s) (hb : s.eng = .busy) (hcase : BusyCase s t) :
    CountKept o base t := by
  obtain ⟨rfl, new, work, hhistory, hcount, hbusy⟩ := h
  obtain ⟨rfl, hs⟩ := hbusy hb
  have hreading := hs.step hb hcase
  cases hcase with
  | quiet => exact ⟨rfl, new, _, hhistory, hcount, fun _ => ⟨rfl, hreading hb⟩⟩
  | engine moves draws ha hp =>
    obtain ⟨-, rfl⟩ | ⟨work, mem, e, hacc, rfl⟩ := engineAccess_of_performAction (s := { s with moves, draws }) ha hp
    · exact ⟨rfl, new, _, hhistory, hcount, fun h => by cases h⟩
    · exact ⟨rfl, e :: new, work, congrArg (e :: ·) hhistory,
        Counted.engineAccess (s := { s with moves, draws }) hcount hs.with_rest hacc, fun _ => ⟨rfl, hreading hb⟩⟩
  | hostWrite a v rest =>
    rw [hostWrite_busy a v { s with moves := rest } hb] at hreading ⊢
    exact ⟨rfl, _ :: new, _, congrArg (_ :: ·) hhistory, hcount.cons_host rfl, fun _ => ⟨rfl, hreading hb⟩⟩
  | hostRead a rest hread =>
    obtain ⟨b, -, rfl⟩ := hostRead_next a { s with moves := rest } t hread
    exact ⟨rfl, _ :: new, _, congrArg (_ :: ·) hhistory, hcount.cons_host rfl, fun _ => ⟨rfl, hreading hb⟩⟩

end

/-- Settles O49: the count is kept along the run, and bounds the accesses at its end. -/
theorem bitmapReadsBounded : Obligations.BitmapReadsBounded := by
  intro f s t u hi _ hexec hb hrun
  obtain ⟨rfl, hchecked⟩ := eq_acceptCommand_of_drawChar hi hexec hb
  have hkept := racyRun_induct hrun (countKept_acceptCommand hchecked) fun x y hx hcase _ h => h.step hx hcase
  obtain ⟨-, new, work, hhistory, hcount, -⟩ := hkept
  rw [hhistory, bitmapReadCount_append, frameAccessCount_append, Nat.add_comm, Nat.add_comm (frameAccessCount _ new)]
  exact ⟨Nat.add_le_add_left hcount.bitmapReads_le _, Nat.add_le_add_left hcount.frameAccesses_le _,
    length_keptPixels_add_length_clippedPixels_le _,
    length_le_of_writable (nodup_pendingWords _) fun _ => writableWord_of_pending⟩

end Sys2Proof.Machine
end
